-- ==== Sys2Proof/Word.lean ====
section
/-! DEFINITION. The plain data every other file names: bytes, words, channels, colours and address ranges
(spec 00_scope.md R6, R12; 20_memory.md R71). -/

namespace Sys2Proof

/-- One byte of buffer memory (R60). -/
abbrev Byte := BitVec 8

/-- One register or command word, REG_WIDTH = 32 (R6). -/
abbrev Word := BitVec 32

/-- One colour channel, CHANNEL_WIDTH = 16 (R6). -/
abbrev Chan := BitVec 16

/-- The three channels of a colour: 0 = red, 1 = green, 2 = blue (R12). -/
inductive Channel where
  | red
  | green
  | blue
  deriving DecidableEq, Repr

/-- A colour: three 16-bit channels (R6, R12). -/
structure Color where
  r : Chan
  g : Chan
  b : Chan
  deriving DecidableEq, Repr

/-- The byte set `range(base, len)` of R71, empty when `len = 0`. -/
structure AddrRange where
  base : Nat
  len  : Nat
  deriving DecidableEq, Repr

end Sys2Proof
end

