-- ==== Sys2Proof/Config.lean ====
section
/-! DEFINITION. What the platform fixes (the open parameters of 00_scope.md R6) and the free values: constants
without a body, about which nothing can be proved, for what the spec leaves unspecified. -/

namespace Sys2Proof

/-- P_LSB_ORDER (R6, R147): which bits of the shared low byte belong to which lane. -/
inductive LsbOrder where
  | lsbFirst
  | msbFirst
  deriving DecidableEq, Repr

/-- P_DIV_MODE (R6, R8): how the interpolation quotient is rounded. -/
inductive DivMode where
  | trunc
  | floor
  deriving DecidableEq, Repr

/-- The open parameters of R6, which "the model takes as an argument". No step changes them (log entry 3). -/
structure Params where
  /-- P_REG_BASE: the bus address of register offset 0x000. -/
  regBase     : Nat
  /-- P_LUT_CAPACITY: the number of lattice entries. -/
  lutCapacity : Nat
  lsbOrder    : LsbOrder
  divMode     : DivMode
  /-- P_MEM_ADMITS as plain data: the address ranges whose accesses end in a bus error. -/
  refusing    : List AddrRange
  deriving DecidableEq, Repr

/-- The parameter values `State.reset` holds: the defaults of R6 for LSB order and division, the values of
95_test_vectors.md's preamble for the capacity and the admitted addresses. DESIGN CHOICE, log entry 3. -/
def Params.initial : Params where
  regBase     := 0x40000000
  lutCapacity := 64
  lsbOrder    := .lsbFirst
  divMode     := .trunc
  refusing    := []

/-- Free value: the byte buffer memory holds at an address nothing has written since the model started
(R62, 93 U6: "a draw per byte, fixed once drawn"). Log entry 5. -/
opaque Config.powerOnByte : Nat → Byte

/-- Free value: a byte the spec leaves unspecified after a bus error, an abandoning reset or a host hazard
(R237, R262, R267; 93 U2, U3, U4), applied to the counter `State.draws`. Log entry 6. -/
opaque Config.freeByte : Nat → Byte

/-- Free value: what an unwritten lattice channel holds after a reset (R40, R261; 93 U1), applied to the number
of the reset and the channel's key. Log entry 7. -/
opaque Config.latticeAfterReset : Nat → Nat → Chan

end Sys2Proof
end

