-- ==== Sys2Proof/Syntax.lean ====
section
/-! DEFINITION. The commands (30_encoding.md R92), the fields of a command word (R91), the registers (10_state.md
R20) and the operations of the host agent (R97). -/

namespace Sys2Proof

/-- The five commands, one constructor per row of spec/opcode_table.json. A command word has no operand
fields (R93). -/
inductive Instr where
  /-- DECODE (R154). -/
  | decode
  /-- DECODE_WRAPPED (R156). -/
  | decodeWrapped
  /-- LUT_IDENTITY (R191). -/
  | lutIdentity
  /-- LUT_MAP_COLOR (R192). -/
  | lutMapColor
  /-- LUT_MAP_IMAGE (R193). -/
  | lutMapImage
  deriving DecidableEq, Repr

/-- Format CMD32 (R91): OPCODE in bits [7:0], RSVD in bits [31:8]. -/
structure Cmd32 where
  opcode : BitVec 8
  rsvd   : BitVec 24
  deriving DecidableEq, Repr

/-- The registers of R20. An offset of 0x000..0x0FF that names none of them is reserved (R44). -/
inductive Reg where
  | id | ctrl | status | cmd
  | srcBase | srcLen | dstBase | geomW | geomH | align | magic | hdrSkip
  | expLen | outDim
  | lutCfg | lutIdx
  | lutWindow (n : Channel)
  | input (n : Channel)
  | output (n : Channel)
  | imgDim
  deriving DecidableEq, Repr

/-- The size of a host register access in bytes: any number, of which only 4 has a meaning (R66, R112). -/
abbrev AccessSize := Nat

/-- One operation of the host agent or of the reset input (R5, R97, R126, R260). Offsets and addresses are
plain numbers. -/
inductive HostOp where
  /-- `WR`: a bus write of `size` bytes at P_REG_BASE + `off`. `data` is the word of a 4-byte write; the data of a
  write of another size reaches nothing (R112). -/
  | write (off : Nat) (size : AccessSize) (data : Word)
  /-- `RD`: a bus read of `size` bytes at P_REG_BASE + `off`. -/
  | read (off : Nat) (size : AccessSize)
  /-- `POLL`: `RD STATUS` until BUSY reads 0. -/
  | poll
  /-- One byte write of `MEMW`. -/
  | memWrite (addr : Nat) (data : Byte)
  /-- One byte read of `MEMR`. -/
  | memRead (addr : Nat)
  /-- The reset input is asserted and released (R260). -/
  | reset
  deriving DecidableEq, Repr

/-- The two agents of R5. -/
inductive Agent where
  | host
  | engine
  deriving DecidableEq, Repr

end Sys2Proof
end

