-- ==== Sys2Proof/WellFormed.lean ====
section
/-! DEFINITION. Which command words, host register accesses and parameters are well formed. -/

namespace Sys2Proof

/-- The opcode of each command (R92). -/
def Instr.opcode : Instr → BitVec 8
  | .decode        => 0x01
  | .decodeWrapped => 0x02
  | .lutIdentity   => 0x10
  | .lutMapColor   => 0x11
  | .lutMapImage   => 0x12

/-- RSVD "must be 0" (R91). -/
def Cmd32.reservedZero (c : Cmd32) : Bool := c.rsvd == 0

/-- OPCODE is one of 0x01, 0x02, 0x10, 0x11, 0x12 (R95). -/
def Cmd32.opcodeDefined (c : Cmd32) : Bool :=
  [Instr.decode, .decodeWrapped, .lutIdentity, .lutMapColor, .lutMapImage].any fun i => i.opcode == c.opcode

/-- A command word is legal when neither condition of R95 holds. -/
def Cmd32.wellFormed (c : Cmd32) : Bool := c.reservedZero && c.opcodeDefined

/-- The fields of a command's word. -/
def Instr.cmd32 (i : Instr) : Cmd32 := ⟨i.opcode, 0⟩

/-- A command has no operand fields, so its syntax is well formed when its word is. -/
def Instr.wellFormed (i : Instr) : Bool := i.cmd32.wellFormed

/-- A host register access is an aligned 32-bit word access (R66, R112). -/
def accessWellFormed (off : Nat) (size : AccessSize) : Bool := size == 4 && off % 4 == 0

/-- The constraint on P_LUT_CAPACITY of R6: at least 8, at most 255^3. -/
def Params.wellFormed (p : Params) : Bool := 8 ≤ p.lutCapacity && p.lutCapacity ≤ 255 ^ 3

end Sys2Proof
end

