-- ==== Sys2Proof/Decode.lean ====
section
/-! DEFINITION. The command decoder and encoder (30_encoding.md R91, R92, R95, R96) and the register map's address
decoder (10_state.md R20). -/

namespace Sys2Proof

/-- Why a command word is illegal (R95). -/
inductive Illegal where
  /-- RSVD ≠ 0, whatever the OPCODE. -/
  | reservedBits
  /-- RSVD = 0 and OPCODE selects no command. -/
  | undefinedOpcode
  deriving DecidableEq, Repr

/-- The fields of a command word (R91). -/
def fieldsOf (w : Word) : Cmd32 := ⟨w.extractLsb' 0 8, w.extractLsb' 8 24⟩

/-- `decode(w)` of R96, total on all words. -/
def decodeWord (w : Word) : Except Illegal Instr :=
  if (fieldsOf w).rsvd ≠ 0 then .error .reservedBits
  else match (fieldsOf w).opcode.toNat with
    | 0x01 => .ok .decode
    | 0x02 => .ok .decodeWrapped
    | 0x10 => .ok .lutIdentity
    | 0x11 => .ok .lutMapColor
    | 0x12 => .ok .lutMapImage
    | _    => .error .undefinedOpcode

/-- The word of a command: the table of R92. -/
def encode : Instr → Word
  | .decode        => 0x00000001
  | .decodeWrapped => 0x00000002
  | .lutIdentity   => 0x00000010
  | .lutMapColor   => 0x00000011
  | .lutMapImage   => 0x00000012

/-- A command is exactly one 32-bit word (R90), so a number of more bits is no command. -/
def decodeTableWord (nbits w : Nat) : Option Instr :=
  if nbits ≤ 32 ∧ w < 2 ^ 32 then (decodeWord (BitVec.ofNat 32 w)).toOption else none

/-- The register at an offset, `none` for a reserved one (R20, R44). -/
def regAt (off : Nat) : Option Reg :=
  match off with
  | 0x000 => some .id
  | 0x004 => some .ctrl
  | 0x008 => some .status
  | 0x00C => some .cmd
  | 0x010 => some .srcBase
  | 0x014 => some .srcLen
  | 0x018 => some .dstBase
  | 0x01C => some .geomW
  | 0x020 => some .geomH
  | 0x024 => some .align
  | 0x028 => some .magic
  | 0x02C => some .hdrSkip
  | 0x030 => some .expLen
  | 0x034 => some .outDim
  | 0x040 => some .lutCfg
  | 0x044 => some .lutIdx
  | 0x048 => some (.lutWindow .red)
  | 0x04C => some (.lutWindow .green)
  | 0x050 => some (.lutWindow .blue)
  | 0x060 => some (.input .red)
  | 0x064 => some (.input .green)
  | 0x068 => some (.input .blue)
  | 0x070 => some (.output .red)
  | 0x074 => some (.output .green)
  | 0x078 => some (.output .blue)
  | 0x080 => some .imgDim
  | _     => none

/-- The offset of a register (R20). -/
def offsetOf : Reg → Nat
  | .id      => 0x000
  | .ctrl    => 0x004
  | .status  => 0x008
  | .cmd     => 0x00C
  | .srcBase => 0x010
  | .srcLen  => 0x014
  | .dstBase => 0x018
  | .geomW   => 0x01C
  | .geomH   => 0x020
  | .align   => 0x024
  | .magic   => 0x028
  | .hdrSkip => 0x02C
  | .expLen  => 0x030
  | .outDim  => 0x034
  | .lutCfg  => 0x040
  | .lutIdx  => 0x044
  | .lutWindow .red   => 0x048
  | .lutWindow .green => 0x04C
  | .lutWindow .blue  => 0x050
  | .input .red       => 0x060
  | .input .green     => 0x064
  | .input .blue      => 0x068
  | .output .red      => 0x070
  | .output .green    => 0x074
  | .output .blue     => 0x078
  | .imgDim           => 0x080

end Sys2Proof
end

