-- ==== Sys2Proof/Machine/State.lean ====
section
/-! DEFINITION. The machine's state as plain data (10_state.md R20 to R48), the reasons a step can stop, and the
state after reset (R48). -/

namespace Sys2Proof.Machine

/-- The error codes of STATUS.ERR (60_exceptions.md R230). Codes 9 to 15 are never produced, so they have no
constructor. -/
inductive ErrCode where
  | ok
  | illegal
  | config
  | lutDim
  | range
  | overlap
  | size
  | magic
  | bus
  deriving DecidableEq, Repr

/-- STATUS (R25): its four fields; every other bit is reserved and reads 0. -/
structure Status where
  busy   : Bool
  done   : Bool
  busyWr : Bool
  err    : ErrCode
  deriving DecidableEq, Repr

/-- The configuration registers, written only by the host (R118). Each holds exactly its implemented bits: the
reserved bits of LUT_CFG, LUT_IDX and IN_R/G/B have no storage and read 0 (R44). -/
structure ConfigRegs where
  srcBase : Word
  srcLen  : Word
  dstBase : Word
  geomW   : Word
  geomH   : Word
  align   : Word
  magic   : Word
  hdrSkip : Word
  lutCfg  : BitVec 25
  lutIdx  : BitVec 24
  /-- IN_R, IN_G, IN_B (R41). -/
  input   : Color
  imgDim  : Word
  deriving DecidableEq, Repr

/-- The engine state of R45: `eng.cmd` is meaningful only while PENDING, so only `pending` holds it. -/
inductive Engine where
  | idle
  | pending (cmd : Word)
  deriving DecidableEq, Repr

/-- The reasons of R248 for which the spec's model marks its state faulted. -/
inductive ModelFault where
  /-- UNINIT_LATTICE: a lattice channel not written since reset was read (R46). -/
  | uninitLattice
  /-- HOST_HAZARD: the host touched a byte of a command's source or destination range (R267). -/
  | hostHazard
  deriving DecidableEq, Repr

/-- What the host has read: the data of one bus read. -/
inductive Observation where
  | reg (off : Nat) (value : Word)
  | mem (addr : Nat) (value : Byte)
  deriving DecidableEq, Repr

/-- The whole state. The last nine fields are the model's own (R46, and log entries 4 to 8). -/
structure State where
  /-- The platform's parameters (R6). -/
  params   : Params
  /-- CTRL.IRQ_EN (R24). -/
  irqEn    : Bool
  /-- STATUS (R25). -/
  status   : Status
  /-- SRC_BASE to HDR_SKIP, LUT_CFG, LUT_IDX, IN_R/G/B and IMG_DIM (R27 to R34, R37, R38, R41, R43). -/
  cfg      : ConfigRegs
  /-- OUT_R, OUT_G, OUT_B: the last colour a successful LUT_MAP_COLOR produced (R42). -/
  out      : Color
  /-- What the host reads in OUT_R, OUT_G, OUT_B: `out` as it was when the host last observed a completion or had a
  command accepted, whichever came later (R75, R111, R123, R269; log entry 16). -/
  outSeen  : Color
  /-- The lattice RAM and its `written` marks (R40, R46): channel n of entry e is the cell with key 3·e + n,
  listed exactly when it has been written since reset. -/
  lattice  : List (Nat × Chan)
  /-- The engine (R45). -/
  eng      : Engine
  /-- Buffer memory (R60): the bytes written since the model started. -/
  mem      : List Host.Cell
  /-- How many resets there have been: the argument of the free lattice contents. -/
  resets   : Nat
  /-- How many free bytes have been drawn: the argument of the next one. -/
  draws    : Nat
  /-- The sticky mark `faulted` of R46, with the first reason. -/
  faulted  : Option ModelFault
  /-- The sticky mark `refused` of R46. -/
  refused  : Bool
  /-- The source and destination ranges of accepted commands whose completion the host has not observed
  (R75, R267; log entry 8). -/
  guarded  : List AddrRange
  /-- The bytes of the pending command's ranges that the host has written while it is pending (R267). -/
  raced    : List Nat
  /-- The host operations still to be performed, first one first (R97). -/
  host     : List HostOp
  /-- Which agent moves next whenever both can, first choice first (R128); when it is empty the engine does. -/
  turns    : List Agent
  /-- What the host has read, newest first. -/
  observed : List Observation
  deriving DecidableEq, Repr

/-- Reasons a step stops. Each is an access the spec says is to nothing: no command raises any. Log entry 10. -/
inductive Fault where
  /-- A host register access at an offset of 0x100 or more, "not part of the block" (R44). Raised by `WR` and `RD`
  of the host. Safe: the model stops where another device of the platform would answer. -/
  | outsideRegisterFile
  /-- A host byte access at an address of 2^32 or more, which buffer memory does not have (R60). Raised by `MEMW`
  and `MEMR` of the host. Safe: the model stops. -/
  | outsideBufferMemory
  deriving DecidableEq, Repr

/-- Reasons a step is refused. Log entry 15. -/
inductive Refusal where
  /-- A command that has no meaning in the model. Raised by no arm of `exec`: all five commands have theirs.
  Safe: the model stops. -/
  | notModelled (mnemonic : String)
  deriving DecidableEq, Repr

/-- The black colour, the reset value of IN_R/G/B and OUT_R/G/B (R41, R42). -/
def blackColor : Color := ⟨0, 0, 0⟩

/-- STATUS after reset (R25, R48). -/
def Status.reset : Status := ⟨false, false, false, .ok⟩

/-- The configuration registers after reset: all 0 (R48). -/
def ConfigRegs.reset : ConfigRegs where
  srcBase := 0
  srcLen  := 0
  dstBase := 0
  geomW   := 0
  geomH   := 0
  align   := 0
  magic   := 0
  hdrSkip := 0
  lutCfg  := 0
  lutIdx  := 0
  input   := blackColor
  imgDim  := 0

/-- The machine right after reset (R48): registers 0, engine IDLE, no lattice channel written, nothing in memory
written, no host operation waiting. The parameters are those of log entry 3. -/
def State.reset : State where
  params   := Params.initial
  irqEn    := false
  status   := Status.reset
  cfg      := ConfigRegs.reset
  out      := blackColor
  outSeen  := blackColor
  lattice  := []
  eng      := .idle
  mem      := []
  resets   := 0
  draws    := 0
  faulted  := none
  refused  := false
  guarded  := []
  raced    := []
  host     := []
  turns    := []
  observed := []

end Sys2Proof.Machine
end

