-- ==== Sys2Proof/Machine/Ops.lean ====
section
/-! DEFINITION. The named operations over address ranges, memory, the lattice RAM and the model's marks
(20_memory.md R60 to R71; 10_state.md R40, R46), and the one operation that ends a command: completion
(40_host_interface.md R125) and the abort on an error (60_exceptions.md R236, R237). -/

namespace Sys2Proof

/-! ### Address ranges (R71), the platform's predicates (R61, R62) and colours (R12) -/

/-- The number of bytes of buffer memory, 2^32 (R60). -/
def memBytes : Nat := 4294967296

/-- `a` is in `range(base, len)`. -/
def AddrRange.contains (r : AddrRange) (a : Nat) : Bool := r.base ≤ a && a < r.base + r.len

/-- The range does not pass the top of the address space: `base + len ≤ 2^32`, unbounded (R71). -/
def AddrRange.fits (r : AddrRange) : Bool := r.base + r.len ≤ memBytes

/-- Two ranges' byte sets intersect; an empty range meets none (R71). -/
def AddrRange.overlaps (r q : AddrRange) : Bool :=
  0 < r.len && 0 < q.len && r.base < q.base + q.len && q.base < r.base + r.len

/-- The addresses of a range that buffer memory has, in rising order. -/
def AddrRange.addresses (r : AddrRange) : List Nat :=
  ((List.range r.len).map (r.base + ·)).filter (· < memBytes)

/-- The empty range: what a command that accesses no memory reads and writes. -/
def AddrRange.empty : AddrRange := ⟨0, 0⟩

/-- P_MEM_ADMITS (R6, R62). -/
def Params.admits (p : Params) (a : Nat) : Bool := !(p.refusing.any fun r => r.contains a)

/-- A bus address inside the register space P_REG_BASE .. P_REG_BASE + 0xFF (R61). -/
def Params.inRegSpace (p : Params) (a : Nat) : Bool := p.regBase ≤ a && a ≤ p.regBase + 0xFF

/-- The number of a channel (R12). -/
def channelIndex : Channel → Nat
  | .red => 0
  | .green => 1
  | .blue => 2

/-- Channel `n` of a colour. -/
def Color.get (c : Color) : Channel → Chan
  | .red => c.r
  | .green => c.g
  | .blue => c.b

/-- A colour given channel by channel (R12). -/
def colorOf (f : Channel → Chan) : Color := ⟨f .red, f .green, f .blue⟩

end Sys2Proof

namespace Sys2Proof.Machine

/-! ### Sparse data: lists of key and value -/

/-- The value listed at a key. -/
def cellsFind {α : Type} : List (Nat × α) → Nat → Option α
  | [], _ => none
  | (k, v) :: rest, a => if k = a then some v else cellsFind rest a

/-- List `v` at key `a`, keeping the keys rising. -/
def cellsPut {α : Type} : List (Nat × α) → Nat → α → List (Nat × α)
  | [], a, v => [(a, v)]
  | (k, w) :: rest, a, v =>
    if a < k then (a, v) :: (k, w) :: rest
    else if a = k then (a, v) :: rest
    else (k, w) :: cellsPut rest a v

/-- Every key is above `low` and the keys strictly rise. -/
def risingAbove {α : Type} (low : Nat) : List (Nat × α) → Bool
  | [] => true
  | (k, _) :: rest => low < k && risingAbove k rest

/-- The canonical form: the keys strictly rise. -/
def rising {α : Type} : List (Nat × α) → Bool
  | [] => true
  | (k, _) :: rest => risingAbove k rest

/-- Every key is below the bound. -/
def keysBelow {α : Type} (bound : Nat) (cells : List (Nat × α)) : Bool :=
  cells.all fun c => decide (c.1 < bound)

/-! ### Buffer memory (R60, R62) -/

/-- The canonical form of memory: addresses strictly rise and lie in the address space. An unlisted address holds
no known value (R62), so no entry can equal what an unlisted one holds (log entry 5). -/
def Memory.wf (m : List Host.Cell) : Bool := rising m && keysBelow memBytes m

/-- The byte memory holds at `a`: the last one written, else the free power-on byte (R62). -/
def byteAt (m : List Host.Cell) (a : Nat) : Byte := (cellsFind m a).getD (Config.powerOnByte a)

/-- Store one byte, without asking whether the platform admits it. -/
def State.putByte (s : State) (a : Nat) (v : Byte) : State := { s with mem := cellsPut s.mem a v }

/-- `MemRead8(a)` of R62. -/
def memRead8 (s : State) (a : Nat) : Except ErrCode Byte :=
  if s.params.admits a then .ok (byteAt s.mem a) else .error .bus

/-- `MemWrite8(a, v)` of R62. -/
def memWrite8 (s : State) (a : Nat) (v : Byte) : Except ErrCode State :=
  if s.params.admits a then .ok (s.putByte a v) else .error .bus

/-- `n` byte reads at `a`, `a + 1`, ... in that order (R63). -/
def loadBytes (s : State) (a : Nat) : Nat → Except ErrCode (List Byte)
  | 0 => .ok []
  | n + 1 =>
    match memRead8 s a with
    | .error c => .error c
    | .ok b =>
      match loadBytes s (a + 1) n with
      | .error c => .error c
      | .ok bs => .ok (b :: bs)

/-- The bytes are written at `a`, `a + 1`, ... in that order (R63). -/
def storeBytes (s : State) (a : Nat) : List Byte → Except ErrCode State
  | [] => .ok s
  | b :: bs =>
    match memWrite8 s a b with
    | .error c => .error c
    | .ok t => storeBytes t (a + 1) bs

/-- A byte string as one big-endian number: the first byte is the most significant (R63, R65). -/
def beValue : List Byte → Nat
  | [] => 0
  | b :: bs => b.toNat * 256 ^ bs.length + beValue bs

/-- The `n` bytes of a number, most significant first (R63, R65). -/
def beBytes (v : Nat) : Nat → List Byte
  | 0 => []
  | n + 1 => BitVec.ofNat 8 ((v >>> (8 * n)) % 256) :: beBytes v n

/-- `MemRead(a, n)` of R63. -/
def memRead (s : State) (a n : Nat) : Except ErrCode Nat :=
  match loadBytes s a n with
  | .error c => .error c
  | .ok bs => .ok (beValue bs)

/-- The six bytes of a pixel in a grid: red, green, blue, each 16-bit big-endian (R70). -/
def pixelBytes (c : Color) : List Byte :=
  beBytes c.r.toNat 2 ++ beBytes c.g.toNat 2 ++ beBytes c.b.toNat 2

/-- `pa(x, y)` of R70 for the pixel with row-major number `p`. -/
def pixelAddr (base p : Nat) : Nat := base + 6 * p

/-- The pixel at an address of a grid (R70). -/
def readPixel (s : State) (a : Nat) : Except ErrCode Color :=
  match memRead s a 2, memRead s (a + 2) 2, memRead s (a + 4) 2 with
  | .ok r, .ok g, .ok b => .ok ⟨BitVec.ofNat 16 r, BitVec.ofNat 16 g, BitVec.ofNat 16 b⟩
  | .error c, _, _ => .error c
  | _, .error c, _ => .error c
  | _, _, .error c => .error c

/-- Evaluate `f` at each element in order, stopping at the first error: the loops of R154 and R193. -/
def forEach {α β : Type} (f : α → Except ErrCode β) : List α → Except ErrCode (List β)
  | [] => .ok []
  | x :: xs =>
    match f x with
    | .error c => .error c
    | .ok y =>
      match forEach f xs with
      | .error c => .error c
      | .ok ys => .ok (y :: ys)

/-- Write a grid's pixels, row-major, at `base` (R70). -/
def storeGrid (s : State) (base : Nat) (pixels : List Color) : Except ErrCode State :=
  storeBytes s base (pixels.flatMap pixelBytes)

/-! ### Unspecified bytes -/

/-- Give each address a free byte of its own (R237, R262: "a free draw per byte"). -/
def State.scrub (s : State) : List Nat → State
  | [] => s
  | a :: as =>
    State.scrub { s with mem := cellsPut s.mem a (Config.freeByte s.draws), draws := s.draws + 1 } as

/-! ### The lattice RAM (R40, R46) -/

/-- Where channel `n` of lattice entry `e` stands in `State.lattice`. -/
def latticeKey (e : Nat) (n : Channel) : Nat := 3 * e + channelIndex n

/-- `written[e][n]` of R46. -/
def State.written (s : State) (e : Nat) (n : Channel) : Bool := (cellsFind s.lattice (latticeKey e n)).isSome

/-- `Lat[e].n`: what has been written there since reset, else the free content of R261. -/
def State.latticeAt (s : State) (e : Nat) (n : Channel) : Chan :=
  (cellsFind s.lattice (latticeKey e n)).getD (Config.latticeAfterReset s.resets (latticeKey e n))

/-- `Lat[e].n <- v` and `written[e][n] <- true` (R120, R191). -/
def State.putChannel (s : State) (e : Nat) (n : Channel) (v : Chan) : State :=
  { s with lattice := cellsPut s.lattice (latticeKey e n) v }

/-- `Lat[e] <- c` (R9). -/
def State.putEntry (s : State) (e : Nat) (c : Color) : State :=
  ((s.putChannel e .red c.r).putChannel e .green c.g).putChannel e .blue c.b

/-- Write a list of lattice entries, in order. -/
def State.putEntries (s : State) : List (Nat × Color) → State
  | [] => s
  | (e, c) :: rest => State.putEntries (s.putEntry e c) rest

/-- The canonical form of the lattice: keys strictly rise and name channels of entries below the capacity. -/
def Lattice.wf (capacity : Nat) (l : List (Nat × Chan)) : Bool := rising l && keysBelow (3 * capacity) l

/-! ### The model's marks (R9, R46) -/

/-- `fault ModelFault(reason)` of R9: the sticky mark is set, and keeps the first reason. -/
def State.markFault (s : State) (reason : ModelFault) : State :=
  { s with faulted := some (s.faulted.getD reason) }

/-- Mark UNINIT_LATTICE unless every lattice channel read had been written (R46). -/
def State.markUninit (s : State) (allWritten : Bool) : State :=
  if allWritten then s else s.markFault .uninitLattice

/-- The `refused` mark of R112. -/
def State.markRefused (s : State) : State := { s with refused := true }

/-- `a` lies in a range that R267 forbids the host to access. -/
def State.isGuarded (s : State) (a : Nat) : Bool := s.guarded.any fun r => r.contains a

/-- The data of one bus read reaches the host. -/
def State.recordObs (s : State) (o : Observation) : State := { s with observed := o :: s.observed }

/-! ### How a command ends -/

/-- `Complete(code)` of R125. If the interrupt is enabled the irq output rises, and with it the host observes the
completion (R75, R240), so OUT_R/G/B show their results (R269). -/
def State.complete (s : State) (code : ErrCode) : State :=
  { s with
    status  := { s.status with busy := false, done := true, err := code }
    eng     := .idle
    guarded := if s.irqEn then [] else s.guarded
    outSeen := if s.irqEn then s.out else s.outSeen }

/-- `raise Error(code)` of R9: the command ends with that code (R236). The abort is precise for every code but
ERR_BUS, after which each byte of the command's destination range is unspecified (R237). -/
def State.raiseError (s : State) (dest : AddrRange) (code : ErrCode) : State :=
  if code = .bus then (s.scrub dest.addresses).complete code else s.complete code

/-- How a command ends: with its effects and code OK, or by an error raised in state `s` (R124). -/
def State.conclude (s : State) (dest : AddrRange) : Except ErrCode State → State
  | .ok t => t.complete .ok
  | .error code => s.raiseError dest code

end Sys2Proof.Machine
end

