-- ==== Sys2Proof/Machine/Flags.lean ====
section
/-! DEFINITION. STATUS and CTRL, the block's only flags (10_state.md R24, R25), and the interrupt output
(60_exceptions.md R240). -/

namespace Sys2Proof.Machine

/-- The number of each error code (R230). -/
def errNumber : ErrCode → BitVec 4
  | .ok      => 0
  | .illegal => 1
  | .config  => 2
  | .lutDim  => 3
  | .range   => 4
  | .overlap => 5
  | .size    => 6
  | .magic   => 7
  | .bus     => 8

/-- STATUS as the host reads it (R25): BUSY [0], DONE [1], BUSY_WR [2], 0 at [3], ERR [7:4], 0 above. -/
def statusWord (t : Status) : Word :=
  0#24 ++ errNumber t.err ++ 0#1 ++ BitVec.ofBool t.busyWr ++ BitVec.ofBool t.done ++ BitVec.ofBool t.busy

/-- CTRL as the host reads it (R24): IRQ_EN in bit 0. -/
def ctrlWord (irqEn : Bool) : Word := 0#31 ++ BitVec.ofBool irqEn

/-- The interrupt output: `CTRL.IRQ_EN ∧ STATUS.DONE` (R47, R240). -/
def State.irq (s : State) : Bool := s.irqEn && s.status.done

/-- STATUS at the acceptance of a command (R116): BUSY_WR is unchanged. -/
def acceptStatus (t : Status) : Status := { t with busy := true, done := false, err := .ok }

/-- STATUS after the host writes `d` to it (R115). -/
def acknowledge (t : Status) (d : Word) : Status :=
  { t with done := t.done && !(d.getLsbD 1), busyWr := t.busyWr && !(d.getLsbD 2) }

/-- The host has observed the completion of every accepted command (R75 item 2), so no byte is under R267, and
OUT_R/G/B show the last result (R123, R269). -/
def State.observeCompletion (s : State) : State := { s with guarded := [], outSeen := s.out }

/-- The irq output being asserted is an observation of completion (R75 item 2). -/
def State.observeIrq (s : State) : State := if s.irq then s.observeCompletion else s

end Sys2Proof.Machine
end

