-- ==== Sys2Proof/Machine/Operands.lean ====
section
/-! DEFINITION. The operands of the commands, read from the registers at perform time (30_encoding.md R93): frame
geometry (41_decoder.md R140 to R145), lattice configuration (10_state.md R37; 42_lut.md R189), and the buffer ranges
(20_memory.md R71; 70_reset_and_hazards.md R267). -/

namespace Sys2Proof.Machine

/-- The unsigned field of `len` bits starting at bit `lo` (R7), zero-extended to a number (R93). -/
def field {w : Nat} (v : BitVec w) (lo len : Nat) : Nat := (v.extractLsb' lo len).toNat

/-! ### Frame geometry -/

/-- The geometry inputs of R140. -/
structure Geometry where
  w  : Nat
  pc : Nat
  h  : Nat
  pr : Nat
  ca : Nat
  ra : Nat
  ha : Nat
  fa : Nat
  deriving DecidableEq, Repr

/-- The geometry the registers hold (R27 to R29, R140). -/
def geometryOf (r : ConfigRegs) : Geometry where
  w  := field r.geomW 0 16
  pc := field r.geomW 16 16
  h  := field r.geomH 0 16
  pr := field r.geomH 16 16
  ca := field r.align 0 8
  ra := field r.align 8 8
  ha := field r.align 16 8
  fa := field r.align 24 8

/-- `align(v, g)` of R10. -/
def alignUp (v g : Nat) : Nat := ((v + g - 1) / g) * g

/-- WS: samples per stored row (R141). -/
def storedWidth (g : Geometry) : Nat := alignUp (g.w + g.pc) g.ca

/-- RB: packed bytes per stored row (R141). -/
def rowBytes (g : Geometry) : Nat := storedWidth g * 5 / 4

/-- STRIDE (R142). -/
def rowStride (g : Geometry) : Nat := alignUp (rowBytes g) g.ra

/-- ROWS: stored rows (R143). -/
def storedRows (g : Geometry) : Nat := alignUp (g.h + g.pr) g.ha

/-- EXP_LEN (R143). -/
def expectedLength (g : Geometry) : Nat := alignUp (rowStride g * storedRows g) g.fa

/-- OW (R144). -/
def outWidth (g : Geometry) : Nat := g.w / 2

/-- OH (R144). -/
def outHeight (g : Geometry) : Nat := g.h / 2

/-- DL (R144). -/
def gridLength (g : Geometry) : Nat := 6 * outWidth g * outHeight g

/-- `geom_valid`: the five conditions of R145. -/
def geometryValid (g : Geometry) : Bool :=
  (2 ≤ g.w && g.w % 2 == 0) && (2 ≤ g.h && g.h % 2 == 0) &&
  (1 ≤ g.ca && 1 ≤ g.ra && 1 ≤ g.ha && 1 ≤ g.fa) &&
  storedWidth g % 4 == 0 && expectedLength g ≤ 2 ^ 32 - 1

/-! ### Lattice configuration -/

/-- LUT_CFG.MODE (R37). -/
inductive LutMode where
  | threeD
  | oneD
  deriving DecidableEq, Repr

/-- The fields of LUT_CFG (R37). -/
structure LutShape where
  x    : Nat
  y    : Nat
  z    : Nat
  mode : LutMode
  deriving DecidableEq, Repr

/-- The lattice configuration LUT_CFG holds (R37): X [7:0], Y [15:8], Z [23:16], MODE [24]. -/
def lutShapeOf (r : ConfigRegs) : LutShape where
  x    := field r.lutCfg 0 8
  y    := field r.lutCfg 8 8
  z    := field r.lutCfg 16 8
  mode := if r.lutCfg.getLsbD 24 then .oneD else .threeD

/-- `lut_valid` of R189. -/
def lutValid (capacity : Nat) (sh : LutShape) : Bool :=
  match sh.mode with
  | .threeD => 2 ≤ sh.x && 2 ≤ sh.y && 2 ≤ sh.z && sh.x * sh.y * sh.z ≤ capacity
  | .oneD => 2 ≤ sh.x && sh.x ≤ capacity

/-! ### Buffer ranges -/

/-- The source range of DECODE and DECODE_WRAPPED (R154, R267). -/
def frameRange (r : ConfigRegs) : AddrRange := ⟨r.srcBase.toNat, r.srcLen.toNat⟩

/-- The destination range of DECODE and DECODE_WRAPPED (R144, R154). -/
def decodedRange (r : ConfigRegs) : AddrRange := ⟨r.dstBase.toNat, gridLength (geometryOf r)⟩

/-- IMG_W (R43). -/
def imageWidth (r : ConfigRegs) : Nat := field r.imgDim 0 16

/-- IMG_H (R43). -/
def imageHeight (r : ConfigRegs) : Nat := field r.imgDim 16 16

/-- N, the number of pixels LUT_MAP_IMAGE maps (R193). -/
def imagePixels (r : ConfigRegs) : Nat := imageWidth r * imageHeight r

/-- The source range of LUT_MAP_IMAGE (R193). -/
def imageSource (r : ConfigRegs) : AddrRange := ⟨r.srcBase.toNat, 6 * imagePixels r⟩

/-- The destination range of LUT_MAP_IMAGE (R193). -/
def imageDest (r : ConfigRegs) : AddrRange := ⟨r.dstBase.toNat, 6 * imagePixels r⟩

/-- The source and destination ranges of a command (R267), taken literally also where it will fail. DEDUCED, log
entry 8. -/
def commandRanges (r : ConfigRegs) : Instr → AddrRange × AddrRange
  | .decode        => (frameRange r, decodedRange r)
  | .decodeWrapped => (frameRange r, decodedRange r)
  | .lutIdentity   => (.empty, .empty)
  | .lutMapColor   => (.empty, .empty)
  | .lutMapImage   => (imageSource r, imageDest r)

/-- The source and destination ranges of a command word; an illegal word has none (R95). -/
def wordRanges (r : ConfigRegs) (w : Word) : AddrRange × AddrRange :=
  match decodeWord w with
  | .ok i => commandRanges r i
  | .error _ => (.empty, .empty)

end Sys2Proof.Machine
end

