-- ==== Sys2Proof/Machine/ColourLut.lean ====
section
/-! DEFINITION. The colour LUT unit: LUT_IDENTITY, LUT_MAP_COLOR and LUT_MAP_IMAGE (42_lut.md R180 to R193). -/

namespace Sys2Proof.Machine

/-! ### Interpolation arithmetic -/

/-- `BS(P)` of R180. -/
def blockSize (p : Nat) : Nat := 65535 / (p - 1)

/-- `idx` of R181: the root index of value `v` on an axis of `p` points. -/
def rootIndex (v p : Nat) : Nat := min (p - 2) (v / blockSize p)

/-- `rem` of R181. -/
def rootRem (v p : Nat) : Nat := v - rootIndex v p * blockSize p

/-- `qdiv(a, b)` of R8. -/
def qdiv (mode : DivMode) (a b : Int) : Int :=
  match mode with
  | .trunc => Int.tdiv a b
  | .floor => Int.fdiv a b

/-- `lerp(lo, hi, m, d)` of R182, exact (R190). -/
def lerp (mode : DivMode) (lo hi : Int) (m d : Nat) : Int := lo + qdiv mode (m * (hi - lo)) d

/-- `crop(v)` of R11. -/
def crop (v : Int) : Int := min 65535 (max 0 v)

/-- A cropped value as a channel. -/
def cropChan (v : Int) : Chan := BitVec.ofNat 16 (crop v).toNat

/-! ### Mapping (R183 to R187) -/

/-- The linear index of lattice point (i, j, k) (R38, R183). -/
def latticeIndex (sh : LutShape) (i j k : Nat) : Nat := (i * sh.y + j) * sh.z + k

/-- `corner(di, dj, dk)` of R184: the index of the lattice entry. -/
def corner (sh : LutShape) (c : Color) (di dj dk : Nat) : Nat :=
  latticeIndex sh (rootIndex c.r.toNat sh.x + di) (rootIndex c.g.toNat sh.y + dj)
    (rootIndex c.b.toNat sh.z + dk)

/-- `Map3` of R184 for one output channel, before the crop; `lat e` is that channel of `Lat[e]`. -/
def map3Raw (mode : DivMode) (sh : LutShape) (lat : Nat → Int) (c : Color) : Int :=
  let a (dj dk : Nat) := lerp mode (lat (corner sh c 0 dj dk)) (lat (corner sh c 1 dj dk))
    (rootRem c.r.toNat sh.x) (blockSize sh.x)
  let b (dk : Nat) := lerp mode (a 0 dk) (a 1 dk) (rootRem c.g.toNat sh.y) (blockSize sh.y)
  lerp mode (b 0) (b 1) (rootRem c.b.toNat sh.z) (blockSize sh.z)

/-- `Map1` of R186 for one output channel with input `v`, before the crop. -/
def map1Raw (mode : DivMode) (sh : LutShape) (lat : Nat → Int) (v : Nat) : Int :=
  lerp mode (lat (rootIndex v sh.x)) (lat (rootIndex v sh.x + 1)) (rootRem v sh.x) (blockSize sh.x)

/-- Channel `n` of the lattice entries, as numbers. -/
def State.latticeInt (s : State) (n : Channel) (e : Nat) : Int := (s.latticeAt e n).toNat

/-- The colour an input colour is mapped to: `Map3` or `Map1` by LUT_CFG.MODE, cropped (R184 to R187, R192). -/
def State.mapColor (s : State) (c : Color) : Color :=
  let sh := lutShapeOf s.cfg
  colorOf fun n =>
    match sh.mode with
    | .threeD => cropChan (map3Raw s.params.divMode sh (s.latticeInt n) c)
    | .oneD => cropChan (map1Raw s.params.divMode sh (s.latticeInt n) (c.get n).toNat)

/-- The lattice channels a mapping reads: all three of the eight corners (R184), or channel n of two entries for
each n (R186). -/
def channelsRead (sh : LutShape) (c : Color) : List (Nat × Channel) :=
  match sh.mode with
  | .threeD =>
    [0, 1].flatMap fun di => [0, 1].flatMap fun dj => [0, 1].flatMap fun dk =>
      [Channel.red, .green, .blue].map fun n => (corner sh c di dj dk, n)
  | .oneD =>
    [Channel.red, .green, .blue].flatMap fun n =>
      [(rootIndex (c.get n).toNat sh.x, n), (rootIndex (c.get n).toNat sh.x + 1, n)]

/-- Every lattice channel the mapping of `c` reads has been written since reset (R46, R184, R186). -/
def State.latticeReady (s : State) (c : Color) : Bool :=
  (channelsRead (lutShapeOf s.cfg) c).all fun en => s.written en.1 en.2

/-! ### The Identity lattice (R188, R191) -/

/-- The entries LUT_IDENTITY writes, in the order of R191. -/
def identityEntries (sh : LutShape) : List (Nat × Color) :=
  match sh.mode with
  | .threeD =>
    (List.range sh.x).flatMap fun i => (List.range sh.y).flatMap fun j => (List.range sh.z).map fun k =>
      (latticeIndex sh i j k,
        ⟨BitVec.ofNat 16 (i * blockSize sh.x), BitVec.ofNat 16 (j * blockSize sh.y),
          BitVec.ofNat 16 (k * blockSize sh.z)⟩)
  | .oneD =>
    (List.range sh.x).map fun i =>
      let v := BitVec.ofNat 16 (i * blockSize sh.x)
      (i, ⟨v, v, v⟩)

/-! ### The commands -/

/-- The check of R189, made by every LUT command before any effect. -/
def State.lutReady (s : State) : Bool := lutValid s.params.lutCapacity (lutShapeOf s.cfg)

/-- `LutIdentity()` of R191. -/
def identityLattice (s : State) : Except ErrCode State :=
  if s.lutReady then .ok (s.putEntries (identityEntries (lutShapeOf s.cfg))) else .error .lutDim

/-- LUT_IDENTITY (R191). -/
def execLutIdentity (s : State) : Host.Outcome State Fault Refusal :=
  .next (s.conclude .empty (identityLattice s))

/-- `LutMapColor()` of R192. An unwritten lattice channel gives its free content and sets the mark of R46.
DESIGN CHOICE, log entry 7. -/
def mapInput (s : State) : Except ErrCode State :=
  if s.lutReady then
    .ok { s.markUninit (s.latticeReady s.cfg.input) with out := s.mapColor s.cfg.input }
  else .error .lutDim

/-- LUT_MAP_COLOR (R192). -/
def execLutMapColor (s : State) : Host.Outcome State Fault Refusal :=
  .next (s.conclude .empty (mapInput s))

/-- Pixel `p` of the source grid, mapped (R193). -/
def mapPixel (s : State) (p : Nat) : Except ErrCode Color :=
  match readPixel s (pixelAddr s.cfg.srcBase.toNat p) with
  | .error c => .error c
  | .ok c => .ok (s.mapColor c)

/-- The data phase of R193: every read is of the memory the command started with (R71, R74). DEDUCED,
log entry 2. -/
def mapImageData (s : State) : Except ErrCode State :=
  match forEach (mapPixel s) (List.range (imagePixels s.cfg)) with
  | .error c => .error c
  | .ok pixels => storeGrid s s.cfg.dstBase.toNat pixels

/-- No pixel that can be read needs an unwritten lattice channel (R184, R186). DEDUCED, log entry 2. -/
def imageReady (s : State) : Bool :=
  (List.range (imagePixels s.cfg)).all fun p =>
    match readPixel s (pixelAddr s.cfg.srcBase.toNat p) with
    | .error _ => true
    | .ok c => s.latticeReady c

/-- The checks of R193 that come before any access. -/
def mapImageCheck (s : State) : Except ErrCode Unit :=
  if s.lutReady = false then .error .lutDim
  else if ((imageSource s.cfg).fits && (imageDest s.cfg).fits) = false then .error .range
  else if (imageSource s.cfg).overlaps (imageDest s.cfg) then .error .overlap
  else .ok ()

/-- `LutMapImage()` of R193. -/
def mapImage (s : State) : State :=
  match mapImageCheck s with
  | .error c => s.raiseError (imageDest s.cfg) c
  | .ok () =>
    let t := s.markUninit (imageReady s)
    t.conclude (imageDest s.cfg) (mapImageData t)

/-- LUT_MAP_IMAGE (R193). -/
def execLutMapImage (s : State) : Host.Outcome State Fault Refusal := .next (mapImage s)

end Sys2Proof.Machine
end

