-- ==== Sys2Proof/Machine/RawDecoder.lean ====
section
/-! DEFINITION. The raw decoder unit: DECODE and DECODE_WRAPPED (41_decoder.md R146 to R158). -/

namespace Sys2Proof.Machine

/-! ### Unpacking (R146 to R148) -/

/-- The address of a sample's group: five bytes for each four samples of a row (R146). -/
def groupAddr (g : Geometry) (pb x y : Nat) : Nat := pb + y * rowStride g + 5 * (x / 4)

/-- `hiaddr(x, y)` of R146. -/
def hiAddr (g : Geometry) (pb x y : Nat) : Nat := groupAddr g pb x y + x % 4

/-- `loaddr(x, y)` of R146. -/
def loAddr (g : Geometry) (pb x y : Nat) : Nat := groupAddr g pb x y + 4

/-- The two least significant bits of lane `n` (R147). -/
def lowBits (order : LsbOrder) (n : Nat) (low : Byte) : Nat :=
  match order with
  | .lsbFirst => (low.toNat >>> (2 * n)) &&& 3
  | .msbFirst => (low.toNat >>> (6 - 2 * n)) &&& 3

/-- The 16-bit value of a sample in lane `n` (R148). -/
def sampleValue (order : LsbOrder) (n : Nat) (high low : Byte) : Nat :=
  ((high.toNat <<< 2) ||| lowBits order n low) <<< 6

/-- `S(x, y)` of R148, read from memory. -/
def readSample (s : State) (g : Geometry) (pb x y : Nat) : Except ErrCode Nat :=
  match memRead8 s (hiAddr g pb x y), memRead8 s (loAddr g pb x y) with
  | .ok hi, .ok lo => .ok (sampleValue s.params.lsbOrder (x % 4) hi lo)
  | .error c, _ => .error c
  | _, .error c => .error c

/-! ### Demosaic (R149 to R151) -/

/-- The output pixel of a quad: red = y1x1, green the truncated average of y0x1 and y1x0, blue = y0x0. -/
def quadPixel (y0x0 y0x1 y1x0 y1x1 : Nat) : Color :=
  ⟨BitVec.ofNat 16 y1x1, BitVec.ofNat 16 ((y0x1 + y1x0) >>> 1), BitVec.ofNat 16 y0x0⟩

/-- Output pixel (ox, oy) (R149). -/
def decodePixel (s : State) (g : Geometry) (pb ox oy : Nat) : Except ErrCode Color :=
  match readSample s g pb (2 * ox) (2 * oy), readSample s g pb (2 * ox + 1) (2 * oy),
      readSample s g pb (2 * ox) (2 * oy + 1), readSample s g pb (2 * ox + 1) (2 * oy + 1) with
  | .ok a, .ok b, .ok c, .ok d => .ok (quadPixel a b c d)
  | .error c, _, _, _ => .error c
  | _, .error c, _, _ => .error c
  | _, _, .error c, _ => .error c
  | _, _, _, .error c => .error c

/-- The pixels of the output grid, row-major: pixel number `p` is (p mod OW, p div OW) (R70, R154). -/
def decodePixels (s : State) (g : Geometry) (pb : Nat) : Except ErrCode (List Color) :=
  forEach (fun p => decodePixel s g pb (p % outWidth g) (p / outWidth g))
    (List.range (outWidth g * outHeight g))

/-! ### The payload's place (R155, R157, R158) -/

/-- `CheckBare` of R155: the payload base, or ERR_SIZE. -/
def checkBare (r : ConfigRegs) : Except ErrCode Nat :=
  if r.srcLen.toNat = expectedLength (geometryOf r) then .ok r.srcBase.toNat else .error .size

/-- Byte `k` of the marker: `MAGIC[8k+7:8k]` (R30). -/
def magicByte (r : ConfigRegs) (k : Nat) : Byte := r.magic.extractLsb' (8 * k) 8

/-- `CheckMagic(MA)` of R158: the bytes `ks` of the marker are compared in order, the first bus error or mismatch
ends the check. -/
def checkMagic (s : State) (ma : Nat) : List Nat → Except ErrCode Unit
  | [] => .ok ()
  | k :: ks =>
    match memRead8 s (ma + k) with
    | .error c => .error c
    | .ok b => if b = magicByte s.cfg k then checkMagic s ma ks else .error .magic

/-- `CheckWrapped` of R157: the payload base, or the error. -/
def checkWrapped (s : State) : Except ErrCode Nat :=
  let el := expectedLength (geometryOf s.cfg)
  let hs := s.cfg.hdrSkip.toNat
  let sb := s.cfg.srcBase.toNat
  let sl := s.cfg.srcLen.toNat
  if sl < el + hs + 4 then .error .size
  else match checkMagic s (sb + sl - el - hs - 4) [0, 1, 2, 3] with
    | .error c => .error c
    | .ok () => .ok (sb + sl - el)

/-! ### The commands (R154, R156) -/

/-- The data phase of R154 for a payload at `pb`: every read is of the memory the command started with, since
the source and the destination do not overlap (R71, R74). DEDUCED, log entry 2. -/
def decodeData (s : State) (pb : Nat) : Except ErrCode State :=
  match decodePixels s (geometryOf s.cfg) pb with
  | .error c => .error c
  | .ok pixels => storeGrid s s.cfg.dstBase.toNat pixels

/-- `Decode(wrapped)` of R154. -/
def decodeFrame (wrapped : Bool) (s : State) : Except ErrCode State :=
  if geometryValid (geometryOf s.cfg) = false then .error .config
  else if ((frameRange s.cfg).fits && (decodedRange s.cfg).fits) = false then .error .range
  else if (frameRange s.cfg).overlaps (decodedRange s.cfg) then .error .overlap
  else match (if wrapped then checkWrapped s else checkBare s.cfg) with
    | .error c => .error c
    | .ok pb => decodeData s pb

/-- DECODE (R154). -/
def execDecode (s : State) : Host.Outcome State Fault Refusal :=
  .next (s.conclude (decodedRange s.cfg) (decodeFrame false s))

/-- DECODE_WRAPPED (R156). -/
def execDecodeWrapped (s : State) : Host.Outcome State Fault Refusal :=
  .next (s.conclude (decodedRange s.cfg) (decodeFrame true s))

end Sys2Proof.Machine
end

