-- ==== Sys2Proof/Machine/Dispatch.lean ====
section
/-! DEFINITION. Which meaning each command has: the case split of `EnginePerform` (R124). -/

namespace Sys2Proof.Machine

/-- The whole command as one atomic step, its completion included (R124, R125). -/
def exec (i : Instr) (s : State) : Host.Outcome State Fault Refusal :=
  match i with
  | .decode => Sys2Proof.Machine.execDecode s
  | .decodeWrapped => Sys2Proof.Machine.execDecodeWrapped s
  | .lutIdentity => Sys2Proof.Machine.execLutIdentity s
  | .lutMapColor => Sys2Proof.Machine.execLutMapColor s
  | .lutMapImage => Sys2Proof.Machine.execLutMapImage s

end Sys2Proof.Machine
end

