-- ==== Sys2Proof/Machine/HostPort.lean ====
section
/-! DEFINITION. The host's side of the block: register writes and reads (40_host_interface.md R110 to R123),
buffer-memory accesses (R126, R267), reset (70_reset_and_hazards.md R260 to R262) and the notation of host programs
(30_encoding.md R97, R98). -/

namespace Sys2Proof.Machine

/-! ### Register writes -/

/-- A register the busy-drop rule leaves writable (R113). -/
def writableWhileBusy (r : Option Reg) : Bool := r == some .ctrl || r == some .status

/-- Store into a plain configuration register the bits it implements (R118); any other register is left as it
is (R119). -/
def writeConfig (c : ConfigRegs) (r : Reg) (d : Word) : ConfigRegs :=
  match r with
  | .srcBase => { c with srcBase := d }
  | .srcLen  => { c with srcLen := d }
  | .dstBase => { c with dstBase := d }
  | .geomW   => { c with geomW := d }
  | .geomH   => { c with geomH := d }
  | .align   => { c with align := d }
  | .magic   => { c with magic := d }
  | .hdrSkip => { c with hdrSkip := d }
  | .lutCfg  => { c with lutCfg := d.setWidth 25 }
  | .lutIdx  => { c with lutIdx := d.setWidth 24 }
  | .input .red   => { c with input := { c.input with r := d.setWidth 16 } }
  | .input .green => { c with input := { c.input with g := d.setWidth 16 } }
  | .input .blue  => { c with input := { c.input with b := d.setWidth 16 } }
  | .imgDim  => { c with imgDim := d }
  | .id | .ctrl | .status | .cmd | .expLen | .outDim | .lutWindow _ | .output _ => c

/-- The command whose word is `w` is accepted (R116); the host may not touch its ranges until it has observed the
completion (R267). While it is pending OUT_R/G/B read the last successful result, observed or not (R111, R123). -/
def State.accept (s : State) (w : Word) : State :=
  { s with
    eng     := .pending w
    status  := acceptStatus s.status
    guarded := (wordRanges s.cfg w).1 :: (wordRanges s.cfg w).2 :: s.guarded
    outSeen := s.out }

/-- A write of channel `n` of the entry LUT_IDX addresses (R120). -/
def State.writeWindow (s : State) (n : Channel) (d : Word) : State :=
  if s.cfg.lutIdx.toNat < s.params.lutCapacity then s.putChannel s.cfg.lutIdx.toNat n (d.setWidth 16) else s

/-- The effect of a register write that is not dropped: the case split of R110. -/
def State.storeReg (s : State) (r : Option Reg) (d : Word) : State :=
  match r with
  | none => s
  | some .ctrl => { s with irqEn := d.getLsbD 0 }.observeIrq
  | some .status => { s with status := acknowledge s.status d }
  | some .cmd => s.accept d
  | some (.lutWindow n) => s.writeWindow n d
  | some r => { s with cfg := writeConfig s.cfg r d }

/-- `HostWrite(off, d)` of R110 at an aligned offset whose register is `r`, `none` for a reserved one: the busy-drop
rule of R113 comes first. -/
def State.writeReg (s : State) (r : Option Reg) (d : Word) : State :=
  if s.status.busy && !writableWhileBusy r then { s with status := { s.status with busyWr := true } }
  else s.storeReg r d

/-! ### Register reads -/

/-- What `RD EXP_LEN` returns (R35, R122). -/
def expLenValue (r : ConfigRegs) : Word :=
  if geometryValid (geometryOf r) then BitVec.ofNat 32 (expectedLength (geometryOf r)) else 0

/-- What `RD OUT_DIM` returns: OH in bits [31:16], OW in bits [15:0] (R36, R122). -/
def outDimValue (r : ConfigRegs) : Word :=
  if geometryValid (geometryOf r) then
    BitVec.ofNat 16 (outHeight (geometryOf r)) ++ BitVec.ofNat 16 (outWidth (geometryOf r))
  else 0

/-- A LUT window read returns a lattice channel: not while busy, and not beyond the capacity (R121). -/
def State.windowOpen (s : State) : Bool :=
  !s.status.busy && s.cfg.lutIdx.toNat < s.params.lutCapacity

/-- `HostRead(off)` of R111 at an aligned offset whose register is `r`, `none` for a reserved one. OUT_R/G/B
read the last successful result while a command is pending, and after it has ended the same until the host has observed
the completion (R111, R123, R269). DEDUCED, log entry 16. -/
def State.readReg (s : State) (r : Option Reg) : Word :=
  match r with
  | none => 0
  | some .id => 0x52424431
  | some .ctrl => ctrlWord s.irqEn
  | some .status => statusWord s.status
  | some .cmd => 0
  | some .srcBase => s.cfg.srcBase
  | some .srcLen => s.cfg.srcLen
  | some .dstBase => s.cfg.dstBase
  | some .geomW => s.cfg.geomW
  | some .geomH => s.cfg.geomH
  | some .align => s.cfg.align
  | some .magic => s.cfg.magic
  | some .hdrSkip => s.cfg.hdrSkip
  | some .expLen => expLenValue s.cfg
  | some .outDim => outDimValue s.cfg
  | some .lutCfg => s.cfg.lutCfg.setWidth 32
  | some .lutIdx => s.cfg.lutIdx.setWidth 32
  | some (.lutWindow n) => if s.windowOpen then (s.latticeAt s.cfg.lutIdx.toNat n).setWidth 32 else 0
  | some (.input n) => (s.cfg.input.get n).setWidth 32
  | some (.output n) => (s.outSeen.get n).setWidth 32
  | some .imgDim => s.cfg.imgDim

/-- A read of the register returns no lattice channel that is unwritten (R46, R121). -/
def State.readIsWritten (s : State) (r : Option Reg) : Bool :=
  match r with
  | some (.lutWindow n) => !s.windowOpen || s.written s.cfg.lutIdx.toNat n
  | _ => true

/-- What a register read does to the host's knowledge: its data is recorded, and a read of STATUS with BUSY = 0
observes completion (R75 item 2), after which OUT_R/G/B show their results (R269). The block's registers are
unchanged (R69), as is all else of it but for the mark of R46. -/
def State.hostRead (s : State) (off : Nat) (r : Option Reg) : State :=
  let t := (s.markUninit (s.readIsWritten r)).recordObs (.reg off (s.readReg r))
  if r == some .status && !s.status.busy then t.observeCompletion else t

/-! ### Register accesses on the bus -/

/-- A bus write to the register space (R110, R112). -/
def busWrite (s : State) (off : Nat) (size : AccessSize) (d : Word) : Host.Outcome State Fault Refusal :=
  if 0x100 ≤ off then .fault .outsideRegisterFile
  else if accessWellFormed off size then .next (s.writeReg (regAt off) d)
  else .next s.markRefused

/-- A bus read of the register space (R111, R112). -/
def busRead (s : State) (off : Nat) (size : AccessSize) : Host.Outcome State Fault Refusal :=
  if 0x100 ≤ off then .fault .outsideRegisterFile
  else if accessWellFormed off size then .next (s.hostRead off (regAt off))
  else .next s.markRefused

/-! ### Buffer memory accesses by the host (R126, R267) -/

/-- The next free byte (93 U4). -/
def State.nextFreeByte (s : State) : Byte := Config.freeByte s.draws

/-- A host byte write to a guarded byte: HOST_HAZARD. The byte is unspecified afterwards, and while the command is
pending so is what the engine reads or leaves there (R267). -/
def State.hazardWrite (s : State) (a : Nat) : State :=
  let t := (s.scrub [a]).markFault .hostHazard
  if s.status.busy then { t with raced := a :: s.raced } else t

/-- A host byte read of a guarded byte: HOST_HAZARD, and the data is unspecified (R267). -/
def State.hazardRead (s : State) (a : Nat) : State :=
  ({ s with draws := s.draws + 1 }.recordObs (.mem a s.nextFreeByte)).markFault .hostHazard

/-- One byte of `MEMW`. A host access that hits the register space is a register access (R61), and one of a byte
is refused (R112). DEDUCED, log entry 11. -/
def hostMemWrite (s : State) (a : Nat) (v : Byte) : Host.Outcome State Fault Refusal :=
  if s.params.inRegSpace a then .next s.markRefused
  else if memBytes ≤ a then .fault .outsideBufferMemory
  else if s.isGuarded a then .next (s.hazardWrite a)
  else .next (s.putByte a v)

/-- One byte of `MEMR`. DEDUCED, log entry 11. -/
def hostMemRead (s : State) (a : Nat) : Host.Outcome State Fault Refusal :=
  if s.params.inRegSpace a then .next s.markRefused
  else if memBytes ≤ a then .fault .outsideBufferMemory
  else if s.isGuarded a then .next (s.hazardRead a)
  else .next (s.recordObs (.mem a (byteAt s.mem a)))

/-! ### Reset (R260 to R262) -/

/-- The memory after reset is as before, but for the destination range of an abandoned command (R262). -/
def State.abandon (s : State) : State :=
  match s.eng with
  | .idle => s
  | .pending w => s.scrub (wordRanges s.cfg w).2.addresses

/-- The reset input: every register and internal state takes its value of R48, the lattice contents become
unspecified (R261), a pending command is abandoned (R262). The marks of R46 are "never cleared, not even by
reset". DESIGN CHOICE, log entry 13. -/
def State.resetBlock (s : State) : State :=
  { s.abandon with
    irqEn   := false
    status  := Status.reset
    cfg     := ConfigRegs.reset
    out     := blackColor
    outSeen := blackColor
    lattice := []
    eng     := .idle
    resets  := s.resets + 1
    guarded := []
    raced   := [] }

/-! ### The host's next operation -/

/-- Perform one host operation on a state in which it has been taken off the host's list. -/
def hostOp (op : HostOp) (s : State) : Host.Outcome State Fault Refusal :=
  match op with
  | .write off size d => busWrite s off size d
  | .read off size => busRead s off size
  | .poll => busRead s (offsetOf .status) 4
  | .memWrite a v => hostMemWrite s a v
  | .memRead a => hostMemRead s a
  | .reset => .next s.resetBlock

/-- The host performs its next operation. `POLL` stays on the list while BUSY reads 1 (R97). -/
def hostMove (s : State) : Host.Outcome State Fault Refusal :=
  match s.host with
  | [] => .next s
  | op :: rest => hostOp op (if op == .poll && s.status.busy then s else { s with host := rest })

/-! ### Host-program notation (R97, R98) -/

/-- `WR <REG>, <value>`. -/
def opWR (r : Reg) (v : Word) : HostOp := .write (offsetOf r) 4 v

/-- `RD <REG>`. -/
def opRD (r : Reg) : HostOp := .read (offsetOf r) 4

/-- `MEMW <addr>, <b0> <b1> ...`: one write per byte. -/
def opsMEMW (a : Nat) : List Byte → List HostOp
  | [] => []
  | b :: bs => .memWrite a b :: opsMEMW (a + 1) bs

/-- `MEMR <addr>, <n>`: one read per byte. -/
def opsMEMR (a : Nat) : Nat → List HostOp
  | 0 => []
  | n + 1 => .memRead a :: opsMEMR (a + 1) n

/-- `ISSUE <MNEMONIC>`. -/
def opISSUE (i : Instr) : HostOp := opWR .cmd (encode i)

/-- `RUN <MNEMONIC>`. -/
def opsRUN (i : Instr) : List HostOp := [opISSUE i, .poll]

/-- `ACK`. -/
def opACK : HostOp := opWR .status 0x00000006

/-- `LATW <e>, <r>, <g>, <b>`. -/
def opsLATW (e r g b : Word) : List HostOp :=
  [opWR .lutIdx e, opWR (.lutWindow .red) r, opWR (.lutWindow .green) g, opWR (.lutWindow .blue) b]

/-- `CFG3D <X>, <Y>, <Z>`. -/
def opCFG3D (x y z : Nat) : HostOp := opWR .lutCfg (BitVec.ofNat 32 ((z <<< 16) ||| (y <<< 8) ||| x))

/-- `CFG1D <X>`. -/
def opCFG1D (x : Nat) : HostOp := opWR .lutCfg (BitVec.ofNat 32 ((1 <<< 24) ||| x))

end Sys2Proof.Machine
end

