-- ==== Sys2Proof/Machine/Engine.lean ====
section
/-! DEFINITION. The engine step (40_host_interface.md R124) and which agent moves next (R128). -/

namespace Sys2Proof.Machine

/-- The bytes the host raced on hold unspecified values, before the command reads them and after it has ended
(R267); without a hazard this changes nothing. DESIGN CHOICE, log entry 8. -/
def State.scrubRaced (s : State) : State := s.scrub s.raced

/-- After the command has ended nothing races with it. -/
def State.settleRaced (s : State) : State := { s.scrubRaced with raced := [] }

/-- Settle the races in the state a command ends in. -/
def settle (o : Host.Outcome State Fault Refusal) : Host.Outcome State Fault Refusal :=
  match o with
  | .next t => .next t.settleRaced
  | .fault f => .fault f
  | .refused r => .refused r

/-- `EnginePerform()` of R124 for the accepted word: an illegal one completes with ERR_ILLEGAL and no other
effect (R95). -/
def performWord (w : Word) (s : State) : Host.Outcome State Fault Refusal :=
  match decodeWord w with
  | .error _ => .next (s.raiseError .empty .illegal)
  | .ok i => exec i s

/-- The engine step; an idle engine has none (R124). -/
def enginePerform (s : State) : Host.Outcome State Fault Refusal :=
  match s.eng with
  | .idle => .next s
  | .pending w => settle (performWord w s.scrubRaced)

/-- The agent that moves next. The engine can move while a command is pending, the host while it has an operation
left; when both can, `State.turns` says which, and the engine when it says nothing (R128). DESIGN CHOICE, log
entry 4. -/
def nextAgent (s : State) : Option Agent :=
  match s.eng, s.host with
  | .idle, [] => none
  | .idle, _ :: _ => some .host
  | .pending _, [] => some .engine
  | .pending _, _ :: _ => some (s.turns.headD .engine)

/-- A choice between two agents that can both move uses up one entry of `State.turns`. -/
def State.spendTurn (s : State) : State :=
  match s.eng, s.host with
  | .pending _, _ :: _ => { s with turns := s.turns.tail }
  | _, _ => s

end Sys2Proof.Machine
end

