-- ==== Sys2Proof/Machine/Step.lean ====
section
/-! DEFINITION. One step of the machine: one atomic move of the host or of the engine (00_scope.md R5;
40_host_interface.md R124), and where a command stands that the next step performs. -/

namespace Sys2Proof.Machine

/-- One move of the agent whose turn it is; with nothing pending and nothing to do the machine stays as it is. -/
def step (s : State) : Host.Outcome State Fault Refusal :=
  match nextAgent s with
  | none => .next s
  | some .engine => enginePerform s.spendTurn
  | some .host => hostMove s.spendTurn

/-- `s` with the command word accepted (R116) and the engine to move: a command is fetched from no memory, it is
latched at the CMD write (R79). Log entry 9. -/
def State.withFetchWord (s : State) (nbits w : Nat) : State :=
  { s.accept (BitVec.ofNat 32 (w % 2 ^ nbits)) with turns := [] }

end Sys2Proof.Machine
end

