-- ==== Sys2Proof/Safety.lean ====
section
/-! DEFINITION. What counts as a run with a meaning (40_host_interface.md R127), the invariant of the machine, and
the terms the claims are written in. -/

namespace Sys2Proof.Machine

/-- Neither mark of R46 is set: "a run in which `faulted` or `refused` is set has no meaning and satisfies no
claim" (R127). -/
def State.unmarked (s : State) : Bool := s.faulted.isNone && !s.refused

/-- The end of a run: the host has performed its last operation, the engine is IDLE, and no mark is set (R127). -/
def State.final (s : State) : Bool := s.host.isEmpty && s.eng == .idle && s.unmarked

/-- What every step keeps: the engine is PENDING exactly when BUSY = 1 (R45); BUSY = 1 implies DONE = 0 (R25), ERR = 0
(R269) and that the host reads the last successful result in OUT_R/G/B (R111, R123); memory and lattice are in canonical form; no race is remembered while the block is idle; the capacity
keeps its constraint (R6). -/
structure State.Inv (s : State) : Prop where
  pending_iff_busy : (∃ w, s.eng = .pending w) ↔ s.status.busy = true
  busy_not_done    : s.status.busy = true → s.status.done = false
  busy_err_zero    : s.status.busy = true → s.status.err = .ok
  busy_shows_out   : s.status.busy = true → s.outSeen = s.out
  mem_wf           : Memory.wf s.mem = true
  lattice_wf       : Lattice.wf s.params.lutCapacity s.lattice = true
  raced_in_memory  : ∀ a ∈ s.raced, a < memBytes
  idle_not_raced   : s.status.busy = false → s.raced = []
  params_wf        : s.params.wellFormed = true

/-- What no command ever changes: the parameters, CTRL, the configuration registers, BUSY_WR, the number of resets,
the `refused` mark, and the host's side. -/
structure KeepsHostSide (s t : State) : Prop where
  params   : t.params = s.params
  irqEn    : t.irqEn = s.irqEn
  cfg      : t.cfg = s.cfg
  busyWr   : t.status.busyWr = s.status.busyWr
  resets   : t.resets = s.resets
  refused  : t.refused = s.refused
  raced    : t.raced = s.raced
  host     : t.host = s.host
  turns    : t.turns = s.turns
  observed : t.observed = s.observed

/-- The command has ended with a code: STATUS and the engine are as R125 leaves them. -/
structure EndsWith (t : State) (code : ErrCode) : Prop where
  busy : t.status.busy = false
  done : t.status.done = true
  err  : t.status.err = code
  idle : t.eng = .idle

/-- The codes a command can report (the "raised by" column of R230; R235). -/
def reportable : Instr → List ErrCode
  | .decode => [.ok, .config, .range, .overlap, .size, .bus]
  | .decodeWrapped => [.ok, .config, .range, .overlap, .size, .magic, .bus]
  | .lutIdentity => [.ok, .lutDim]
  | .lutMapColor => [.ok, .lutDim]
  | .lutMapImage => [.ok, .lutDim, .range, .overlap, .bus]

/-- Every byte outside a range reads after as it read before. -/
def SameOutside (s t : State) (r : AddrRange) : Prop :=
  ∀ a, r.contains a = false → byteAt t.mem a = byteAt s.mem a

/-- Every byte of memory reads after as it read before. -/
def SameMemory (s t : State) : Prop := ∀ a, byteAt t.mem a = byteAt s.mem a

/-- The six bytes of a pixel at an address: three 16-bit big-endian channels, red first (R70). -/
structure HoldsPixel (m : List Host.Cell) (a : Nat) (c : Color) : Prop where
  redHigh   : byteAt m a = c.r.extractLsb' 8 8
  redLow    : byteAt m (a + 1) = c.r.extractLsb' 0 8
  greenHigh : byteAt m (a + 2) = c.g.extractLsb' 8 8
  greenLow  : byteAt m (a + 3) = c.g.extractLsb' 0 8
  blueHigh  : byteAt m (a + 4) = c.b.extractLsb' 8 8
  blueLow   : byteAt m (a + 5) = c.b.extractLsb' 0 8

/-- The platform admits every byte of a range (R62). -/
def RangeAdmitted (s : State) (r : AddrRange) : Prop := ∀ a, r.contains a = true → s.params.admits a = true

/-- The platform admits the high byte of every active sample and the low byte of its group, for a payload at `pb`:
the bytes R153 says a decode reads. -/
def PayloadAdmitted (s : State) (pb : Nat) : Prop :=
  ∀ x y, x < (geometryOf s.cfg).w → y < (geometryOf s.cfg).h →
    s.params.admits (hiAddr (geometryOf s.cfg) pb x y) = true ∧
    s.params.admits (loAddr (geometryOf s.cfg) pb x y) = true

/-- Sample (x, y) of a payload at `pb` as memory holds it (R148). -/
def State.sample (s : State) (pb x y : Nat) : Nat :=
  sampleValue s.params.lsbOrder (x % 4) (byteAt s.mem (hiAddr (geometryOf s.cfg) pb x y))
    (byteAt s.mem (loAddr (geometryOf s.cfg) pb x y))

/-- Output pixel (ox, oy) of a payload at `pb` (R149 to R151). -/
def State.demosaiced (s : State) (pb ox oy : Nat) : Color :=
  ⟨BitVec.ofNat 16 (s.sample pb (2 * ox + 1) (2 * oy + 1)),
   BitVec.ofNat 16 ((s.sample pb (2 * ox + 1) (2 * oy) + s.sample pb (2 * ox) (2 * oy + 1)) / 2),
   BitVec.ofNat 16 (s.sample pb (2 * ox) (2 * oy))⟩

/-- The checks DECODE and DECODE_WRAPPED share pass: configuration, range and overlap (R154). -/
structure FrameChecksPass (s : State) : Prop where
  valid      : geometryValid (geometryOf s.cfg) = true
  sourceFits : (frameRange s.cfg).fits = true
  destFits   : (decodedRange s.cfg).fits = true
  disjoint   : (frameRange s.cfg).overlaps (decodedRange s.cfg) = false

/-- The address of magic byte 0 (R157). -/
def State.magicAddr (s : State) : Nat :=
  s.cfg.srcBase.toNat + s.cfg.srcLen.toNat - expectedLength (geometryOf s.cfg) - s.cfg.hdrSkip.toNat - 4

/-- The payload base of a wrapped buffer: the payload is its last EXP_LEN bytes (R157). -/
def State.wrappedPayload (s : State) : Nat :=
  s.cfg.srcBase.toNat + s.cfg.srcLen.toNat - expectedLength (geometryOf s.cfg)

/-- A wrapped buffer is long enough (R157). -/
def State.wrappedLongEnough (s : State) : Prop :=
  expectedLength (geometryOf s.cfg) + s.cfg.hdrSkip.toNat + 4 ≤ s.cfg.srcLen.toNat

/-- Byte `k` of the marker is admitted and equals its byte of MAGIC (R158). -/
def State.markerByteOk (s : State) (k : Nat) : Prop :=
  s.params.admits (s.magicAddr + k) = true ∧
  byteAt s.mem (s.magicAddr + k) = s.cfg.magic.extractLsb' (8 * k) 8

/-- The mapping of a colour reads a lattice channel that has not been written since reset: any channel of the eight
corners in 3-D mode (R184), channel n of the two entries of channel n's axis interval in 1-D mode (R186). -/
def State.ReadsUnwritten (s : State) (c : Color) : Prop :=
  match (lutShapeOf s.cfg).mode with
  | .threeD => ∃ di dj dk n, di < 2 ∧ dj < 2 ∧ dk < 2 ∧ s.written (corner (lutShapeOf s.cfg) c di dj dk) n = false
  | .oneD => ∃ n d, d < 2 ∧ s.written (rootIndex (c.get n).toNat (lutShapeOf s.cfg).x + d) n = false

/-- Pixel `p` of LUT_MAP_IMAGE's source grid can be read, and is `c` (R62, R70, R193). -/
structure State.SourcePixel (s : State) (p : Nat) (c : Color) : Prop where
  inGrid   : p < imagePixels s.cfg
  holds    : HoldsPixel s.mem (s.cfg.srcBase.toNat + 6 * p) c
  admitted : ∀ k, k < 6 → s.params.admits (s.cfg.srcBase.toNat + 6 * p + k) = true

/-- The host's next operation is a read of STATUS with BUSY = 0, an observation of completion (R75 item 2), or the
reset input (R260). -/
def State.hostObservesOrResets (s : State) : Prop :=
  s.host.head? = some .reset ∨
  (s.status.busy = false ∧ (s.host.head? = some .poll ∨ s.host.head? = some (.read 0x008 4)))

/-- The checks of LUT_MAP_IMAGE pass (R193). -/
structure ImageChecksPass (s : State) : Prop where
  lutReady   : s.lutReady = true
  sourceFits : (imageSource s.cfg).fits = true
  destFits   : (imageDest s.cfg).fits = true
  disjoint   : (imageSource s.cfg).overlaps (imageDest s.cfg) = false

end Sys2Proof.Machine
end

