-- ==== Sys2Proof/Certificates/Slice0/Obligations.lean ====
section
/-! DEFINITION. The statements for the provers. Each docstring names the rules of spec/ it formalises, and the log
entries of notes/assumptions/ where it rests on a choice of the model. -/

open Sys2Proof Sys2Proof.Machine

/-! ## Encoding (30_encoding.md) -/

/-- R92: the word of each command, read by the decoder, is that command, and its fields are the command's opcode
and RSVD = 0. -/
def Obligations.EncodedCommandsDecode : Prop :=
  ∀ i : Instr, i.wellFormed = true →
    decodeWord (encode i) = .ok i ∧ fieldsOf (encode i) = ⟨i.opcode, 0⟩

/-- R92: the only word that selects a command is its word in the table. -/
def Obligations.OnlyTheFiveWordsDecode : Prop :=
  ∀ (w : Word) (i : Instr), decodeWord w = .ok i ↔ w = encode i

/-- R91, R92, R95: the total decoding of a CMD word, case by case, as R96 infers it from them. -/
def Obligations.CommandDecodingIsTotal : Prop :=
  ∀ w : Word,
    (w.extractLsb' 8 24 ≠ 0 → ∃ e, decodeWord w = .error e) ∧
    (w.extractLsb' 8 24 = 0 →
      (w.extractLsb' 0 8 = 0x01 → decodeWord w = .ok .decode) ∧
      (w.extractLsb' 0 8 = 0x02 → decodeWord w = .ok .decodeWrapped) ∧
      (w.extractLsb' 0 8 = 0x10 → decodeWord w = .ok .lutIdentity) ∧
      (w.extractLsb' 0 8 = 0x11 → decodeWord w = .ok .lutMapColor) ∧
      (w.extractLsb' 0 8 = 0x12 → decodeWord w = .ok .lutMapImage) ∧
      ((∀ i : Instr, w.extractLsb' 0 8 ≠ i.opcode) → ∃ e, decodeWord w = .error e))

/-- R92, 95_test_vectors.md 2.5: the five words and some illegal ones, written out. -/
def Obligations.SampleWordsDecodeRight : Prop :=
  decodeWord 0x00000001 = .ok .decode ∧ decodeWord 0x00000002 = .ok .decodeWrapped ∧
  decodeWord 0x00000010 = .ok .lutIdentity ∧ decodeWord 0x00000011 = .ok .lutMapColor ∧
  decodeWord 0x00000012 = .ok .lutMapImage ∧
  decodeWord 0x00000000 = .error .undefinedOpcode ∧ decodeWord 0x00000013 = .error .undefinedOpcode ∧
  decodeWord 0x00000101 = .error .reservedBits ∧ decodeWord 0x80000011 = .error .reservedBits

/-- R20, R44: every register of the map stands at its offset, and every other offset names none. -/
def Obligations.RegisterMapHasOneOffsetEach : Prop :=
  ∀ (off : Nat) (r : Reg), regAt off = some r ↔ off = offsetOf r

/-! ## The step and the command lifecycle (40_host_interface.md) -/

/-- R124: where the engine moves, one step is the performance of the accepted word: `exec` of the command it decodes to.
Around it the step spends the turn that let the engine move (log entry 4), and gives the bytes the host raced on free
values before and after (log entries 6, 8); with no race there is nothing else. -/
def Obligations.StepRunsTheDecodedCommand : Prop :=
  ∀ (s : State) (w : Word), s.eng = .pending w → nextAgent s = some .engine →
    (∀ i, decodeWord w = .ok i →
      step s = settle (exec i s.spendTurn.scrubRaced) ∧ (s.raced = [] → step s = exec i s.spendTurn)) ∧
    (∀ e, decodeWord w = .error e →
      step s = settle (performWord w s.spendTurn.scrubRaced) ∧ (s.raced = [] → step s = performWord w s.spendTurn))

/-- R95: a word is illegal when its OPCODE is none of the five or RSVD ≠ 0; it is "accepted like any other" and
"completes with ERR_ILLEGAL and no other effect". -/
def Obligations.IllegalWordHasNoOtherEffect : Prop :=
  ∀ (s : State) (w : Word),
    (w.extractLsb' 0 8 ∉ [0x01#8, 0x02#8, 0x10#8, 0x11#8, 0x12#8] ∨ w.extractLsb' 8 24 ≠ 0) →
    (s.status.busy = false → ∃ t, busWrite s 0x00C 4 w = .next t ∧ t.eng = .pending w ∧
      t.status = ⟨true, false, s.status.busyWr, .ok⟩) ∧
    (∃ t, performWord w s = .next t ∧ EndsWith t .illegal ∧ KeepsHostSide s t ∧
      t.lattice = s.lattice ∧ t.out = s.out ∧ t.mem = s.mem ∧ t.draws = s.draws ∧ t.faulted = s.faulted)

/-- R116: a CMD write while idle latches the word, sets BUSY, clears DONE and ERR, and leaves BUSY_WR and everything
else; an illegal word is accepted like any other. (`guarded` and `outSeen` are the model's own
records for R267, and for R111 and R123; see HostHazardIsMarked and ResultsShowOnceObserved.) -/
def Obligations.CmdWriteWhileIdleIsAccepted : Prop :=
  ∀ (s : State) (w : Word), s.status.busy = false →
    ∃ t, busWrite s 0x00C 4 w = .next t ∧
      t = { s with
        eng     := .pending w
        status  := ⟨true, false, s.status.busyWr, .ok⟩
        guarded := t.guarded
        outSeen := t.outSeen }

/-- R113, R117: while BUSY = 1 a write to any offset but CTRL and STATUS changes nothing and sets BUSY_WR; those two
take effect normally. (`guarded` and `outSeen` are the model's own records of what the host has observed; what becomes of
them is said in HostHazardIsMarked and ResultsShowOnceObserved.) -/
def Obligations.WritesWhileBusyAreDropped : Prop :=
  ∀ (s : State) (off : Nat) (d : Word), s.status.busy = true → off < 0x100 → off % 4 = 0 →
    (off ≠ 0x004 → off ≠ 0x008 →
      busWrite s off 4 d = .next { s with status := { s.status with busyWr := true } }) ∧
    (off = 0x004 → ∃ t, busWrite s off 4 d = .next t ∧
      t = { s with irqEn := d.getLsbD 0, guarded := t.guarded, outSeen := t.outSeen }) ∧
    (off = 0x008 → busWrite s off 4 d =
      .next { s with status :=
        { s.status with
          done   := s.status.done && !(d.getLsbD 1)
          busyWr := s.status.busyWr && !(d.getLsbD 2) } })

/-- R114: a CTRL write sets IRQ_EN to bit 0 and nothing else, and irq is at once `d[0] ∧ DONE`; allowed while busy.
(`guarded` and `outSeen` are the model's own records of what the host has observed; what becomes of them is said in
HostHazardIsMarked and ResultsShowOnceObserved.) -/
def Obligations.CtrlWriteSetsIrqEnable : Prop :=
  ∀ (s : State) (d : Word), ∃ t, busWrite s 0x004 4 d = .next t ∧
    t = { s with irqEn := d.getLsbD 0, guarded := t.guarded, outSeen := t.outSeen } ∧
    t.irq = (d.getLsbD 0 && s.status.done)

/-- R115: a STATUS write clears DONE where bit 1 is 1 and BUSY_WR where bit 2 is 1, and changes nothing else. -/
def Obligations.StatusWriteAcknowledges : Prop :=
  ∀ (s : State) (d : Word),
    busWrite s 0x008 4 d =
      .next { s with status :=
        { s.status with
          done   := if d.getLsbD 1 then false else s.status.done
          busyWr := if d.getLsbD 2 then false else s.status.busyWr } }

/-- R124, R125: every command, performed in any state, ends: BUSY is cleared, DONE set, one code reported, the engine
IDLE, and nothing on the host's side has changed. OUT_R/G/B show a new result at once where the irq that rises makes the
host observe the completion (R75; log entries 8, 16). -/
def Obligations.EveryCommandCompletes : Prop :=
  ∀ (i : Instr) (s : State), ∃ t code, exec i s = .next t ∧ EndsWith t code ∧ KeepsHostSide s t ∧
    t.irq = s.irqEn ∧ t.guarded = (if s.irqEn then [] else s.guarded) ∧
    t.outSeen = (if s.irqEn then t.out else s.outSeen)

/-- R230, R235: the codes each command can report. -/
def Obligations.EachCommandReportsOnlyItsCodes : Prop :=
  ∀ (i : Instr) (s t : State), exec i s = .next t →
    t.status.err ∈ reportable i

/-- R25, R230: the bits of STATUS as the host reads them, and the number of each error code. -/
def Obligations.StatusReadsItsFields : Prop :=
  (∀ s : State, (s.readReg (some .status)).getLsbD 0 = s.status.busy ∧
    (s.readReg (some .status)).getLsbD 1 = s.status.done ∧
    (s.readReg (some .status)).getLsbD 2 = s.status.busyWr ∧
    (s.readReg (some .status)).getLsbD 3 = false ∧
    (s.readReg (some .status)).extractLsb' 4 4 = errNumber s.status.err ∧
    (s.readReg (some .status)).extractLsb' 8 24 = 0) ∧
  [ErrCode.ok, .illegal, .config, .lutDim, .range, .overlap, .size, .magic, .bus].map errNumber =
    [0, 1, 2, 3, 4, 5, 6, 7, 8]

/-- R118: a write to a plain configuration register while idle stores the bits the register implements, and changes
no other register that holds a value of its own; EXP_LEN and OUT_DIM follow it at once. -/
def Obligations.PlainRegisterWriteThenRead : Prop :=
  ∀ (s : State) (d : Word) (off : Nat) (mask : Word), s.status.busy = false →
    (off, mask) ∈ [(0x010, 0xFFFFFFFF#32), (0x014, 0xFFFFFFFF#32), (0x018, 0xFFFFFFFF#32), (0x01C, 0xFFFFFFFF#32),
      (0x020, 0xFFFFFFFF#32), (0x024, 0xFFFFFFFF#32), (0x028, 0xFFFFFFFF#32), (0x02C, 0xFFFFFFFF#32),
      (0x080, 0xFFFFFFFF#32), (0x040, 0x01FFFFFF#32), (0x044, 0x00FFFFFF#32), (0x060, 0x0000FFFF#32),
      (0x064, 0x0000FFFF#32), (0x068, 0x0000FFFF#32)] →
    ∃ t, busWrite s off 4 d = .next t ∧ t.readReg (regAt off) = d &&& mask ∧ t = { s with cfg := t.cfg } ∧
      (∀ off', off' ≠ off → off' ∉ [0x030, 0x034, 0x048, 0x04C, 0x050] →
        t.readReg (regAt off') = s.readReg (regAt off')) ∧
      t.readReg (some .expLen) = expLenValue t.cfg ∧ t.readReg (some .outDim) = outDimValue t.cfg

/-- R119: a write to a read-only or reserved offset while idle has no effect. -/
def Obligations.ReadOnlyWritesHaveNoEffect : Prop :=
  ∀ (s : State) (d : Word) (off : Nat), s.status.busy = false → off < 0x100 → off % 4 = 0 →
    (off ∈ [0x000, 0x030, 0x034, 0x070, 0x074, 0x078] ∨ regAt off = none) → busWrite s off 4 d = .next s

/-- R69, R111: a register read has no side effect on the block (the model records the data the host gets, the mark of
R46, and an observation of completion, log entries 8 and 16); and what every register but STATUS, EXP_LEN, OUT_DIM and the LUT
window reads: ID, CMD and reserved offsets their fixed values (R23, R26, R44), every other one its stored value,
reserved bits 0 (R24, R41, R111). OUT_R/G/B read `outSeen` (R111, R123, R269; log entry 16), of which
ResultsShowOnceObserved says what it is. -/
def Obligations.RegisterReadsHaveNoSideEffect : Prop :=
  (∀ (s : State) (off : Nat), off < 0x100 → off % 4 = 0 →
    ∃ t, busRead s off 4 = .next t ∧
      t = { s with
        faulted  := t.faulted
        guarded  := if off = 0x008 ∧ s.status.busy = false then [] else s.guarded
        outSeen  := if off = 0x008 ∧ s.status.busy = false then s.out else s.outSeen
        observed := .reg off (s.readReg (regAt off)) :: s.observed } ∧
      (off ∉ [0x048, 0x04C, 0x050] → t.faulted = s.faulted)) ∧
  (∀ s : State, s.readReg (some .id) = 0x52424431 ∧ s.readReg (some .cmd) = 0 ∧ s.readReg none = 0 ∧
    s.readReg (some .ctrl) = (if s.irqEn then 1 else 0) ∧
    (∀ n, s.readReg (some (.output n)) = (s.outSeen.get n).zeroExtend 32) ∧
    (∀ n, s.readReg (some (.input n)) = (s.cfg.input.get n).zeroExtend 32) ∧
    s.readReg (some .srcBase) = s.cfg.srcBase ∧ s.readReg (some .srcLen) = s.cfg.srcLen ∧
    s.readReg (some .dstBase) = s.cfg.dstBase ∧ s.readReg (some .geomW) = s.cfg.geomW ∧
    s.readReg (some .geomH) = s.cfg.geomH ∧ s.readReg (some .align) = s.cfg.align ∧
    s.readReg (some .magic) = s.cfg.magic ∧ s.readReg (some .hdrSkip) = s.cfg.hdrSkip ∧
    s.readReg (some .lutCfg) = s.cfg.lutCfg.zeroExtend 32 ∧ s.readReg (some .lutIdx) = s.cfg.lutIdx.zeroExtend 32 ∧
    s.readReg (some .imgDim) = s.cfg.imgDim)

/-- R120: a LUT window write stores bits [15:0] into the channel of the entry LUT_IDX addresses and marks it
written; an index out of capacity is ignored. -/
def Obligations.LatticeWindowWrite : Prop :=
  ∀ (s : State) (n : Channel) (d : Word), s.status.busy = false →
    (s.cfg.lutIdx.toNat < s.params.lutCapacity →
      ∃ t, busWrite s (offsetOf (.lutWindow n)) 4 d = .next t ∧ t = { s with lattice := t.lattice } ∧
        t.latticeAt s.cfg.lutIdx.toNat n = d.extractLsb' 0 16 ∧ t.written s.cfg.lutIdx.toNat n = true ∧
        ∀ e m, (e, m) ≠ (s.cfg.lutIdx.toNat, n) →
          t.latticeAt e m = s.latticeAt e m ∧ t.written e m = s.written e m) ∧
    (s.params.lutCapacity ≤ s.cfg.lutIdx.toNat → busWrite s (offsetOf (.lutWindow n)) 4 d = .next s)

/-- R121: what a LUT window read returns: 0 while busy, 0 beyond the capacity, else the channel; a channel not
written since reset sets the mark of R46. Nothing of the block changes. -/
def Obligations.LatticeWindowRead : Prop :=
  ∀ (s : State) (n : Channel), ∃ t, busRead s (offsetOf (.lutWindow n)) 4 = .next t ∧
    t = { s with
      faulted  := t.faulted
      observed := .reg (offsetOf (.lutWindow n)) (s.readReg (some (.lutWindow n))) :: s.observed } ∧
    (s.status.busy = true → s.readReg (some (.lutWindow n)) = 0 ∧ t.faulted = s.faulted) ∧
    (s.status.busy = false → s.params.lutCapacity ≤ s.cfg.lutIdx.toNat →
      s.readReg (some (.lutWindow n)) = 0 ∧ t.faulted = s.faulted) ∧
    (s.status.busy = false → s.cfg.lutIdx.toNat < s.params.lutCapacity → s.written s.cfg.lutIdx.toNat n = true →
      s.readReg (some (.lutWindow n)) = (s.latticeAt s.cfg.lutIdx.toNat n).zeroExtend 32 ∧ t.faulted = s.faulted) ∧
    (s.status.busy = false → s.cfg.lutIdx.toNat < s.params.lutCapacity → s.written s.cfg.lutIdx.toNat n = false →
      t.faulted.isSome = true)

/-- R112: a register access of any size but 4 bytes, narrower or wider, or at an offset that is not a multiple of 4,
sets the `refused` mark and has no other effect. -/
def Obligations.NarrowAccessesAreRefused : Prop :=
  ∀ (s : State) (off size : Nat) (d : Word), off < 0x100 → (size ≠ 4 ∨ off % 4 ≠ 0) →
    busWrite s off size d = .next { s with refused := true } ∧ busRead s off size = .next { s with refused := true }

/-- R44, R60, R61: where a host access is to nothing of the block or of buffer memory it stops by name, and a byte
access that hits the register space is a register access, refused by R112. -/
def Obligations.HostAccessesOutsideStop : Prop :=
  (∀ (s : State) (off : Nat) (size : AccessSize) (d : Word), 0x100 ≤ off →
    busWrite s off size d = .fault .outsideRegisterFile ∧ busRead s off size = .fault .outsideRegisterFile) ∧
  (∀ (s : State) (a : Nat) (v : Byte), s.params.inRegSpace a = false → 2 ^ 32 ≤ a →
    hostMemWrite s a v = .fault .outsideBufferMemory ∧ hostMemRead s a = .fault .outsideBufferMemory) ∧
  (∀ (s : State) (a : Nat) (v : Byte), s.params.regBase ≤ a → a ≤ s.params.regBase + 0xFF →
    hostMemWrite s a v = .next { s with refused := true } ∧ hostMemRead s a = .next { s with refused := true })

/-- R122: EXP_LEN and OUT_DIM as read: the computed lengths when `geom_valid`, else 0. Over the register fields of R140,
with `al` the `align` of R10: WS (R141), STRIDE (R142), EXP_LEN (R143), OW, OH and DL (R144), and the five conditions of
`geom_valid` (R145). -/
def Obligations.ComputedRegistersFollowGeometry : Prop :=
  ∀ s : State,
    let al (v g : Nat) : Nat := (v + g - 1) / g * g
    let w  := (s.cfg.geomW.extractLsb' 0 16).toNat
    let pc := (s.cfg.geomW.extractLsb' 16 16).toNat
    let h  := (s.cfg.geomH.extractLsb' 0 16).toNat
    let pr := (s.cfg.geomH.extractLsb' 16 16).toNat
    let ca := (s.cfg.align.extractLsb' 0 8).toNat
    let ra := (s.cfg.align.extractLsb' 8 8).toNat
    let ha := (s.cfg.align.extractLsb' 16 8).toNat
    let fa := (s.cfg.align.extractLsb' 24 8).toNat
    let ws := al (w + pc) ca
    let stride := al (ws * 10 / 8) ra
    let expLen := al (stride * al (h + pr) ha) fa
    (geometryValid (geometryOf s.cfg) = true ↔
      (2 ≤ w ∧ w % 2 = 0) ∧ (2 ≤ h ∧ h % 2 = 0) ∧ (1 ≤ ca ∧ 1 ≤ ra ∧ 1 ≤ ha ∧ 1 ≤ fa) ∧ ws % 4 = 0 ∧
      expLen ≤ 2 ^ 32 - 1) ∧
    rowStride (geometryOf s.cfg) = stride ∧ expectedLength (geometryOf s.cfg) = expLen ∧
    outWidth (geometryOf s.cfg) = w / 2 ∧ outHeight (geometryOf s.cfg) = h / 2 ∧
    gridLength (geometryOf s.cfg) = 6 * (w / 2) * (h / 2) ∧
    (geometryValid (geometryOf s.cfg) = true →
      (s.readReg (some .expLen)).toNat = expLen ∧
      (s.readReg (some .outDim)).toNat = h / 2 * 2 ^ 16 + w / 2) ∧
    (geometryValid (geometryOf s.cfg) = false →
      s.readReg (some .expLen) = 0 ∧ s.readReg (some .outDim) = 0)

/-- R126: a host byte access that is no hazard reads and writes the byte, and touches nothing of the block. -/
def Obligations.HostMemoryAccess : Prop :=
  ∀ (s : State) (a : Nat) (v : Byte), s.params.inRegSpace a = false → a < 2 ^ 32 → s.isGuarded a = false →
    hostMemRead s a = .next { s with observed := .mem a (byteAt s.mem a) :: s.observed } ∧
    ∃ t, hostMemWrite s a v = .next t ∧ t = { s with mem := t.mem } ∧ byteAt t.mem a = v ∧
      ∀ b, b ≠ a → byteAt t.mem b = byteAt s.mem b

/-- R267, R75: the ranges of an accepted command are guarded; a host access to a guarded byte sets the mark
HOST_HAZARD and leaves the block and every other byte alone (the data is free, log entry 8); a read of STATUS with
BUSY = 0, or irq asserted, observes the completion and ends the guard; and until one of these, or reset, a guarded byte
stays guarded over every step. -/
def Obligations.HostHazardIsMarked : Prop :=
  (∀ (s t : State) (w : Word) (i : Instr) (a : Nat), s.status.busy = false → decodeWord w = .ok i →
    busWrite s 0x00C 4 w = .next t →
    ((commandRanges s.cfg i).1.contains a = true ∨ (commandRanges s.cfg i).2.contains a = true) →
    t.isGuarded a = true) ∧
  (∀ (s : State) (a : Nat) (v : Byte), s.params.inRegSpace a = false → a < 2 ^ 32 → s.isGuarded a = true →
    (∃ t, hostMemWrite s a v = .next t ∧ t.faulted.isSome = true ∧ t.status = s.status ∧ t.cfg = s.cfg ∧
      t.eng = s.eng ∧ t.lattice = s.lattice ∧ t.out = s.out ∧ t.outSeen = s.outSeen ∧
      ∀ b, b ≠ a → byteAt t.mem b = byteAt s.mem b) ∧
    (∃ t, hostMemRead s a = .next t ∧ t.faulted.isSome = true ∧ t.status = s.status ∧ t.cfg = s.cfg ∧
      t.eng = s.eng ∧ t.lattice = s.lattice ∧ t.out = s.out ∧ t.outSeen = s.outSeen ∧ t.mem = s.mem)) ∧
  (∀ (s t : State), s.status.busy = false → busRead s 0x008 4 = .next t → t.guarded = []) ∧
  (∀ (s t : State) (d : Word), busWrite s 0x004 4 d = .next t → t.irq = true → t.guarded = []) ∧
  (∀ (s t : State) (a : Nat), step s = .next t → s.isGuarded a = true → t.irq = false →
    (nextAgent s = some .host → ¬ s.hostObservesOrResets) → t.isGuarded a = true)

/-- R128: `POLL` ends: with a command pending and `POLL` the host's next operation, the engine performs the command
after at most as many polls as the schedule holds turns, whatever the schedule. -/
def Obligations.PollEndsWithinTheSchedule : Prop :=
  ∀ (s : State) (w : Word) (rest : List HostOp), s.Inv → s.eng = .pending w → s.host = .poll :: rest →
    ∃ k t, k ≤ s.turns.length + 1 ∧ Sys2Proof.core.run k s = .next t ∧ t.eng = .idle ∧ t.host = .poll :: rest ∧
      t.status.busy = false ∧ t.status.done = true

/-- R46: the marks are "never cleared, not even by reset": no step clears either. -/
def Obligations.MarksAreNeverCleared : Prop :=
  ∀ s t : State, step s = .next t →
    (s.faulted.isSome = true → t.faulted = s.faulted) ∧ (s.refused = true → t.refused = true)

/-! ## Reset (70_reset_and_hazards.md) -/

/-- R48, R260: what reset leaves, from any state: each value of R48's table; memory outside the destination of an
abandoned command is not affected. The state the machine starts in reads the same. -/
def Obligations.ResetValues : Prop :=
  (∀ s : State, ∃ t, hostOp .reset s = .next t ∧ t.irqEn = false ∧ t.status = ⟨false, false, false, .ok⟩ ∧
    t.eng = .idle ∧ t.irq = false ∧ t.readReg (some .id) = 0x52424431 ∧
    (∀ off, off < 0x100 → off ≠ 0x000 → off ∉ [0x048, 0x04C, 0x050] → t.readReg (regAt off) = 0) ∧
    (∀ e n, t.written e n = false) ∧
    (∀ a, (∀ w, s.eng = .pending w → (wordRanges s.cfg w).2.contains a = false) →
      byteAt t.mem a = byteAt s.mem a)) ∧
  (∀ off, off < 0x100 → off ≠ 0x000 → off ∉ [0x048, 0x04C, 0x050] → State.reset.readReg (regAt off) = 0) ∧
  State.reset.readReg (some .id) = 0x52424431 ∧
  State.reset.status = ⟨false, false, false, .ok⟩ ∧ State.reset.eng = .idle ∧ State.reset.irq = false ∧
  (∀ e n, State.reset.written e n = false)

/-- R262, R46: a pending command is abandoned: it never completes, DONE is 0, memory outside its destination range is
untouched, and all of memory when none is pending; the marks stay. -/
def Obligations.ResetAbandonsThePendingCommand : Prop :=
  (∀ (s : State) (w : Word), s.eng = .pending w →
    ∃ t, hostOp .reset s = .next t ∧ t.eng = .idle ∧ t.status.done = false ∧
      SameOutside s t (wordRanges s.cfg w).2 ∧ t.faulted = s.faulted ∧ t.refused = s.refused) ∧
  (∀ s : State, s.eng = .idle →
    ∃ t, hostOp .reset s = .next t ∧ t.mem = s.mem ∧ t.faulted = s.faulted ∧ t.refused = s.refused)

/-- The spec's inference R263: after reset the interrupt is masked with nothing pending, and, until the host programs
the block, both decode commands fail with ERR_CONFIG and every LUT command with ERR_LUT_DIM. -/
def Obligations.CommandsAfterResetFail : Prop :=
  ∀ s t : State, hostOp .reset s = .next t →
    t.irqEn = false ∧ t.status.done = false ∧
    exec .decode t = .next (t.complete .config) ∧ exec .decodeWrapped t = .next (t.complete .config) ∧
    exec .lutIdentity t = .next (t.complete .lutDim) ∧ exec .lutMapColor t = .next (t.complete .lutDim) ∧
    exec .lutMapImage t = .next (t.complete .lutDim)

/-! ## The raw decoder (41_decoder.md) -/

/-- R146 to R148: the sample (x, y) of a payload at `pb`: the addresses of its high byte and its group's low byte, its
two low bits under either lane order, and its 16-bit value. -/
def Obligations.SampleUnpacking : Prop :=
  ∀ (s : State) (pb x y : Nat),
    let hiaddr := pb + y * rowStride (geometryOf s.cfg) + 5 * (x / 4) + x % 4
    let loaddr := pb + y * rowStride (geometryOf s.cfg) + 5 * (x / 4) + 4
    s.params.admits hiaddr = true → s.params.admits loaddr = true →
    ∃ v, readSample s (geometryOf s.cfg) pb x y = .ok v ∧
      (s.params.lsbOrder = .lsbFirst →
        v = ((byteAt s.mem hiaddr).toNat * 4 + (byteAt s.mem loaddr).toNat / 4 ^ (x % 4) % 4) * 64) ∧
      (s.params.lsbOrder = .msbFirst →
        v = ((byteAt s.mem hiaddr).toNat * 4 + (byteAt s.mem loaddr).toNat / 4 ^ (3 - x % 4) % 4) * 64)

/-- The spec's inference R159: red and blue of every decoded pixel are multiples of 64, green of 32, all at most
65472, and the 16-bit fields hold the sums and samples of R150 and R151 exactly. -/
def Obligations.DecodedChannelsInRange : Prop :=
  ∀ (s : State) (pb ox oy : Nat),
    (s.demosaiced pb ox oy).r.toNat = s.sample pb (2 * ox + 1) (2 * oy + 1) ∧
    2 * (s.demosaiced pb ox oy).g.toNat =
      s.sample pb (2 * ox + 1) (2 * oy) + s.sample pb (2 * ox) (2 * oy + 1) ∧
    (s.demosaiced pb ox oy).b.toNat = s.sample pb (2 * ox) (2 * oy) ∧
    (s.demosaiced pb ox oy).r.toNat % 64 = 0 ∧ (s.demosaiced pb ox oy).r.toNat ≤ 65472 ∧
    (s.demosaiced pb ox oy).g.toNat % 32 = 0 ∧ (s.demosaiced pb ox oy).g.toNat ≤ 65472 ∧
    (s.demosaiced pb ox oy).b.toNat % 64 = 0 ∧ (s.demosaiced pb ox oy).b.toNat ≤ 65472

/-- The spec's inferences in R153 and R154: in a valid geometry EXP_LEN is at least 10, and every byte a decode reads
lies in the payload. -/
def Obligations.DecodeReadsInsideThePayload : Prop :=
  ∀ g : Geometry, geometryValid g = true →
    10 ≤ expectedLength g ∧
    ∀ pb x y, x < g.w → y < g.h →
      pb ≤ hiAddr g pb x y ∧ hiAddr g pb x y < pb + expectedLength g ∧
      pb ≤ loAddr g pb x y ∧ loAddr g pb x y < pb + expectedLength g

/-- R154, R155, R149 to R152: where every check passes and every byte accessed is admitted, DECODE succeeds and
writes each pixel of the demosaiced payload in the grid format. -/
def Obligations.DecodeWritesTheGrid : Prop :=
  ∀ s : State, FrameChecksPass s → s.cfg.srcLen.toNat = expectedLength (geometryOf s.cfg) →
    PayloadAdmitted s s.cfg.srcBase.toNat → RangeAdmitted s (decodedRange s.cfg) →
    ∃ t, exec .decode s = .next t ∧ EndsWith t .ok ∧
      ∀ ox oy, ox < outWidth (geometryOf s.cfg) → oy < outHeight (geometryOf s.cfg) →
        HoldsPixel t.mem (s.cfg.dstBase.toNat + 6 * (oy * outWidth (geometryOf s.cfg) + ox))
          (s.demosaiced s.cfg.srcBase.toNat ox oy)

/-- R156 to R158: the same for a wrapped buffer: it is long enough, its marker matches MAGIC, and the payload is its
last EXP_LEN bytes. -/
def Obligations.DecodeWrappedWritesTheGrid : Prop :=
  ∀ s : State, FrameChecksPass s → s.wrappedLongEnough → (∀ k, k < 4 → s.markerByteOk k) →
    PayloadAdmitted s s.wrappedPayload → RangeAdmitted s (decodedRange s.cfg) →
    ∃ t, exec .decodeWrapped s = .next t ∧ EndsWith t .ok ∧
      ∀ ox oy, ox < outWidth (geometryOf s.cfg) → oy < outHeight (geometryOf s.cfg) →
        HoldsPixel t.mem (s.cfg.dstBase.toNat + 6 * (oy * outWidth (geometryOf s.cfg) + ox))
          (s.demosaiced s.wrappedPayload ox oy)

/-- R154, R155, R157, R235, R236: the checks on registers, in their order. Each failing one ends the command with its
code, precisely: only STATUS, the engine and the model's guard change. -/
def Obligations.DecodeRejectsInOrder : Prop :=
  ∀ (s : State) (i : Instr), i = .decode ∨ i = .decodeWrapped →
    (geometryValid (geometryOf s.cfg) = false → exec i s = .next (s.complete .config)) ∧
    (geometryValid (geometryOf s.cfg) = true →
      ((frameRange s.cfg).fits = false ∨ (decodedRange s.cfg).fits = false) →
      exec i s = .next (s.complete .range)) ∧
    (geometryValid (geometryOf s.cfg) = true →
      (frameRange s.cfg).fits = true → (decodedRange s.cfg).fits = true →
      (frameRange s.cfg).overlaps (decodedRange s.cfg) = true → exec i s = .next (s.complete .overlap)) ∧
    (FrameChecksPass s → i = .decode → s.cfg.srcLen.toNat ≠ expectedLength (geometryOf s.cfg) →
      exec i s = .next (s.complete .size)) ∧
    (FrameChecksPass s → i = .decodeWrapped → ¬ s.wrappedLongEnough → exec i s = .next (s.complete .size))

/-- R158, R235: the marker's bytes are checked in rising order, and the first one not admitted ends the command with
ERR_BUS, the first one that differs with ERR_MAGIC, precisely. -/
def Obligations.MarkerIsCheckedByteByByte : Prop :=
  ∀ (s : State) (k : Nat), FrameChecksPass s → s.wrappedLongEnough → k < 4 →
    (∀ j, j < k → s.markerByteOk j) →
    (s.params.admits (s.magicAddr + k) = false →
      ∃ t, exec .decodeWrapped s = .next t ∧ EndsWith t .bus ∧ SameOutside s t (decodedRange s.cfg)) ∧
    (s.params.admits (s.magicAddr + k) = true →
      byteAt s.mem (s.magicAddr + k) ≠ s.cfg.magic.extractLsb' (8 * k) 8 →
      exec .decodeWrapped s = .next (s.complete .magic))

/-- R234, R235, R237: with every check passed, a byte the data phase needs and the platform does not admit ends the
command with ERR_BUS; bytes outside the destination range are unchanged. -/
def Obligations.DecodeEndsInBusError : Prop :=
  (∀ s : State, FrameChecksPass s → s.cfg.srcLen.toNat = expectedLength (geometryOf s.cfg) →
    (¬ PayloadAdmitted s s.cfg.srcBase.toNat ∨ ¬ RangeAdmitted s (decodedRange s.cfg)) →
    ∃ t, exec .decode s = .next t ∧ EndsWith t .bus ∧ SameOutside s t (decodedRange s.cfg)) ∧
  (∀ s : State, FrameChecksPass s → s.wrappedLongEnough → (∀ k, k < 4 → s.markerByteOk k) →
    (¬ PayloadAdmitted s s.wrappedPayload ∨ ¬ RangeAdmitted s (decodedRange s.cfg)) →
    ∃ t, exec .decodeWrapped s = .next t ∧ EndsWith t .bus ∧ SameOutside s t (decodedRange s.cfg))

/-- The spec's inference R153: the bytes a decode does not read never affect the result: two states with the same
registers and parameters whose memories agree on the active samples' bytes give the same code, and on success the same
grid. -/
def Obligations.DecodeIgnoresPadding : Prop :=
  ∀ s t s' t' : State, t.cfg = s.cfg → t.params = s.params →
    (∀ x y, x < (geometryOf s.cfg).w → y < (geometryOf s.cfg).h →
      byteAt t.mem (hiAddr (geometryOf s.cfg) s.cfg.srcBase.toNat x y) =
        byteAt s.mem (hiAddr (geometryOf s.cfg) s.cfg.srcBase.toNat x y) ∧
      byteAt t.mem (loAddr (geometryOf s.cfg) s.cfg.srcBase.toNat x y) =
        byteAt s.mem (loAddr (geometryOf s.cfg) s.cfg.srcBase.toNat x y)) →
    exec .decode s = .next s' → exec .decode t = .next t' →
    t'.status.err = s'.status.err ∧
    (s'.status.err = .ok → ∀ a, (decodedRange s.cfg).contains a = true → byteAt t'.mem a = byteAt s'.mem a)

/-- R153, R160, R193, R236, R237: what DECODE, DECODE_WRAPPED and LUT_MAP_IMAGE leave unchanged. They write no
register but STATUS, no lattice channel, and no byte of memory outside their destination range; with an error other
than ERR_BUS no byte at all. -/
def Obligations.GridCommandsFrame : Prop :=
  ∀ (s t : State) (i : Instr), i = .decode ∨ i = .decodeWrapped ∨ i = .lutMapImage → exec i s = .next t →
    KeepsHostSide s t ∧ t.out = s.out ∧ t.lattice = s.lattice ∧
    SameOutside s t (if i = .lutMapImage then imageDest s.cfg else decodedRange s.cfg) ∧
    (t.status.err ≠ .ok → t.status.err ≠ .bus → t.mem = s.mem ∧ t.draws = s.draws) ∧
    (t.status.err = .ok → t.draws = s.draws) ∧
    (i ≠ .lutMapImage → t.faulted = s.faulted)

/-! ## The colour LUT (42_lut.md) -/

/-- R180, R181: the root index of a value on an axis, and, as R181 infers ("Hence 0 ≤ idx ≤ P-2 ..."), where it and the
remainder lie. -/
def Obligations.RootIndexAndRemainder : Prop :=
  ∀ v p : Nat, v ≤ 65535 → 2 ≤ p → p ≤ 255 →
    rootIndex v p = min (p - 2) (v / (65535 / (p - 1))) ∧ rootIndex v p + 2 ≤ p ∧
    rootIndex v p * blockSize p + rootRem v p = v ∧
    rootRem v p ≤ 65535 - (p - 2) * blockSize p ∧
    (blockSize p ≤ rootRem v p ↔ (p - 1) * blockSize p ≤ v)

/-- R8, R182: one interpolation step. The quotient is rounded toward minus infinity under FLOOR and toward zero under
TRUNC; a step with m = 0 gives lo, one with m = d gives hi. -/
def Obligations.InterpolationStep : Prop :=
  ∀ (lo hi : Int) (m d : Nat), 0 < d →
    (∃ q, lerp .floor lo hi m d = lo + q ∧ q * d ≤ m * (hi - lo) ∧ m * (hi - lo) < (q + 1) * d) ∧
    (∃ q, lerp .trunc lo hi m d = lo + q ∧ (q * d).natAbs ≤ ((m : Int) * (hi - lo)).natAbs ∧
      ((m : Int) * (hi - lo)).natAbs < (q * d).natAbs + d ∧ (lo ≤ hi → 0 ≤ q) ∧ (hi ≤ lo → q ≤ 0)) ∧
    (∀ mode, lerp mode lo hi 0 d = lo ∧ lerp mode lo hi d d = hi)

/-- The spec's inference R190: before the crop a 3-D result lies within 2^21 of zero, in both rounding modes, for
every lattice of 16-bit values. -/
def Obligations.TrilinearResultIsBounded : Prop :=
  ∀ (mode : DivMode) (sh : LutShape) (lat : Nat → Int) (c : Color),
    2 ≤ sh.x → sh.x ≤ 255 → 2 ≤ sh.y → sh.y ≤ 255 → 2 ≤ sh.z → sh.z ≤ 255 →
    (∀ e, 0 ≤ lat e ∧ lat e ≤ 65535) →
    -(2 ^ 21) < map3Raw mode sh lat c ∧ map3Raw mode sh lat c < 2 ^ 21

/-- R189, R236: `lut_valid`, condition by condition; where it is false each LUT command ends with ERR_LUT_DIM before any
effect. -/
def Obligations.LutCommandsNeedAValidLattice : Prop :=
  ∀ s : State,
    (s.cfg.lutCfg.getLsbD 24 = false →
      (s.lutReady = true ↔
        2 ≤ field s.cfg.lutCfg 0 8 ∧ 2 ≤ field s.cfg.lutCfg 8 8 ∧ 2 ≤ field s.cfg.lutCfg 16 8 ∧
        field s.cfg.lutCfg 0 8 * field s.cfg.lutCfg 8 8 * field s.cfg.lutCfg 16 8 ≤ s.params.lutCapacity)) ∧
    (s.cfg.lutCfg.getLsbD 24 = true →
      (s.lutReady = true ↔
        2 ≤ field s.cfg.lutCfg 0 8 ∧ field s.cfg.lutCfg 0 8 ≤ s.params.lutCapacity)) ∧
    (s.lutReady = false →
      exec .lutIdentity s = .next (s.complete .lutDim) ∧ exec .lutMapColor s = .next (s.complete .lutDim) ∧
      exec .lutMapImage s = .next (s.complete .lutDim))

/-- R188, R191: LUT_IDENTITY writes the Identity lattice of the configuration, every channel of it, and no other
entry. -/
def Obligations.IdentityWritesTheLattice : Prop :=
  ∀ s : State, s.lutReady = true →
    ∃ t, exec .lutIdentity s = .next t ∧ EndsWith t .ok ∧
      ((lutShapeOf s.cfg).mode = .threeD →
        (∀ i j k, i < (lutShapeOf s.cfg).x → j < (lutShapeOf s.cfg).y → k < (lutShapeOf s.cfg).z →
          (∀ n, t.written ((i * (lutShapeOf s.cfg).y + j) * (lutShapeOf s.cfg).z + k) n = true) ∧
          (t.latticeAt ((i * (lutShapeOf s.cfg).y + j) * (lutShapeOf s.cfg).z + k) .red).toNat =
            i * blockSize (lutShapeOf s.cfg).x ∧
          (t.latticeAt ((i * (lutShapeOf s.cfg).y + j) * (lutShapeOf s.cfg).z + k) .green).toNat =
            j * blockSize (lutShapeOf s.cfg).y ∧
          (t.latticeAt ((i * (lutShapeOf s.cfg).y + j) * (lutShapeOf s.cfg).z + k) .blue).toNat =
            k * blockSize (lutShapeOf s.cfg).z) ∧
        (∀ e n, (lutShapeOf s.cfg).x * (lutShapeOf s.cfg).y * (lutShapeOf s.cfg).z ≤ e →
          t.latticeAt e n = s.latticeAt e n ∧ t.written e n = s.written e n)) ∧
      ((lutShapeOf s.cfg).mode = .oneD →
        (∀ i n, i < (lutShapeOf s.cfg).x →
          t.written i n = true ∧ (t.latticeAt i n).toNat = i * blockSize (lutShapeOf s.cfg).x) ∧
        (∀ e n, (lutShapeOf s.cfg).x ≤ e → t.latticeAt e n = s.latticeAt e n ∧ t.written e n = s.written e n))

/-- R191, R192, R42, R60: what LUT_IDENTITY and LUT_MAP_COLOR leave unchanged. Neither touches memory; the first
writes no register but STATUS, the second none but STATUS and, on success, OUT, and no lattice channel. -/
def Obligations.LutRegisterCommandsFrame : Prop :=
  ∀ (s t : State) (i : Instr), i = .lutIdentity ∨ i = .lutMapColor → exec i s = .next t →
    KeepsHostSide s t ∧ SameMemory s t ∧ t.mem = s.mem ∧ t.draws = s.draws ∧
    (i = .lutIdentity → t.out = s.out ∧ t.faulted = s.faulted) ∧
    (i = .lutMapColor → t.lattice = s.lattice) ∧
    (t.status.err ≠ .ok → t.out = s.out ∧ t.lattice = s.lattice ∧ t.faulted = s.faulted)

/-- R183 to R185, R192: LUT_MAP_COLOR in 3-D mode: each channel of OUT is the crop of the trilinear interpolation of
that channel, along X, then Y, then Z. -/
def Obligations.MapColorIsTrilinear : Prop :=
  ∀ s : State, s.lutReady = true → (lutShapeOf s.cfg).mode = .threeD →
    ∃ t, exec .lutMapColor s = .next t ∧ EndsWith t .ok ∧
      ∀ n : Channel,
        let q := s.params.divMode
        let sh := lutShapeOf s.cfg
        let c := s.cfg.input
        let lat (di dj dk : Nat) : Int :=
          (s.latticeAt (((rootIndex c.r.toNat sh.x + di) * sh.y + (rootIndex c.g.toNat sh.y + dj)) * sh.z +
            (rootIndex c.b.toNat sh.z + dk)) n).toNat
        let a (dj dk : Nat) : Int :=
          lerp q (lat 0 dj dk) (lat 1 dj dk) (rootRem c.r.toNat sh.x) (blockSize sh.x)
        let b (dk : Nat) : Int := lerp q (a 0 dk) (a 1 dk) (rootRem c.g.toNat sh.y) (blockSize sh.y)
        ((t.out.get n).toNat : Int) =
          min 65535 (max 0 (lerp q (b 0) (b 1) (rootRem c.b.toNat sh.z) (blockSize sh.z)))

/-- R186, R187, R192: LUT_MAP_COLOR in 1-D mode: each channel is interpolated on its own along the one axis and
cropped. -/
def Obligations.MapColorIsLinear : Prop :=
  ∀ s : State, s.lutReady = true → (lutShapeOf s.cfg).mode = .oneD →
    ∃ t, exec .lutMapColor s = .next t ∧ EndsWith t .ok ∧
      ∀ n : Channel,
        let x := (lutShapeOf s.cfg).x
        let v := (s.cfg.input.get n).toNat
        ((t.out.get n).toNat : Int) =
          min 65535 (max 0 (lerp s.params.divMode (s.latticeAt (rootIndex v x) n).toNat
            (s.latticeAt (rootIndex v x + 1) n).toNat (rootRem v x) (blockSize x)))

/-- R46, R184, R186: a LUT map marks UNINIT_LATTICE exactly when a lattice channel its mapping reads has not been written
since reset: LUT_MAP_COLOR for its input, LUT_MAP_IMAGE for a source pixel that can be read, also where it ends with
ERR_BUS (log entry 2), and not where a check before the accesses fails. That the command completes with a free value is
the model's choice (log entry 7). -/
def Obligations.UnwrittenLatticeIsMarked : Prop :=
  (∀ s t : State, s.lutReady = true → exec .lutMapColor s = .next t →
    (¬ s.ReadsUnwritten s.cfg.input → t.faulted = s.faulted) ∧
    (s.ReadsUnwritten s.cfg.input → t.faulted.isSome = true)) ∧
  (∀ s t : State, ImageChecksPass s → exec .lutMapImage s = .next t →
    ((∀ p c, s.SourcePixel p c → ¬ s.ReadsUnwritten c) → t.faulted = s.faulted) ∧
    ((∃ p c, s.SourcePixel p c ∧ s.ReadsUnwritten c) → t.faulted.isSome = true)) ∧
  (∀ s t : State, ¬ ImageChecksPass s → exec .lutMapImage s = .next t → t.faulted = s.faulted)

/-- The spec's inference R194 item 1: Identity is exact: after LUT_IDENTITY, LUT_MAP_COLOR returns its input, for
every input, in both modes, for every valid configuration, under both division modes. -/
def Obligations.IdentityMapsEveryColourToItself : Prop :=
  ∀ s : State, s.lutReady = true →
    ∃ t u, exec .lutIdentity s = .next t ∧ exec .lutMapColor t = .next u ∧ EndsWith u .ok ∧
      u.out = s.cfg.input ∧ u.faulted = s.faulted

/-- The spec's inference R194 item 3: lattice points are reproduced exactly: an input on lattice coordinate t·BS(P) of
every axis is mapped to that lattice point. Where a channel read has not been written since reset, both sides are its
free content of log entry 7, and the run carries the mark of R46. -/
def Obligations.LatticePointsAreReproduced : Prop :=
  ∀ s : State, s.lutReady = true →
    ((lutShapeOf s.cfg).mode = .threeD → ∀ i j k,
      i < (lutShapeOf s.cfg).x → j < (lutShapeOf s.cfg).y → k < (lutShapeOf s.cfg).z →
      s.cfg.input.r.toNat = i * blockSize (lutShapeOf s.cfg).x →
      s.cfg.input.g.toNat = j * blockSize (lutShapeOf s.cfg).y →
      s.cfg.input.b.toNat = k * blockSize (lutShapeOf s.cfg).z →
      ∃ t, exec .lutMapColor s = .next t ∧ ∀ n,
        t.out.get n = s.latticeAt ((i * (lutShapeOf s.cfg).y + j) * (lutShapeOf s.cfg).z + k) n) ∧
    ((lutShapeOf s.cfg).mode = .oneD → ∀ i : Channel → Nat,
      (∀ n, i n < (lutShapeOf s.cfg).x ∧ (s.cfg.input.get n).toNat = i n * blockSize (lutShapeOf s.cfg).x) →
      ∃ t, exec .lutMapColor s = .next t ∧ ∀ n, t.out.get n = s.latticeAt (i n) n)

/-- R63, R65, R70: a pixel whose six bytes stand in memory in the grid format is the pixel the block reads there. -/
def Obligations.PixelsReadBackBigEndian : Prop :=
  ∀ (s : State) (a : Nat) (c : Color), HoldsPixel s.mem a c →
    (∀ k, k < 6 → s.params.admits (a + k) = true) → readPixel s a = .ok c

/-- R193: where every check passes and every byte accessed is admitted, LUT_MAP_IMAGE succeeds, and each output pixel
is what LUT_MAP_COLOR gives for that input. Where a lattice channel read has not been written since reset, both read its
free content, which log entry 7 keeps the same at each read, and both runs carry the mark of R46. -/
def Obligations.MapImageMapsEveryPixel : Prop :=
  ∀ s : State, ImageChecksPass s → RangeAdmitted s (imageSource s.cfg) → RangeAdmitted s (imageDest s.cfg) →
    ∃ t, exec .lutMapImage s = .next t ∧ EndsWith t .ok ∧
      ∀ (p : Nat) (c : Color), p < imagePixels s.cfg → HoldsPixel s.mem (s.cfg.srcBase.toNat + 6 * p) c →
        ∃ u, exec .lutMapColor { s with cfg := { s.cfg with input := c } } = .next u ∧
          HoldsPixel t.mem (s.cfg.dstBase.toNat + 6 * p) u.out

/-- R193, R235, R236: the checks of LUT_MAP_IMAGE after the lattice's, in their order, each precise. -/
def Obligations.MapImageRejectsInOrder : Prop :=
  ∀ s : State, s.lutReady = true →
    ((imageSource s.cfg).fits = false ∨ (imageDest s.cfg).fits = false →
      exec .lutMapImage s = .next (s.complete .range)) ∧
    ((imageSource s.cfg).fits = true → (imageDest s.cfg).fits = true →
      (imageSource s.cfg).overlaps (imageDest s.cfg) = true →
      exec .lutMapImage s = .next (s.complete .overlap)) ∧
    (imagePixels s.cfg = 0 → exec .lutMapImage s = .next (s.complete .ok))

/-- R234, R237: with every check passed, a byte of either grid that the platform does not admit ends the command with
ERR_BUS; bytes outside the destination range are unchanged. -/
def Obligations.MapImageEndsInBusError : Prop :=
  ∀ s : State, ImageChecksPass s →
    (¬ RangeAdmitted s (imageSource s.cfg) ∨ ¬ RangeAdmitted s (imageDest s.cfg)) →
    ∃ t, exec .lutMapImage s = .next t ∧ EndsWith t .bus ∧ SameOutside s t (imageDest s.cfg)

/-! ## The whole machine -/

/-- The invariant (R6, R25, R45, R111, R123, R269, and the canonical forms of memory and lattice) is kept by every step. -/
def Obligations.StepKeepsTheMachineWellFormed : Prop :=
  ∀ s t : State, s.Inv → step s = .next t → t.Inv

/-- The invariant holds in State.reset. Its capacity is legal (R6) by the parameters of log entry 3, and memory, lattice
and race record are empty there by log entries 1 and 5; the rest is R45 and R48. -/
def Obligations.ResetIsWellFormed : Prop := State.reset.Inv

/-- R113, and the spec's inference R93: the operands of a pending command are fixed: whatever step is taken, as long
as the command stays pending neither its word, nor a configuration register, nor the lattice, nor OUT, nor what OUT
reads (R123), changes. -/
def Obligations.OperandsAreFixedWhilePending : Prop :=
  ∀ (s t : State) (w v : Word), s.Inv → s.eng = .pending w → step s = .next t → t.eng = .pending v →
    v = w ∧ t.cfg = s.cfg ∧ t.lattice = s.lattice ∧ t.out = s.out ∧ t.outSeen = s.outSeen ∧ t.params = s.params

/-- The parameters of R6 are fixed for the machine: no step changes them. -/
def Obligations.ParametersNeverChange : Prop :=
  ∀ s t : State, step s = .next t → t.params = s.params

/-- R128: which agent moves: the engine whenever a command is pending and the host has nothing to do, or the schedule
names the engine or nothing; the host whenever it has something to do and otherwise (log entry 4). R97, R110, R111, R126:
a move of the host is its next operation, taken off its list but for a `POLL` that reads BUSY = 1; a choice between the
two agents uses up one turn. -/
def Obligations.AgentsTakeTurns : Prop :=
  (∀ s : State,
    (nextAgent s = some .engine ↔
      (∃ w, s.eng = .pending w) ∧ (s.host = [] ∨ s.turns = [] ∨ s.turns.head? = some .engine)) ∧
    (nextAgent s = some .host ↔
      s.host ≠ [] ∧ (s.eng = .idle ∨ s.turns.head? = some .host)) ∧
    (nextAgent s = none ↔ s.eng = .idle ∧ s.host = []) ∧
    (nextAgent s = none → step s = .next s) ∧
    s.spendTurn = { s with turns := if s.eng = .idle ∨ s.host = [] then s.turns else s.turns.tail } ∧
    (∀ op rest, nextAgent s = some .host → s.host = op :: rest →
      step s = hostOp op { s.spendTurn with
        host := if op = .poll ∧ s.status.busy = true then s.host else rest })) ∧
  (∀ (s : State) (off size : Nat) (d : Word) (a : Nat) (v : Byte),
    hostOp (.write off size d) s = busWrite s off size d ∧ hostOp (.read off size) s = busRead s off size ∧
    hostOp .poll s = busRead s 0x008 4 ∧ hostOp (.memWrite a v) s = hostMemWrite s a v ∧
    hostOp (.memRead a) s = hostMemRead s a)

/-- R111, R123, R269, R75: what OUT_R/G/B read. While BUSY = 1 it is the last successful result, whether its completion
has been observed or not, and an acceptance makes it so. Then it does not change, also where the engine's step stores a
new result, over any step that leaves irq low and is no read of STATUS with BUSY = 0, no acceptance and no reset. A read
of STATUS with BUSY = 0, a CTRL write that leaves irq asserted and a step of the engine that does make them read the last
result stored; a CTRL write that leaves irq low changes nothing of it. How these rules fit together is log entry 16. -/
def Obligations.ResultsShowOnceObserved : Prop :=
  (∀ (s : State) (n : Channel), s.Inv → s.status.busy = true →
    s.readReg (some (.output n)) = (s.out.get n).zeroExtend 32) ∧
  (∀ (s t : State) (n : Channel) (w : Word), s.status.busy = false → busWrite s 0x00C 4 w = .next t →
    t.out = s.out ∧ t.readReg (some (.output n)) = (s.out.get n).zeroExtend 32) ∧
  (∀ (s t : State) (n : Channel), step s = .next t → t.irq = false →
    (nextAgent s = some .host → ¬ s.hostObservesOrResets) → (s.status.busy = false → t.status.busy = false) →
    t.readReg (some (.output n)) = s.readReg (some (.output n))) ∧
  (∀ (s t : State) (n : Channel), s.status.busy = false → busRead s 0x008 4 = .next t →
    t.out = s.out ∧ t.readReg (some (.output n)) = (s.out.get n).zeroExtend 32) ∧
  (∀ (s t : State) (n : Channel) (d : Word), busWrite s 0x004 4 d = .next t →
    t.out = s.out ∧ t.readReg (some (.output n)) =
      if t.irq then (s.out.get n).zeroExtend 32 else s.readReg (some (.output n))) ∧
  (∀ (s t : State) (n : Channel), nextAgent s = some .engine → step s = .next t → t.irq = true →
    t.readReg (some (.output n)) = (t.out.get n).zeroExtend 32)
end

