-- ==== Sys2Proof/Laws/Cells.lean ====
section
/-! SUPPORT. The laws of sparse data: a find after a put, and that a put keeps the canonical form. -/

namespace Sys2Proof.Machine

variable {α : Type}

@[simp] theorem cellsFind_nil (a : Nat) : cellsFind ([] : List (Nat × α)) a = none := rfl

theorem cellsFind_cons (k : Nat) (v : α) (l : List (Nat × α)) (a : Nat) :
    cellsFind ((k, v) :: l) a = if k = a then some v else cellsFind l a := rfl

/-- A find at the key put finds the value put. -/
@[simp] theorem cellsFind_put_same (l : List (Nat × α)) (a : Nat) (v : α) : cellsFind (cellsPut l a v) a = some v := by
  induction l with
  | nil => simp [cellsPut, cellsFind]
  | cons c l ih =>
    obtain ⟨k, w⟩ := c
    simp only [cellsPut]
    split
    · simp [cellsFind]
    · split
      · simp [cellsFind]
      · rw [cellsFind_cons, if_neg (by omega), ih]

/-- A find at another key finds what it found before. -/
theorem cellsFind_put_other (l : List (Nat × α)) {a b : Nat} (v : α) (h : b ≠ a) :
    cellsFind (cellsPut l a v) b = cellsFind l b := by
  induction l with
  | nil => simp [cellsPut, cellsFind_cons, Ne.symm h]
  | cons c l ih =>
    obtain ⟨k, w⟩ := c
    simp only [cellsPut]
    split
    · simp [cellsFind_cons, Ne.symm h]
    · split
      · next hak => subst hak; simp [cellsFind_cons, Ne.symm h]
      · simp [cellsFind_cons, ih]

theorem cellsFind_put (l : List (Nat × α)) (a b : Nat) (v : α) :
    cellsFind (cellsPut l a v) b = if b = a then some v else cellsFind l b := by
  split
  · next h => subst h; simp
  · next h => exact cellsFind_put_other l v h

theorem risingAbove_put {l : List (Nat × α)} {low a : Nat} (v : α) (h : risingAbove low l = true) (ha : low < a) :
    risingAbove low (cellsPut l a v) = true := by
  induction l generalizing low with
  | nil => simp [cellsPut, risingAbove, ha]
  | cons c l ih =>
    obtain ⟨k, w⟩ := c
    simp only [risingAbove, Bool.and_eq_true, decide_eq_true_eq] at h
    simp only [cellsPut]
    split
    · next hk => simp [risingAbove, ha, hk, h.2]
    · split
      · next hk => subst hk; simp [risingAbove, ha, h.2]
      · next h1 h2 => simp [risingAbove, h.1, ih h.2 (by omega)]

/-- A put keeps the keys strictly rising. -/
theorem rising_put {l : List (Nat × α)} (a : Nat) (v : α) (h : rising l = true) : rising (cellsPut l a v) = true := by
  cases l with
  | nil => simp [cellsPut, rising, risingAbove]
  | cons c l =>
    obtain ⟨k, w⟩ := c
    simp only [rising] at h
    simp only [cellsPut]
    split
    · next hk => simp [rising, risingAbove, hk, h]
    · split
      · next hk => subst hk; simp [rising, h]
      · next h1 h2 => simpa [rising] using risingAbove_put v h (by omega)

/-- A put at a key below the bound keeps all keys below it. -/
theorem keysBelow_put {l : List (Nat × α)} {bound a : Nat} (v : α) (h : keysBelow bound l = true) (ha : a < bound) :
    keysBelow bound (cellsPut l a v) = true := by
  induction l with
  | nil => simp [cellsPut, keysBelow, ha]
  | cons c l ih =>
    obtain ⟨k, w⟩ := c
    simp only [keysBelow, List.all_cons, Bool.and_eq_true, decide_eq_true_eq] at h ih
    simp only [cellsPut]
    split
    · simp [keysBelow, ha, h.1]; simpa using h.2
    · split
      · simp [keysBelow, ha]; simpa using h.2
      · simp only [keysBelow, List.all_cons, Bool.and_eq_true, decide_eq_true_eq]; exact ⟨h.1, ih h.2⟩

/-- A put at a new key is another list. -/
theorem cellsFind_isSome_put (l : List (Nat × α)) (a b : Nat) (v : α) :
    (cellsFind (cellsPut l a v) b).isSome = (decide (b = a) || (cellsFind l b).isSome) := by
  rw [cellsFind_put]; split <;> simp_all

end Sys2Proof.Machine
end

