-- ==== Sys2Proof/Laws/State.lean ====
section
/-! SUPPORT. What each named update of the state leaves and changes: one lemma per field per update, so that no
later proof unfolds a record update. -/

namespace Sys2Proof.Machine

/-! ### `State.putByte` -/

@[simp] theorem State.putByte_params (s : State) (a : Nat) (v : Byte) : (s.putByte a v).params = s.params := rfl
@[simp] theorem State.putByte_irqEn (s : State) (a : Nat) (v : Byte) : (s.putByte a v).irqEn = s.irqEn := rfl
@[simp] theorem State.putByte_status (s : State) (a : Nat) (v : Byte) : (s.putByte a v).status = s.status := rfl
@[simp] theorem State.putByte_cfg (s : State) (a : Nat) (v : Byte) : (s.putByte a v).cfg = s.cfg := rfl
@[simp] theorem State.putByte_out (s : State) (a : Nat) (v : Byte) : (s.putByte a v).out = s.out := rfl
@[simp] theorem State.putByte_outSeen (s : State) (a : Nat) (v : Byte) : (s.putByte a v).outSeen = s.outSeen := rfl
@[simp] theorem State.putByte_lattice (s : State) (a : Nat) (v : Byte) : (s.putByte a v).lattice = s.lattice := rfl
@[simp] theorem State.putByte_eng (s : State) (a : Nat) (v : Byte) : (s.putByte a v).eng = s.eng := rfl
@[simp] theorem State.putByte_mem (s : State) (a : Nat) (v : Byte) : (s.putByte a v).mem = cellsPut s.mem a v := rfl
@[simp] theorem State.putByte_resets (s : State) (a : Nat) (v : Byte) : (s.putByte a v).resets = s.resets := rfl
@[simp] theorem State.putByte_draws (s : State) (a : Nat) (v : Byte) : (s.putByte a v).draws = s.draws := rfl
@[simp] theorem State.putByte_faulted (s : State) (a : Nat) (v : Byte) : (s.putByte a v).faulted = s.faulted := rfl
@[simp] theorem State.putByte_refused (s : State) (a : Nat) (v : Byte) : (s.putByte a v).refused = s.refused := rfl
@[simp] theorem State.putByte_guarded (s : State) (a : Nat) (v : Byte) : (s.putByte a v).guarded = s.guarded := rfl
@[simp] theorem State.putByte_raced (s : State) (a : Nat) (v : Byte) : (s.putByte a v).raced = s.raced := rfl
@[simp] theorem State.putByte_host (s : State) (a : Nat) (v : Byte) : (s.putByte a v).host = s.host := rfl
@[simp] theorem State.putByte_turns (s : State) (a : Nat) (v : Byte) : (s.putByte a v).turns = s.turns := rfl
@[simp] theorem State.putByte_observed (s : State) (a : Nat) (v : Byte) : (s.putByte a v).observed = s.observed := rfl

/-! ### `State.putChannel` -/

@[simp] theorem State.putChannel_params (s : State) (e : Nat) (n : Channel) (v : Chan) :
    (s.putChannel e n v).params = s.params := rfl
@[simp] theorem State.putChannel_irqEn (s : State) (e : Nat) (n : Channel) (v : Chan) :
    (s.putChannel e n v).irqEn = s.irqEn := rfl
@[simp] theorem State.putChannel_status (s : State) (e : Nat) (n : Channel) (v : Chan) :
    (s.putChannel e n v).status = s.status := rfl
@[simp] theorem State.putChannel_cfg (s : State) (e : Nat) (n : Channel) (v : Chan) :
    (s.putChannel e n v).cfg = s.cfg := rfl
@[simp] theorem State.putChannel_out (s : State) (e : Nat) (n : Channel) (v : Chan) :
    (s.putChannel e n v).out = s.out := rfl
@[simp] theorem State.putChannel_outSeen (s : State) (e : Nat) (n : Channel) (v : Chan) :
    (s.putChannel e n v).outSeen = s.outSeen := rfl
@[simp] theorem State.putChannel_lattice (s : State) (e : Nat) (n : Channel) (v : Chan) :
    (s.putChannel e n v).lattice = cellsPut s.lattice (latticeKey e n) v := rfl
@[simp] theorem State.putChannel_eng (s : State) (e : Nat) (n : Channel) (v : Chan) :
    (s.putChannel e n v).eng = s.eng := rfl
@[simp] theorem State.putChannel_mem (s : State) (e : Nat) (n : Channel) (v : Chan) :
    (s.putChannel e n v).mem = s.mem := rfl
@[simp] theorem State.putChannel_resets (s : State) (e : Nat) (n : Channel) (v : Chan) :
    (s.putChannel e n v).resets = s.resets := rfl
@[simp] theorem State.putChannel_draws (s : State) (e : Nat) (n : Channel) (v : Chan) :
    (s.putChannel e n v).draws = s.draws := rfl
@[simp] theorem State.putChannel_faulted (s : State) (e : Nat) (n : Channel) (v : Chan) :
    (s.putChannel e n v).faulted = s.faulted := rfl
@[simp] theorem State.putChannel_refused (s : State) (e : Nat) (n : Channel) (v : Chan) :
    (s.putChannel e n v).refused = s.refused := rfl
@[simp] theorem State.putChannel_guarded (s : State) (e : Nat) (n : Channel) (v : Chan) :
    (s.putChannel e n v).guarded = s.guarded := rfl
@[simp] theorem State.putChannel_raced (s : State) (e : Nat) (n : Channel) (v : Chan) :
    (s.putChannel e n v).raced = s.raced := rfl
@[simp] theorem State.putChannel_host (s : State) (e : Nat) (n : Channel) (v : Chan) :
    (s.putChannel e n v).host = s.host := rfl
@[simp] theorem State.putChannel_turns (s : State) (e : Nat) (n : Channel) (v : Chan) :
    (s.putChannel e n v).turns = s.turns := rfl
@[simp] theorem State.putChannel_observed (s : State) (e : Nat) (n : Channel) (v : Chan) :
    (s.putChannel e n v).observed = s.observed := rfl

/-! ### `State.putEntry` -/

@[simp] theorem State.putEntry_params (s : State) (e : Nat) (c : Color) : (s.putEntry e c).params = s.params := rfl
@[simp] theorem State.putEntry_irqEn (s : State) (e : Nat) (c : Color) : (s.putEntry e c).irqEn = s.irqEn := rfl
@[simp] theorem State.putEntry_status (s : State) (e : Nat) (c : Color) : (s.putEntry e c).status = s.status := rfl
@[simp] theorem State.putEntry_cfg (s : State) (e : Nat) (c : Color) : (s.putEntry e c).cfg = s.cfg := rfl
@[simp] theorem State.putEntry_out (s : State) (e : Nat) (c : Color) : (s.putEntry e c).out = s.out := rfl
@[simp] theorem State.putEntry_outSeen (s : State) (e : Nat) (c : Color) : (s.putEntry e c).outSeen = s.outSeen := rfl
@[simp] theorem State.putEntry_lattice (s : State) (e : Nat) (c : Color) :
    (s.putEntry e c).lattice = cellsPut (cellsPut (cellsPut s.lattice (latticeKey e .red) c.r) (latticeKey e .green) c.g)
      (latticeKey e .blue) c.b := rfl
@[simp] theorem State.putEntry_eng (s : State) (e : Nat) (c : Color) : (s.putEntry e c).eng = s.eng := rfl
@[simp] theorem State.putEntry_mem (s : State) (e : Nat) (c : Color) : (s.putEntry e c).mem = s.mem := rfl
@[simp] theorem State.putEntry_resets (s : State) (e : Nat) (c : Color) : (s.putEntry e c).resets = s.resets := rfl
@[simp] theorem State.putEntry_draws (s : State) (e : Nat) (c : Color) : (s.putEntry e c).draws = s.draws := rfl
@[simp] theorem State.putEntry_faulted (s : State) (e : Nat) (c : Color) : (s.putEntry e c).faulted = s.faulted := rfl
@[simp] theorem State.putEntry_refused (s : State) (e : Nat) (c : Color) : (s.putEntry e c).refused = s.refused := rfl
@[simp] theorem State.putEntry_guarded (s : State) (e : Nat) (c : Color) : (s.putEntry e c).guarded = s.guarded := rfl
@[simp] theorem State.putEntry_raced (s : State) (e : Nat) (c : Color) : (s.putEntry e c).raced = s.raced := rfl
@[simp] theorem State.putEntry_host (s : State) (e : Nat) (c : Color) : (s.putEntry e c).host = s.host := rfl
@[simp] theorem State.putEntry_turns (s : State) (e : Nat) (c : Color) : (s.putEntry e c).turns = s.turns := rfl
@[simp] theorem State.putEntry_observed (s : State) (e : Nat) (c : Color) :
    (s.putEntry e c).observed = s.observed := rfl

/-! ### `State.markFault` -/

@[simp] theorem State.markFault_params (s : State) (r : ModelFault) : (s.markFault r).params = s.params := rfl
@[simp] theorem State.markFault_irqEn (s : State) (r : ModelFault) : (s.markFault r).irqEn = s.irqEn := rfl
@[simp] theorem State.markFault_status (s : State) (r : ModelFault) : (s.markFault r).status = s.status := rfl
@[simp] theorem State.markFault_cfg (s : State) (r : ModelFault) : (s.markFault r).cfg = s.cfg := rfl
@[simp] theorem State.markFault_out (s : State) (r : ModelFault) : (s.markFault r).out = s.out := rfl
@[simp] theorem State.markFault_outSeen (s : State) (r : ModelFault) : (s.markFault r).outSeen = s.outSeen := rfl
@[simp] theorem State.markFault_lattice (s : State) (r : ModelFault) : (s.markFault r).lattice = s.lattice := rfl
@[simp] theorem State.markFault_eng (s : State) (r : ModelFault) : (s.markFault r).eng = s.eng := rfl
@[simp] theorem State.markFault_mem (s : State) (r : ModelFault) : (s.markFault r).mem = s.mem := rfl
@[simp] theorem State.markFault_resets (s : State) (r : ModelFault) : (s.markFault r).resets = s.resets := rfl
@[simp] theorem State.markFault_draws (s : State) (r : ModelFault) : (s.markFault r).draws = s.draws := rfl
@[simp] theorem State.markFault_faulted (s : State) (r : ModelFault) :
    (s.markFault r).faulted = some (s.faulted.getD r) := rfl
@[simp] theorem State.markFault_refused (s : State) (r : ModelFault) : (s.markFault r).refused = s.refused := rfl
@[simp] theorem State.markFault_guarded (s : State) (r : ModelFault) : (s.markFault r).guarded = s.guarded := rfl
@[simp] theorem State.markFault_raced (s : State) (r : ModelFault) : (s.markFault r).raced = s.raced := rfl
@[simp] theorem State.markFault_host (s : State) (r : ModelFault) : (s.markFault r).host = s.host := rfl
@[simp] theorem State.markFault_turns (s : State) (r : ModelFault) : (s.markFault r).turns = s.turns := rfl
@[simp] theorem State.markFault_observed (s : State) (r : ModelFault) : (s.markFault r).observed = s.observed := rfl

/-! ### `State.markRefused` -/

@[simp] theorem State.markRefused_params (s : State) : s.markRefused.params = s.params := rfl
@[simp] theorem State.markRefused_irqEn (s : State) : s.markRefused.irqEn = s.irqEn := rfl
@[simp] theorem State.markRefused_status (s : State) : s.markRefused.status = s.status := rfl
@[simp] theorem State.markRefused_cfg (s : State) : s.markRefused.cfg = s.cfg := rfl
@[simp] theorem State.markRefused_out (s : State) : s.markRefused.out = s.out := rfl
@[simp] theorem State.markRefused_outSeen (s : State) : s.markRefused.outSeen = s.outSeen := rfl
@[simp] theorem State.markRefused_lattice (s : State) : s.markRefused.lattice = s.lattice := rfl
@[simp] theorem State.markRefused_eng (s : State) : s.markRefused.eng = s.eng := rfl
@[simp] theorem State.markRefused_mem (s : State) : s.markRefused.mem = s.mem := rfl
@[simp] theorem State.markRefused_resets (s : State) : s.markRefused.resets = s.resets := rfl
@[simp] theorem State.markRefused_draws (s : State) : s.markRefused.draws = s.draws := rfl
@[simp] theorem State.markRefused_faulted (s : State) : s.markRefused.faulted = s.faulted := rfl
@[simp] theorem State.markRefused_refused (s : State) : s.markRefused.refused = true := rfl
@[simp] theorem State.markRefused_guarded (s : State) : s.markRefused.guarded = s.guarded := rfl
@[simp] theorem State.markRefused_raced (s : State) : s.markRefused.raced = s.raced := rfl
@[simp] theorem State.markRefused_host (s : State) : s.markRefused.host = s.host := rfl
@[simp] theorem State.markRefused_turns (s : State) : s.markRefused.turns = s.turns := rfl
@[simp] theorem State.markRefused_observed (s : State) : s.markRefused.observed = s.observed := rfl

/-! ### `State.recordObs` -/

@[simp] theorem State.recordObs_params (s : State) (o : Observation) : (s.recordObs o).params = s.params := rfl
@[simp] theorem State.recordObs_irqEn (s : State) (o : Observation) : (s.recordObs o).irqEn = s.irqEn := rfl
@[simp] theorem State.recordObs_status (s : State) (o : Observation) : (s.recordObs o).status = s.status := rfl
@[simp] theorem State.recordObs_cfg (s : State) (o : Observation) : (s.recordObs o).cfg = s.cfg := rfl
@[simp] theorem State.recordObs_out (s : State) (o : Observation) : (s.recordObs o).out = s.out := rfl
@[simp] theorem State.recordObs_outSeen (s : State) (o : Observation) : (s.recordObs o).outSeen = s.outSeen := rfl
@[simp] theorem State.recordObs_lattice (s : State) (o : Observation) : (s.recordObs o).lattice = s.lattice := rfl
@[simp] theorem State.recordObs_eng (s : State) (o : Observation) : (s.recordObs o).eng = s.eng := rfl
@[simp] theorem State.recordObs_mem (s : State) (o : Observation) : (s.recordObs o).mem = s.mem := rfl
@[simp] theorem State.recordObs_resets (s : State) (o : Observation) : (s.recordObs o).resets = s.resets := rfl
@[simp] theorem State.recordObs_draws (s : State) (o : Observation) : (s.recordObs o).draws = s.draws := rfl
@[simp] theorem State.recordObs_faulted (s : State) (o : Observation) : (s.recordObs o).faulted = s.faulted := rfl
@[simp] theorem State.recordObs_refused (s : State) (o : Observation) : (s.recordObs o).refused = s.refused := rfl
@[simp] theorem State.recordObs_guarded (s : State) (o : Observation) : (s.recordObs o).guarded = s.guarded := rfl
@[simp] theorem State.recordObs_raced (s : State) (o : Observation) : (s.recordObs o).raced = s.raced := rfl
@[simp] theorem State.recordObs_host (s : State) (o : Observation) : (s.recordObs o).host = s.host := rfl
@[simp] theorem State.recordObs_turns (s : State) (o : Observation) : (s.recordObs o).turns = s.turns := rfl
@[simp] theorem State.recordObs_observed (s : State) (o : Observation) :
    (s.recordObs o).observed = o :: s.observed := rfl

/-! ### `State.complete` -/

@[simp] theorem State.complete_params (s : State) (code : ErrCode) : (s.complete code).params = s.params := rfl
@[simp] theorem State.complete_irqEn (s : State) (code : ErrCode) : (s.complete code).irqEn = s.irqEn := rfl
@[simp] theorem State.complete_status (s : State) (code : ErrCode) :
    (s.complete code).status = { s.status with busy := false, done := true, err := code } := rfl
@[simp] theorem State.complete_cfg (s : State) (code : ErrCode) : (s.complete code).cfg = s.cfg := rfl
@[simp] theorem State.complete_out (s : State) (code : ErrCode) : (s.complete code).out = s.out := rfl
@[simp] theorem State.complete_outSeen (s : State) (code : ErrCode) :
    (s.complete code).outSeen = if s.irqEn then s.out else s.outSeen := rfl
@[simp] theorem State.complete_lattice (s : State) (code : ErrCode) : (s.complete code).lattice = s.lattice := rfl
@[simp] theorem State.complete_eng (s : State) (code : ErrCode) : (s.complete code).eng = .idle := rfl
@[simp] theorem State.complete_mem (s : State) (code : ErrCode) : (s.complete code).mem = s.mem := rfl
@[simp] theorem State.complete_resets (s : State) (code : ErrCode) : (s.complete code).resets = s.resets := rfl
@[simp] theorem State.complete_draws (s : State) (code : ErrCode) : (s.complete code).draws = s.draws := rfl
@[simp] theorem State.complete_faulted (s : State) (code : ErrCode) : (s.complete code).faulted = s.faulted := rfl
@[simp] theorem State.complete_refused (s : State) (code : ErrCode) : (s.complete code).refused = s.refused := rfl
@[simp] theorem State.complete_guarded (s : State) (code : ErrCode) :
    (s.complete code).guarded = if s.irqEn then [] else s.guarded := rfl
@[simp] theorem State.complete_raced (s : State) (code : ErrCode) : (s.complete code).raced = s.raced := rfl
@[simp] theorem State.complete_host (s : State) (code : ErrCode) : (s.complete code).host = s.host := rfl
@[simp] theorem State.complete_turns (s : State) (code : ErrCode) : (s.complete code).turns = s.turns := rfl
@[simp] theorem State.complete_observed (s : State) (code : ErrCode) : (s.complete code).observed = s.observed := rfl

/-! ### `State.observeCompletion` -/

@[simp] theorem State.observeCompletion_params (s : State) : s.observeCompletion.params = s.params := rfl
@[simp] theorem State.observeCompletion_irqEn (s : State) : s.observeCompletion.irqEn = s.irqEn := rfl
@[simp] theorem State.observeCompletion_status (s : State) : s.observeCompletion.status = s.status := rfl
@[simp] theorem State.observeCompletion_cfg (s : State) : s.observeCompletion.cfg = s.cfg := rfl
@[simp] theorem State.observeCompletion_out (s : State) : s.observeCompletion.out = s.out := rfl
@[simp] theorem State.observeCompletion_outSeen (s : State) : s.observeCompletion.outSeen = s.out := rfl
@[simp] theorem State.observeCompletion_lattice (s : State) : s.observeCompletion.lattice = s.lattice := rfl
@[simp] theorem State.observeCompletion_eng (s : State) : s.observeCompletion.eng = s.eng := rfl
@[simp] theorem State.observeCompletion_mem (s : State) : s.observeCompletion.mem = s.mem := rfl
@[simp] theorem State.observeCompletion_resets (s : State) : s.observeCompletion.resets = s.resets := rfl
@[simp] theorem State.observeCompletion_draws (s : State) : s.observeCompletion.draws = s.draws := rfl
@[simp] theorem State.observeCompletion_faulted (s : State) : s.observeCompletion.faulted = s.faulted := rfl
@[simp] theorem State.observeCompletion_refused (s : State) : s.observeCompletion.refused = s.refused := rfl
@[simp] theorem State.observeCompletion_guarded (s : State) : s.observeCompletion.guarded = [] := rfl
@[simp] theorem State.observeCompletion_raced (s : State) : s.observeCompletion.raced = s.raced := rfl
@[simp] theorem State.observeCompletion_host (s : State) : s.observeCompletion.host = s.host := rfl
@[simp] theorem State.observeCompletion_turns (s : State) : s.observeCompletion.turns = s.turns := rfl
@[simp] theorem State.observeCompletion_observed (s : State) : s.observeCompletion.observed = s.observed := rfl

/-! ### `State.accept` -/

@[simp] theorem State.accept_params (s : State) (w : Word) : (s.accept w).params = s.params := rfl
@[simp] theorem State.accept_irqEn (s : State) (w : Word) : (s.accept w).irqEn = s.irqEn := rfl
@[simp] theorem State.accept_status (s : State) (w : Word) : (s.accept w).status = acceptStatus s.status := rfl
@[simp] theorem State.accept_cfg (s : State) (w : Word) : (s.accept w).cfg = s.cfg := rfl
@[simp] theorem State.accept_out (s : State) (w : Word) : (s.accept w).out = s.out := rfl
@[simp] theorem State.accept_outSeen (s : State) (w : Word) : (s.accept w).outSeen = s.out := rfl
@[simp] theorem State.accept_lattice (s : State) (w : Word) : (s.accept w).lattice = s.lattice := rfl
@[simp] theorem State.accept_eng (s : State) (w : Word) : (s.accept w).eng = .pending w := rfl
@[simp] theorem State.accept_mem (s : State) (w : Word) : (s.accept w).mem = s.mem := rfl
@[simp] theorem State.accept_resets (s : State) (w : Word) : (s.accept w).resets = s.resets := rfl
@[simp] theorem State.accept_draws (s : State) (w : Word) : (s.accept w).draws = s.draws := rfl
@[simp] theorem State.accept_faulted (s : State) (w : Word) : (s.accept w).faulted = s.faulted := rfl
@[simp] theorem State.accept_refused (s : State) (w : Word) : (s.accept w).refused = s.refused := rfl
@[simp] theorem State.accept_guarded (s : State) (w : Word) :
    (s.accept w).guarded = (wordRanges s.cfg w).1 :: (wordRanges s.cfg w).2 :: s.guarded := rfl
@[simp] theorem State.accept_raced (s : State) (w : Word) : (s.accept w).raced = s.raced := rfl
@[simp] theorem State.accept_host (s : State) (w : Word) : (s.accept w).host = s.host := rfl
@[simp] theorem State.accept_turns (s : State) (w : Word) : (s.accept w).turns = s.turns := rfl
@[simp] theorem State.accept_observed (s : State) (w : Word) : (s.accept w).observed = s.observed := rfl

/-! ### `State.scrub`: only memory and the counter of free bytes change -/

@[simp] theorem State.scrub_params (s : State) (as : List Nat) : (s.scrub as).params = s.params := by
  induction as generalizing s with
  | nil => rfl
  | cons a as ih => exact ih _
@[simp] theorem State.scrub_irqEn (s : State) (as : List Nat) : (s.scrub as).irqEn = s.irqEn := by
  induction as generalizing s with
  | nil => rfl
  | cons a as ih => exact ih _
@[simp] theorem State.scrub_status (s : State) (as : List Nat) : (s.scrub as).status = s.status := by
  induction as generalizing s with
  | nil => rfl
  | cons a as ih => exact ih _
@[simp] theorem State.scrub_cfg (s : State) (as : List Nat) : (s.scrub as).cfg = s.cfg := by
  induction as generalizing s with
  | nil => rfl
  | cons a as ih => exact ih _
@[simp] theorem State.scrub_out (s : State) (as : List Nat) : (s.scrub as).out = s.out := by
  induction as generalizing s with
  | nil => rfl
  | cons a as ih => exact ih _
@[simp] theorem State.scrub_outSeen (s : State) (as : List Nat) : (s.scrub as).outSeen = s.outSeen := by
  induction as generalizing s with
  | nil => rfl
  | cons a as ih => exact ih _
@[simp] theorem State.scrub_lattice (s : State) (as : List Nat) : (s.scrub as).lattice = s.lattice := by
  induction as generalizing s with
  | nil => rfl
  | cons a as ih => exact ih _
@[simp] theorem State.scrub_eng (s : State) (as : List Nat) : (s.scrub as).eng = s.eng := by
  induction as generalizing s with
  | nil => rfl
  | cons a as ih => exact ih _
@[simp] theorem State.scrub_resets (s : State) (as : List Nat) : (s.scrub as).resets = s.resets := by
  induction as generalizing s with
  | nil => rfl
  | cons a as ih => exact ih _
@[simp] theorem State.scrub_faulted (s : State) (as : List Nat) : (s.scrub as).faulted = s.faulted := by
  induction as generalizing s with
  | nil => rfl
  | cons a as ih => exact ih _
@[simp] theorem State.scrub_refused (s : State) (as : List Nat) : (s.scrub as).refused = s.refused := by
  induction as generalizing s with
  | nil => rfl
  | cons a as ih => exact ih _
@[simp] theorem State.scrub_guarded (s : State) (as : List Nat) : (s.scrub as).guarded = s.guarded := by
  induction as generalizing s with
  | nil => rfl
  | cons a as ih => exact ih _
@[simp] theorem State.scrub_raced (s : State) (as : List Nat) : (s.scrub as).raced = s.raced := by
  induction as generalizing s with
  | nil => rfl
  | cons a as ih => exact ih _
@[simp] theorem State.scrub_host (s : State) (as : List Nat) : (s.scrub as).host = s.host := by
  induction as generalizing s with
  | nil => rfl
  | cons a as ih => exact ih _
@[simp] theorem State.scrub_turns (s : State) (as : List Nat) : (s.scrub as).turns = s.turns := by
  induction as generalizing s with
  | nil => rfl
  | cons a as ih => exact ih _
@[simp] theorem State.scrub_observed (s : State) (as : List Nat) : (s.scrub as).observed = s.observed := by
  induction as generalizing s with
  | nil => rfl
  | cons a as ih => exact ih _
@[simp] theorem State.scrub_nil (s : State) : s.scrub [] = s := rfl
theorem State.scrub_draws (s : State) (as : List Nat) : (s.scrub as).draws = s.draws + as.length := by
  induction as generalizing s with
  | nil => rfl
  | cons a as ih => rw [State.scrub, ih]; simp only [List.length_cons]; omega

/-! ### `State.putEntries`: only the lattice changes -/

@[simp] theorem State.putEntries_params (s : State) (l : List (Nat × Color)) : (s.putEntries l).params = s.params := by
  induction l generalizing s with
  | nil => rfl
  | cons p l ih => exact ih _
@[simp] theorem State.putEntries_irqEn (s : State) (l : List (Nat × Color)) : (s.putEntries l).irqEn = s.irqEn := by
  induction l generalizing s with
  | nil => rfl
  | cons p l ih => exact ih _
@[simp] theorem State.putEntries_status (s : State) (l : List (Nat × Color)) : (s.putEntries l).status = s.status := by
  induction l generalizing s with
  | nil => rfl
  | cons p l ih => exact ih _
@[simp] theorem State.putEntries_cfg (s : State) (l : List (Nat × Color)) : (s.putEntries l).cfg = s.cfg := by
  induction l generalizing s with
  | nil => rfl
  | cons p l ih => exact ih _
@[simp] theorem State.putEntries_out (s : State) (l : List (Nat × Color)) : (s.putEntries l).out = s.out := by
  induction l generalizing s with
  | nil => rfl
  | cons p l ih => exact ih _
@[simp] theorem State.putEntries_outSeen (s : State) (l : List (Nat × Color)) : (s.putEntries l).outSeen = s.outSeen := by
  induction l generalizing s with
  | nil => rfl
  | cons p l ih => exact ih _
@[simp] theorem State.putEntries_eng (s : State) (l : List (Nat × Color)) : (s.putEntries l).eng = s.eng := by
  induction l generalizing s with
  | nil => rfl
  | cons p l ih => exact ih _
@[simp] theorem State.putEntries_mem (s : State) (l : List (Nat × Color)) : (s.putEntries l).mem = s.mem := by
  induction l generalizing s with
  | nil => rfl
  | cons p l ih => exact ih _
@[simp] theorem State.putEntries_resets (s : State) (l : List (Nat × Color)) : (s.putEntries l).resets = s.resets := by
  induction l generalizing s with
  | nil => rfl
  | cons p l ih => exact ih _
@[simp] theorem State.putEntries_draws (s : State) (l : List (Nat × Color)) : (s.putEntries l).draws = s.draws := by
  induction l generalizing s with
  | nil => rfl
  | cons p l ih => exact ih _
@[simp] theorem State.putEntries_faulted (s : State) (l : List (Nat × Color)) : (s.putEntries l).faulted = s.faulted := by
  induction l generalizing s with
  | nil => rfl
  | cons p l ih => exact ih _
@[simp] theorem State.putEntries_refused (s : State) (l : List (Nat × Color)) : (s.putEntries l).refused = s.refused := by
  induction l generalizing s with
  | nil => rfl
  | cons p l ih => exact ih _
@[simp] theorem State.putEntries_guarded (s : State) (l : List (Nat × Color)) : (s.putEntries l).guarded = s.guarded := by
  induction l generalizing s with
  | nil => rfl
  | cons p l ih => exact ih _
@[simp] theorem State.putEntries_raced (s : State) (l : List (Nat × Color)) : (s.putEntries l).raced = s.raced := by
  induction l generalizing s with
  | nil => rfl
  | cons p l ih => exact ih _
@[simp] theorem State.putEntries_host (s : State) (l : List (Nat × Color)) : (s.putEntries l).host = s.host := by
  induction l generalizing s with
  | nil => rfl
  | cons p l ih => exact ih _
@[simp] theorem State.putEntries_turns (s : State) (l : List (Nat × Color)) : (s.putEntries l).turns = s.turns := by
  induction l generalizing s with
  | nil => rfl
  | cons p l ih => exact ih _
@[simp] theorem State.putEntries_observed (s : State) (l : List (Nat × Color)) : (s.putEntries l).observed = s.observed := by
  induction l generalizing s with
  | nil => rfl
  | cons p l ih => exact ih _

/-! ### `State.markUninit` -/

@[simp] theorem State.markUninit_params (s : State) (b : Bool) : (s.markUninit b).params = s.params := by
  cases b <;> rfl
@[simp] theorem State.markUninit_irqEn (s : State) (b : Bool) : (s.markUninit b).irqEn = s.irqEn := by
  cases b <;> rfl
@[simp] theorem State.markUninit_status (s : State) (b : Bool) : (s.markUninit b).status = s.status := by
  cases b <;> rfl
@[simp] theorem State.markUninit_cfg (s : State) (b : Bool) : (s.markUninit b).cfg = s.cfg := by
  cases b <;> rfl
@[simp] theorem State.markUninit_out (s : State) (b : Bool) : (s.markUninit b).out = s.out := by
  cases b <;> rfl
@[simp] theorem State.markUninit_outSeen (s : State) (b : Bool) : (s.markUninit b).outSeen = s.outSeen := by
  cases b <;> rfl
@[simp] theorem State.markUninit_lattice (s : State) (b : Bool) : (s.markUninit b).lattice = s.lattice := by
  cases b <;> rfl
@[simp] theorem State.markUninit_eng (s : State) (b : Bool) : (s.markUninit b).eng = s.eng := by
  cases b <;> rfl
@[simp] theorem State.markUninit_mem (s : State) (b : Bool) : (s.markUninit b).mem = s.mem := by
  cases b <;> rfl
@[simp] theorem State.markUninit_resets (s : State) (b : Bool) : (s.markUninit b).resets = s.resets := by
  cases b <;> rfl
@[simp] theorem State.markUninit_draws (s : State) (b : Bool) : (s.markUninit b).draws = s.draws := by
  cases b <;> rfl
@[simp] theorem State.markUninit_refused (s : State) (b : Bool) : (s.markUninit b).refused = s.refused := by
  cases b <;> rfl
@[simp] theorem State.markUninit_guarded (s : State) (b : Bool) : (s.markUninit b).guarded = s.guarded := by
  cases b <;> rfl
@[simp] theorem State.markUninit_raced (s : State) (b : Bool) : (s.markUninit b).raced = s.raced := by
  cases b <;> rfl
@[simp] theorem State.markUninit_host (s : State) (b : Bool) : (s.markUninit b).host = s.host := by
  cases b <;> rfl
@[simp] theorem State.markUninit_turns (s : State) (b : Bool) : (s.markUninit b).turns = s.turns := by
  cases b <;> rfl
@[simp] theorem State.markUninit_observed (s : State) (b : Bool) : (s.markUninit b).observed = s.observed := by
  cases b <;> rfl

@[simp] theorem State.markUninit_true (s : State) : s.markUninit true = s := rfl
@[simp] theorem State.markUninit_false (s : State) : s.markUninit false = s.markFault .uninitLattice := rfl

/-! ### `State.writeWindow` -/

@[simp] theorem State.writeWindow_params (s : State) (n : Channel) (d : Word) : (s.writeWindow n d).params = s.params := by
  unfold State.writeWindow; split <;> rfl
@[simp] theorem State.writeWindow_irqEn (s : State) (n : Channel) (d : Word) : (s.writeWindow n d).irqEn = s.irqEn := by
  unfold State.writeWindow; split <;> rfl
@[simp] theorem State.writeWindow_status (s : State) (n : Channel) (d : Word) : (s.writeWindow n d).status = s.status := by
  unfold State.writeWindow; split <;> rfl
@[simp] theorem State.writeWindow_cfg (s : State) (n : Channel) (d : Word) : (s.writeWindow n d).cfg = s.cfg := by
  unfold State.writeWindow; split <;> rfl
@[simp] theorem State.writeWindow_out (s : State) (n : Channel) (d : Word) : (s.writeWindow n d).out = s.out := by
  unfold State.writeWindow; split <;> rfl
@[simp] theorem State.writeWindow_outSeen (s : State) (n : Channel) (d : Word) : (s.writeWindow n d).outSeen = s.outSeen := by
  unfold State.writeWindow; split <;> rfl
@[simp] theorem State.writeWindow_eng (s : State) (n : Channel) (d : Word) : (s.writeWindow n d).eng = s.eng := by
  unfold State.writeWindow; split <;> rfl
@[simp] theorem State.writeWindow_mem (s : State) (n : Channel) (d : Word) : (s.writeWindow n d).mem = s.mem := by
  unfold State.writeWindow; split <;> rfl
@[simp] theorem State.writeWindow_resets (s : State) (n : Channel) (d : Word) : (s.writeWindow n d).resets = s.resets := by
  unfold State.writeWindow; split <;> rfl
@[simp] theorem State.writeWindow_draws (s : State) (n : Channel) (d : Word) : (s.writeWindow n d).draws = s.draws := by
  unfold State.writeWindow; split <;> rfl
@[simp] theorem State.writeWindow_faulted (s : State) (n : Channel) (d : Word) : (s.writeWindow n d).faulted = s.faulted := by
  unfold State.writeWindow; split <;> rfl
@[simp] theorem State.writeWindow_refused (s : State) (n : Channel) (d : Word) : (s.writeWindow n d).refused = s.refused := by
  unfold State.writeWindow; split <;> rfl
@[simp] theorem State.writeWindow_guarded (s : State) (n : Channel) (d : Word) : (s.writeWindow n d).guarded = s.guarded := by
  unfold State.writeWindow; split <;> rfl
@[simp] theorem State.writeWindow_raced (s : State) (n : Channel) (d : Word) : (s.writeWindow n d).raced = s.raced := by
  unfold State.writeWindow; split <;> rfl
@[simp] theorem State.writeWindow_host (s : State) (n : Channel) (d : Word) : (s.writeWindow n d).host = s.host := by
  unfold State.writeWindow; split <;> rfl
@[simp] theorem State.writeWindow_turns (s : State) (n : Channel) (d : Word) : (s.writeWindow n d).turns = s.turns := by
  unfold State.writeWindow; split <;> rfl
@[simp] theorem State.writeWindow_observed (s : State) (n : Channel) (d : Word) : (s.writeWindow n d).observed = s.observed := by
  unfold State.writeWindow; split <;> rfl

/-! ### `State.observeIrq` -/

@[simp] theorem State.observeIrq_params (s : State) : s.observeIrq.params = s.params := by
  unfold State.observeIrq; split <;> rfl
@[simp] theorem State.observeIrq_irqEn (s : State) : s.observeIrq.irqEn = s.irqEn := by
  unfold State.observeIrq; split <;> rfl
@[simp] theorem State.observeIrq_status (s : State) : s.observeIrq.status = s.status := by
  unfold State.observeIrq; split <;> rfl
@[simp] theorem State.observeIrq_cfg (s : State) : s.observeIrq.cfg = s.cfg := by
  unfold State.observeIrq; split <;> rfl
@[simp] theorem State.observeIrq_out (s : State) : s.observeIrq.out = s.out := by
  unfold State.observeIrq; split <;> rfl
@[simp] theorem State.observeIrq_lattice (s : State) : s.observeIrq.lattice = s.lattice := by
  unfold State.observeIrq; split <;> rfl
@[simp] theorem State.observeIrq_eng (s : State) : s.observeIrq.eng = s.eng := by
  unfold State.observeIrq; split <;> rfl
@[simp] theorem State.observeIrq_mem (s : State) : s.observeIrq.mem = s.mem := by
  unfold State.observeIrq; split <;> rfl
@[simp] theorem State.observeIrq_resets (s : State) : s.observeIrq.resets = s.resets := by
  unfold State.observeIrq; split <;> rfl
@[simp] theorem State.observeIrq_draws (s : State) : s.observeIrq.draws = s.draws := by
  unfold State.observeIrq; split <;> rfl
@[simp] theorem State.observeIrq_faulted (s : State) : s.observeIrq.faulted = s.faulted := by
  unfold State.observeIrq; split <;> rfl
@[simp] theorem State.observeIrq_refused (s : State) : s.observeIrq.refused = s.refused := by
  unfold State.observeIrq; split <;> rfl
@[simp] theorem State.observeIrq_guarded (s : State) :
    s.observeIrq.guarded = if s.irq then [] else s.guarded := by
  unfold State.observeIrq; split <;> rfl
@[simp] theorem State.observeIrq_outSeen (s : State) :
    s.observeIrq.outSeen = if s.irq then s.out else s.outSeen := by
  unfold State.observeIrq; split <;> rfl
@[simp] theorem State.observeIrq_raced (s : State) : s.observeIrq.raced = s.raced := by
  unfold State.observeIrq; split <;> rfl
@[simp] theorem State.observeIrq_host (s : State) : s.observeIrq.host = s.host := by
  unfold State.observeIrq; split <;> rfl
@[simp] theorem State.observeIrq_turns (s : State) : s.observeIrq.turns = s.turns := by
  unfold State.observeIrq; split <;> rfl
@[simp] theorem State.observeIrq_observed (s : State) : s.observeIrq.observed = s.observed := by
  unfold State.observeIrq; split <;> rfl

/-! ### `State.spendTurn` -/

@[simp] theorem State.spendTurn_params (s : State) : s.spendTurn.params = s.params := by
  unfold State.spendTurn; split <;> rfl
@[simp] theorem State.spendTurn_irqEn (s : State) : s.spendTurn.irqEn = s.irqEn := by
  unfold State.spendTurn; split <;> rfl
@[simp] theorem State.spendTurn_status (s : State) : s.spendTurn.status = s.status := by
  unfold State.spendTurn; split <;> rfl
@[simp] theorem State.spendTurn_cfg (s : State) : s.spendTurn.cfg = s.cfg := by
  unfold State.spendTurn; split <;> rfl
@[simp] theorem State.spendTurn_out (s : State) : s.spendTurn.out = s.out := by
  unfold State.spendTurn; split <;> rfl
@[simp] theorem State.spendTurn_outSeen (s : State) : s.spendTurn.outSeen = s.outSeen := by
  unfold State.spendTurn; split <;> rfl
@[simp] theorem State.spendTurn_lattice (s : State) : s.spendTurn.lattice = s.lattice := by
  unfold State.spendTurn; split <;> rfl
@[simp] theorem State.spendTurn_eng (s : State) : s.spendTurn.eng = s.eng := by
  unfold State.spendTurn; split <;> rfl
@[simp] theorem State.spendTurn_mem (s : State) : s.spendTurn.mem = s.mem := by
  unfold State.spendTurn; split <;> rfl
@[simp] theorem State.spendTurn_resets (s : State) : s.spendTurn.resets = s.resets := by
  unfold State.spendTurn; split <;> rfl
@[simp] theorem State.spendTurn_draws (s : State) : s.spendTurn.draws = s.draws := by
  unfold State.spendTurn; split <;> rfl
@[simp] theorem State.spendTurn_faulted (s : State) : s.spendTurn.faulted = s.faulted := by
  unfold State.spendTurn; split <;> rfl
@[simp] theorem State.spendTurn_refused (s : State) : s.spendTurn.refused = s.refused := by
  unfold State.spendTurn; split <;> rfl
@[simp] theorem State.spendTurn_guarded (s : State) : s.spendTurn.guarded = s.guarded := by
  unfold State.spendTurn; split <;> rfl
@[simp] theorem State.spendTurn_raced (s : State) : s.spendTurn.raced = s.raced := by
  unfold State.spendTurn; split <;> rfl
@[simp] theorem State.spendTurn_host (s : State) : s.spendTurn.host = s.host := by
  unfold State.spendTurn; split <;> rfl
@[simp] theorem State.spendTurn_observed (s : State) : s.spendTurn.observed = s.observed := by
  unfold State.spendTurn; split <;> rfl

/-! ### `State.raiseError` -/

@[simp] theorem State.raiseError_params (s : State) (dest : AddrRange) (code : ErrCode) :
    (s.raiseError dest code).params = s.params := by
  unfold State.raiseError; split <;> simp
@[simp] theorem State.raiseError_irqEn (s : State) (dest : AddrRange) (code : ErrCode) :
    (s.raiseError dest code).irqEn = s.irqEn := by
  unfold State.raiseError; split <;> simp
@[simp] theorem State.raiseError_status (s : State) (dest : AddrRange) (code : ErrCode) :
    (s.raiseError dest code).status = { s.status with busy := false, done := true, err := code } := by
  unfold State.raiseError; split <;> simp
@[simp] theorem State.raiseError_cfg (s : State) (dest : AddrRange) (code : ErrCode) :
    (s.raiseError dest code).cfg = s.cfg := by
  unfold State.raiseError; split <;> simp
@[simp] theorem State.raiseError_out (s : State) (dest : AddrRange) (code : ErrCode) :
    (s.raiseError dest code).out = s.out := by
  unfold State.raiseError; split <;> simp
@[simp] theorem State.raiseError_outSeen (s : State) (dest : AddrRange) (code : ErrCode) :
    (s.raiseError dest code).outSeen = if s.irqEn then s.out else s.outSeen := by
  unfold State.raiseError; split <;> simp
@[simp] theorem State.raiseError_lattice (s : State) (dest : AddrRange) (code : ErrCode) :
    (s.raiseError dest code).lattice = s.lattice := by
  unfold State.raiseError; split <;> simp
@[simp] theorem State.raiseError_eng (s : State) (dest : AddrRange) (code : ErrCode) :
    (s.raiseError dest code).eng = .idle := by
  unfold State.raiseError; split <;> simp
@[simp] theorem State.raiseError_resets (s : State) (dest : AddrRange) (code : ErrCode) :
    (s.raiseError dest code).resets = s.resets := by
  unfold State.raiseError; split <;> simp
@[simp] theorem State.raiseError_faulted (s : State) (dest : AddrRange) (code : ErrCode) :
    (s.raiseError dest code).faulted = s.faulted := by
  unfold State.raiseError; split <;> simp
@[simp] theorem State.raiseError_refused (s : State) (dest : AddrRange) (code : ErrCode) :
    (s.raiseError dest code).refused = s.refused := by
  unfold State.raiseError; split <;> simp
@[simp] theorem State.raiseError_guarded (s : State) (dest : AddrRange) (code : ErrCode) :
    (s.raiseError dest code).guarded = if s.irqEn then [] else s.guarded := by
  unfold State.raiseError; split <;> simp
@[simp] theorem State.raiseError_raced (s : State) (dest : AddrRange) (code : ErrCode) :
    (s.raiseError dest code).raced = s.raced := by
  unfold State.raiseError; split <;> simp
@[simp] theorem State.raiseError_host (s : State) (dest : AddrRange) (code : ErrCode) :
    (s.raiseError dest code).host = s.host := by
  unfold State.raiseError; split <;> simp
@[simp] theorem State.raiseError_turns (s : State) (dest : AddrRange) (code : ErrCode) :
    (s.raiseError dest code).turns = s.turns := by
  unfold State.raiseError; split <;> simp
@[simp] theorem State.raiseError_observed (s : State) (dest : AddrRange) (code : ErrCode) :
    (s.raiseError dest code).observed = s.observed := by
  unfold State.raiseError; split <;> simp

/-- The abort is precise for every code but ERR_BUS (R236). -/
theorem State.raiseError_precise (s : State) (dest : AddrRange) {code : ErrCode} (h : code ≠ .bus) :
    s.raiseError dest code = s.complete code := by
  simp [State.raiseError, h]

/-- After ERR_BUS the destination range is scrubbed (R237). -/
theorem State.raiseError_bus (s : State) (dest : AddrRange) :
    s.raiseError dest .bus = (s.scrub dest.addresses).complete .bus := by
  simp [State.raiseError]

end Sys2Proof.Machine
end

