-- ==== Sys2Proof/Laws/Memory.lean ====
section
/-! SUPPORT. What the operations over buffer memory do: reads, writes, byte strings, grids and free bytes
(20_memory.md R62, R63, R70; 60_exceptions.md R237). -/

namespace Sys2Proof.Machine

/-! ### Ranges -/

theorem range_contains_iff (r : AddrRange) (a : Nat) :
    r.contains a = true ↔ r.base ≤ a ∧ a < r.base + r.len := by
  simp [Sys2Proof.AddrRange.contains]

theorem range_fits_iff (r : AddrRange) : r.fits = true ↔ r.base + r.len ≤ memBytes := by
  simp [Sys2Proof.AddrRange.fits]

theorem range_overlaps_iff (r q : AddrRange) :
    r.overlaps q = true ↔ ∃ a, r.contains a = true ∧ q.contains a = true := by
  simp only [Sys2Proof.AddrRange.overlaps, Bool.and_eq_true, decide_eq_true_eq, range_contains_iff]
  constructor
  · rintro ⟨⟨⟨h1, h2⟩, h3⟩, h4⟩
    by_cases h : r.base ≤ q.base
    · exact ⟨q.base, by omega, by omega⟩
    · exact ⟨r.base, by omega, by omega⟩
  · rintro ⟨a, h1, h2⟩; omega

theorem range_mem_addresses (r : AddrRange) (a : Nat) :
    a ∈ r.addresses ↔ r.contains a = true ∧ a < memBytes := by
  simp only [Sys2Proof.AddrRange.addresses, List.mem_filter, List.mem_map, List.mem_range, decide_eq_true_eq,
    range_contains_iff]
  constructor
  · rintro ⟨⟨k, hk, rfl⟩, h⟩; omega
  · rintro ⟨⟨h1, h2⟩, h3⟩; exact ⟨⟨a - r.base, by omega, by omega⟩, h3⟩

@[simp] theorem range_addresses_empty : AddrRange.empty.addresses = [] := rfl

/-! ### Bytes -/

@[simp] theorem byteAt_put_same (m : List Host.Cell) (a : Nat) (v : Byte) : byteAt (cellsPut m a v) a = v := by
  simp [byteAt]

theorem byteAt_put_other (m : List Host.Cell) {a b : Nat} (v : Byte) (h : b ≠ a) :
    byteAt (cellsPut m a v) b = byteAt m b := by
  simp [byteAt, cellsFind_put_other m v h]

theorem Memory.wf_put {m : List Host.Cell} {a : Nat} (v : Byte) (h : Memory.wf m = true) (ha : a < memBytes) :
    Memory.wf (cellsPut m a v) = true := by
  simp only [Memory.wf, Bool.and_eq_true] at *
  exact ⟨rising_put a v h.1, keysBelow_put v h.2 ha⟩

theorem memRead8_ok {s : State} {a : Nat} (h : s.params.admits a = true) : memRead8 s a = .ok (byteAt s.mem a) := by
  simp [memRead8, h]

theorem memRead8_error {s : State} {a : Nat} (h : s.params.admits a = false) : memRead8 s a = .error .bus := by
  simp [memRead8, h]

/-! ### Byte strings -/

/-- The state with a byte string at an address, whatever the platform admits. -/
def State.putBytes (s : State) (a : Nat) : List Byte → State
  | [] => s
  | b :: bs => State.putBytes (s.putByte a b) (a + 1) bs

/-- Writing a byte string changes nothing but memory: the state is `s` with another memory. -/
theorem State.putBytes_eq (s : State) (a : Nat) (bs : List Byte) :
    s.putBytes a bs = { s with mem := (s.putBytes a bs).mem } := by
  induction bs generalizing s a with
  | nil => rfl
  | cons b bs ih => rw [State.putBytes, ih]; rfl

/-- Memory after a byte string has been written. -/
theorem State.putBytes_find (s : State) (a : Nat) (bs : List Byte) (x : Nat) :
    cellsFind (s.putBytes a bs).mem x =
      if h : a ≤ x ∧ x < a + bs.length then some (bs[x - a]'(by omega)) else cellsFind s.mem x := by
  induction bs generalizing s a with
  | nil => rw [dif_neg (by simp only [List.length_nil]; omega)]; rfl
  | cons b bs ih =>
    rw [State.putBytes, ih]
    by_cases h : a + 1 ≤ x ∧ x < a + 1 + bs.length
    · rw [dif_pos h, dif_pos (by simp only [List.length_cons]; omega)]
      have : x - a = (x - (a + 1)) + 1 := by omega
      simp [this]
    · rw [dif_neg h, State.putByte_mem, cellsFind_put]
      by_cases hx : x = a
      · subst hx; simp
      · rw [if_neg hx, dif_neg (by simp only [List.length_cons]; omega)]

/-- Each byte written reads back. -/
theorem State.putBytes_inside (s : State) (a : Nat) (bs : List Byte) {k : Nat} (h : k < bs.length) :
    byteAt (s.putBytes a bs).mem (a + k) = bs[k] := by
  rw [byteAt, State.putBytes_find, dif_pos (by omega)]
  simp

/-- Every other byte reads as before. -/
theorem State.putBytes_outside (s : State) (a : Nat) (bs : List Byte) {x : Nat} (h : x < a ∨ a + bs.length ≤ x) :
    cellsFind (s.putBytes a bs).mem x = cellsFind s.mem x := by
  rw [State.putBytes_find, dif_neg (by omega)]

theorem State.putBytes_wf (s : State) (a : Nat) (bs : List Byte) (h : Memory.wf s.mem = true)
    (hf : a + bs.length ≤ memBytes) : Memory.wf (s.putBytes a bs).mem = true := by
  induction bs generalizing s a with
  | nil => exact h
  | cons b bs ih =>
    simp only [List.length_cons] at hf
    exact ih _ _ (Memory.wf_put b h (by omega)) (by omega)

/-- A byte string is stored whole when the platform admits each of its addresses. -/
theorem storeBytes_ok {s : State} {a : Nat} {bs : List Byte}
    (h : ∀ k, k < bs.length → s.params.admits (a + k) = true) : storeBytes s a bs = .ok (s.putBytes a bs) := by
  induction bs generalizing s a with
  | nil => rfl
  | cons b bs ih =>
    have h0 := h 0 (by simp)
    simp only [Nat.add_zero] at h0
    simp only [storeBytes, memWrite8, h0, if_true, State.putBytes]
    refine ih fun k hk => ?_
    have := h (k + 1) (by simp only [List.length_cons]; omega)
    rwa [State.putByte_params, show a + 1 + k = a + (k + 1) by omega]

/-- Otherwise the store ends in a bus error. -/
theorem storeBytes_error {s : State} {a : Nat} {bs : List Byte} {k : Nat} (hk : k < bs.length)
    (h : s.params.admits (a + k) = false) : storeBytes s a bs = .error .bus := by
  induction bs generalizing s a k with
  | nil => simp at hk
  | cons b bs ih =>
    simp only [storeBytes, memWrite8]
    by_cases h0 : s.params.admits a = true
    · simp only [h0, if_true]
      cases k with
      | zero => rw [Nat.add_zero] at h; simp [h] at h0
      | succ k =>
        refine ih (k := k) (by simpa using hk) ?_
        rwa [State.putByte_params, show a + 1 + k = a + (k + 1) by omega]
    · simp [h0]

/-- The two outcomes of storing a byte string. -/
theorem storeBytes_cases (s : State) (a : Nat) (bs : List Byte) :
    (storeBytes s a bs = .ok (s.putBytes a bs) ∧ ∀ k, k < bs.length → s.params.admits (a + k) = true) ∨
    (storeBytes s a bs = .error .bus ∧ ∃ k, k < bs.length ∧ s.params.admits (a + k) = false) := by
  by_cases h : ∀ k, k < bs.length → s.params.admits (a + k) = true
  · exact .inl ⟨storeBytes_ok h, h⟩
  · obtain ⟨k, hk, hf⟩ : ∃ k, k < bs.length ∧ s.params.admits (a + k) = false := by
      simpa [Classical.not_forall] using h
    exact .inr ⟨storeBytes_error hk hf, k, hk, hf⟩

/-! ### Loops -/

/-- A loop succeeds exactly when every turn does, and gives the results in order. -/
theorem forEach_ok_iff {α β : Type} (f : α → Except ErrCode β) (xs : List α) (ys : List β) :
    forEach f xs = .ok ys ↔ List.Forall₂ (fun x y => f x = .ok y) xs ys := by
  induction xs generalizing ys with
  | nil => cases ys <;> simp [forEach]
  | cons x xs ih =>
    simp only [forEach]
    cases hx : f x with
    | error c =>
      simp only [reduceCtorEq, false_iff]
      intro h; cases h with | cons h _ => simp [hx] at h
    | ok y =>
      cases hxs : forEach f xs with
      | error c =>
        simp only [reduceCtorEq, false_iff]
        intro h
        cases h with
        | cons h h' => rw [← ih] at h'; simp [hxs] at h'
      | ok zs =>
        simp only [Except.ok.injEq]
        constructor
        · rintro rfl; exact .cons hx ((ih zs).1 hxs)
        · intro h
          cases h with
          | cons h h' =>
            rw [← ih, hxs] at h'
            simp_all

/-- A loop whose every turn succeeds with `g`. -/
theorem forEach_eq_map {α β : Type} {f : α → Except ErrCode β} (g : α → β) {xs : List α}
    (h : ∀ x ∈ xs, f x = .ok (g x)) : forEach f xs = .ok (xs.map g) := by
  induction xs with
  | nil => rfl
  | cons x xs ih =>
    simp only [forEach, h x (by simp), ih fun y hy => h y (by simp [hy]), List.map_cons]

/-- A loop that fails fails with the code of one of its turns. -/
theorem forEach_error {α β : Type} {f : α → Except ErrCode β} {xs : List α} {c : ErrCode}
    (h : forEach f xs = .error c) : ∃ x ∈ xs, f x = .error c := by
  induction xs with
  | nil => simp [forEach] at h
  | cons x xs ih =>
    simp only [forEach] at h
    split at h
    · next c' hc => cases h; exact ⟨x, by simp, hc⟩
    · split at h
      · next c' hc => cases h; obtain ⟨y, hy, he⟩ := ih hc; exact ⟨y, by simp [hy], he⟩
      · cases h

/-- A loop with a failing turn fails. -/
theorem forEach_fails {α β : Type} {f : α → Except ErrCode β} {xs : List α} {x : α} {c : ErrCode}
    (hx : x ∈ xs) (h : f x = .error c) : ∃ c', forEach f xs = .error c' := by
  cases hf : forEach f xs with
  | error c' => exact ⟨c', rfl⟩
  | ok ys =>
    rw [forEach_ok_iff] at hf
    obtain ⟨i, hi, rfl⟩ := List.getElem_of_mem hx
    have := hf.get hi (by rw [← hf.length_eq]; exact hi)
    simp [h] at this

theorem forEach_length {α β : Type} {f : α → Except ErrCode β} {xs : List α} {ys : List β}
    (h : forEach f xs = .ok ys) : ys.length = xs.length :=
  ((forEach_ok_iff f xs ys).1 h).length_eq.symm

/-! ### Pixels -/

@[simp] theorem pixelBytes_length (c : Color) : (pixelBytes c).length = 6 := rfl

/-- The six bytes of a pixel: each channel's high byte first (R70). -/
theorem pixelBytes_eq (c : Color) :
    pixelBytes c = [c.r.extractLsb' 8 8, c.r.extractLsb' 0 8, c.g.extractLsb' 8 8, c.g.extractLsb' 0 8,
      c.b.extractLsb' 8 8, c.b.extractLsb' 0 8] := by
  have h (v : Chan) : beBytes v.toNat 2 = [v.extractLsb' 8 8, v.extractLsb' 0 8] := by
    simp only [beBytes, List.cons.injEq, and_true]
    constructor <;> apply BitVec.eq_of_toNat_eq <;> simp
  simp [pixelBytes, h]

@[simp] theorem flatMap_pixelBytes_length (ps : List Color) : (ps.flatMap pixelBytes).length = 6 * ps.length := by
  induction ps with
  | nil => rfl
  | cons p ps ih => rw [List.flatMap_cons, List.length_append, ih, pixelBytes_length, List.length_cons]; omega

/-- Byte `k` of pixel `p` stands at `6 p + k` of a grid (R70). -/
theorem flatMap_pixelBytes_getElem (ps : List Color) {p k : Nat} (hp : p < ps.length) (hk : k < 6) :
    (ps.flatMap pixelBytes)[6 * p + k]'(by rw [flatMap_pixelBytes_length]; omega) =
      (pixelBytes ps[p])[k]'(by rw [pixelBytes_length]; exact hk) := by
  induction ps generalizing p with
  | nil => simp at hp
  | cons c ps ih =>
    simp only [List.flatMap_cons]
    cases p with
    | zero => simp [List.getElem_append, hk]
    | succ p =>
      rw [List.getElem_append_right (by rw [pixelBytes_length]; omega)]
      have : 6 * (p + 1) + k - (pixelBytes c).length = 6 * p + k := by rw [pixelBytes_length]; omega
      simp only [this, List.getElem_cons_succ]
      exact ih (by simpa using hp)

/-! ### Free bytes -/

/-- Scrubbing leaves every other address as it was. -/
theorem State.scrub_outside (s : State) (as : List Nat) {a : Nat} (h : a ∉ as) :
    cellsFind (s.scrub as).mem a = cellsFind s.mem a := by
  induction as generalizing s with
  | nil => rfl
  | cons b as ih =>
    simp only [List.mem_cons, not_or] at h
    rw [State.scrub, ih _ h.2]
    exact cellsFind_put_other _ _ h.1

theorem State.scrub_wf (s : State) (as : List Nat) (h : Memory.wf s.mem = true) (ha : ∀ a ∈ as, a < memBytes) :
    Memory.wf (s.scrub as).mem = true := by
  induction as generalizing s with
  | nil => exact h
  | cons b as ih =>
    exact ih _ (Memory.wf_put _ h (ha b (by simp))) fun a hm => ha a (by simp [hm])

theorem range_addresses_lt (r : AddrRange) : ∀ a ∈ r.addresses, a < memBytes :=
  fun _ h => ((range_mem_addresses r _).1 h).2

end Sys2Proof.Machine
end

