-- ==== Sys2Proof/Laws/Decoder.lean ====
section
/-! SUPPORT. The raw decoder: what a sample, a pixel and a whole frame are (41_decoder.md R146 to R158). -/

namespace Sys2Proof.Machine

/-! ### Samples (R147, R148) -/

/-- The two low bits as arithmetic (R147). -/
theorem lowBits_eq (order : LsbOrder) (n : Nat) (low : Byte) (h : n < 4) :
    lowBits order n low = match order with
      | .lsbFirst => low.toNat / 4 ^ n % 4
      | .msbFirst => low.toNat / 4 ^ (3 - n) % 4 := by
  have key (k : Nat) : (low.toNat >>> (2 * k)) &&& 3 = low.toNat / 4 ^ k % 4 := by
    rw [Nat.shiftRight_eq_div_pow, Nat.pow_mul, show 3 = 2 ^ 2 - 1 from rfl, Nat.and_two_pow_sub_one_eq_mod]
  cases order with
  | lsbFirst => exact key n
  | msbFirst => rw [lowBits, show 6 - 2 * n = 2 * (3 - n) by omega, key]

theorem lowBits_lt (order : LsbOrder) (n : Nat) (low : Byte) : lowBits order n low < 4 := by
  have key (k : Nat) : k &&& 3 < 4 := by
    rw [show 3 = 2 ^ 2 - 1 from rfl, Nat.and_two_pow_sub_one_eq_mod]; omega
  cases order <;> exact key _

/-- The sample value as arithmetic (R148). -/
theorem sampleValue_eq (order : LsbOrder) (n : Nat) (high low : Byte) :
    sampleValue order n high low = (high.toNat * 4 + lowBits order n low) * 64 := by
  unfold sampleValue
  rw [← Nat.shiftLeft_add_eq_or_of_lt (lowBits_lt order n low), Nat.shiftLeft_eq, Nat.shiftLeft_eq]

theorem sampleValue_le (order : LsbOrder) (n : Nat) (high low : Byte) : sampleValue order n high low ≤ 65472 := by
  have := high.isLt
  have := lowBits_lt order n low
  rw [sampleValue_eq]; omega

theorem sampleValue_mod (order : LsbOrder) (n : Nat) (high low : Byte) : sampleValue order n high low % 64 = 0 := by
  rw [sampleValue_eq]; omega

/-! ### Reads -/

theorem readSample_ok {s : State} {pb x y : Nat}
    (hi : s.params.admits (hiAddr (geometryOf s.cfg) pb x y) = true)
    (lo : s.params.admits (loAddr (geometryOf s.cfg) pb x y) = true) :
    readSample s (geometryOf s.cfg) pb x y = .ok (s.sample pb x y) := by
  simp [readSample, memRead8_ok hi, memRead8_ok lo, State.sample]

/-- A sample is read exactly when both its bytes are admitted; otherwise the read is a bus error (R62). -/
theorem readSample_cases (s : State) (pb x y : Nat) :
    (readSample s (geometryOf s.cfg) pb x y = .ok (s.sample pb x y) ∧
      s.params.admits (hiAddr (geometryOf s.cfg) pb x y) = true ∧
      s.params.admits (loAddr (geometryOf s.cfg) pb x y) = true) ∨
    (readSample s (geometryOf s.cfg) pb x y = .error .bus ∧
      (s.params.admits (hiAddr (geometryOf s.cfg) pb x y) = false ∨
        s.params.admits (loAddr (geometryOf s.cfg) pb x y) = false)) := by
  cases hi : s.params.admits (hiAddr (geometryOf s.cfg) pb x y) <;>
  cases lo : s.params.admits (loAddr (geometryOf s.cfg) pb x y)
  · right; simp [readSample, memRead8_error hi, memRead8_error lo]
  · right; simp [readSample, memRead8_error hi, memRead8_ok lo]
  · right; simp [readSample, memRead8_ok hi, memRead8_error lo]
  · left; simp [readSample_ok hi lo]

/-- The four samples of a quad are read, or the pixel is a bus error (R149). -/
theorem decodePixel_cases (s : State) (pb ox oy : Nat) :
    (decodePixel s (geometryOf s.cfg) pb ox oy = .ok (s.demosaiced pb ox oy) ∧
      ∀ dx dy, dx < 2 → dy < 2 →
        s.params.admits (hiAddr (geometryOf s.cfg) pb (2 * ox + dx) (2 * oy + dy)) = true ∧
        s.params.admits (loAddr (geometryOf s.cfg) pb (2 * ox + dx) (2 * oy + dy)) = true) ∨
    (decodePixel s (geometryOf s.cfg) pb ox oy = .error .bus ∧
      ∃ dx dy, dx < 2 ∧ dy < 2 ∧
        (s.params.admits (hiAddr (geometryOf s.cfg) pb (2 * ox + dx) (2 * oy + dy)) = false ∨
        s.params.admits (loAddr (geometryOf s.cfg) pb (2 * ox + dx) (2 * oy + dy)) = false)) := by
  rcases readSample_cases s pb (2 * ox) (2 * oy) with ⟨e1, a1⟩ | ⟨e1, a1⟩
  · rcases readSample_cases s pb (2 * ox + 1) (2 * oy) with ⟨e2, a2⟩ | ⟨e2, a2⟩
    · rcases readSample_cases s pb (2 * ox) (2 * oy + 1) with ⟨e3, a3⟩ | ⟨e3, a3⟩
      · rcases readSample_cases s pb (2 * ox + 1) (2 * oy + 1) with ⟨e4, a4⟩ | ⟨e4, a4⟩
        · left
          refine ⟨by simp [decodePixel, e1, e2, e3, e4, State.demosaiced, quadPixel, Nat.shiftRight_eq_div_pow], ?_⟩
          intro dx dy hx hy
          have hx : dx = 0 ∨ dx = 1 := by omega
          have hy : dy = 0 ∨ dy = 1 := by omega
          rcases hx with rfl | rfl <;> rcases hy with rfl | rfl <;> assumption
        · exact .inr ⟨by simp [decodePixel, e1, e2, e3, e4], 1, 1, by omega, by omega, a4⟩
      · exact .inr ⟨by simp [decodePixel, e1, e2, e3], 0, 1, by omega, by omega, a3⟩
    · exact .inr ⟨by simp [decodePixel, e1, e2], 1, 0, by omega, by omega, a2⟩
  · exact .inr ⟨by simp [decodePixel, e1], 0, 0, by omega, by omega, a1⟩

/-- The pixels of a payload, row-major. -/
def State.demosaicedGrid (s : State) (pb : Nat) : List Color :=
  (List.range (outWidth (geometryOf s.cfg) * outHeight (geometryOf s.cfg))).map fun p =>
    s.demosaiced pb (p % outWidth (geometryOf s.cfg)) (p / outWidth (geometryOf s.cfg))

@[simp] theorem State.demosaicedGrid_length (s : State) (pb : Nat) :
    (s.demosaicedGrid pb).length = outWidth (geometryOf s.cfg) * outHeight (geometryOf s.cfg) := by
  simp [State.demosaicedGrid]

/-- Pixel number `p` of a grid lies in its columns and rows. -/
theorem pixel_in_grid {p w h : Nat} (hp : p < w * h) : p % w < w ∧ p / w < h := by
  have hw : 0 < w := Nat.pos_of_ne_zero (by rintro rfl; simp at hp)
  exact ⟨Nat.mod_lt _ hw, Nat.div_lt_of_lt_mul hp⟩

/-- Where every byte the decode reads is admitted, the pixels are those memory holds (R153). -/
theorem decodePixels_ok {s : State} {pb : Nat} (h : PayloadAdmitted s pb) :
    decodePixels s (geometryOf s.cfg) pb = .ok (s.demosaicedGrid pb) := by
  refine forEach_eq_map _ fun p hp => ?_
  obtain ⟨h1, h2⟩ := pixel_in_grid (List.mem_range.1 hp)
  rcases decodePixel_cases s pb (p % outWidth (geometryOf s.cfg)) (p / outWidth (geometryOf s.cfg)) with ⟨e, -⟩ | ⟨-, dx, dy, hx, hy, hf⟩
  · exact e
  · obtain ⟨a, b⟩ := h (2 * (p % outWidth (geometryOf s.cfg)) + dx) (2 * (p / outWidth (geometryOf s.cfg)) + dy)
      (by unfold outWidth at *; omega) (by unfold outHeight at *; omega)
    simp [a, b] at hf

/-- Otherwise, in a geometry of even width and height, the data phase is a bus error (R234). -/
theorem decodePixels_error {s : State} {pb : Nat} (hw : (geometryOf s.cfg).w % 2 = 0)
    (hh : (geometryOf s.cfg).h % 2 = 0) (h : ¬ PayloadAdmitted s pb) :
    decodePixels s (geometryOf s.cfg) pb = .error .bus := by
  simp only [PayloadAdmitted, Classical.not_forall, not_and_or, Bool.not_eq_true] at h
  obtain ⟨x, y, hx, hy, hf⟩ := h
  have hp : (y / 2) * outWidth (geometryOf s.cfg) + x / 2 ∈
      List.range (outWidth (geometryOf s.cfg) * outHeight (geometryOf s.cfg)) := by
    rw [List.mem_range]
    have h1 : x / 2 < outWidth (geometryOf s.cfg) := by unfold outWidth; omega
    have h2 : y / 2 + 1 ≤ outHeight (geometryOf s.cfg) := by unfold outHeight; omega
    calc y / 2 * outWidth (geometryOf s.cfg) + x / 2
        < y / 2 * outWidth (geometryOf s.cfg) + outWidth (geometryOf s.cfg) := by omega
      _ = (y / 2 + 1) * outWidth (geometryOf s.cfg) := by rw [Nat.add_mul, Nat.one_mul]
      _ ≤ outHeight (geometryOf s.cfg) * outWidth (geometryOf s.cfg) := Nat.mul_le_mul_right _ h2
      _ = _ := Nat.mul_comm _ _
  have h1 : x / 2 < outWidth (geometryOf s.cfg) := by unfold outWidth; omega
  have e1 : ((y / 2) * outWidth (geometryOf s.cfg) + x / 2) % outWidth (geometryOf s.cfg) = x / 2 := by
    rw [Nat.mul_comm, Nat.mul_add_mod, Nat.mod_eq_of_lt h1]
  have e2 : ((y / 2) * outWidth (geometryOf s.cfg) + x / 2) / outWidth (geometryOf s.cfg) = y / 2 := by
    rw [Nat.mul_comm, Nat.mul_add_div (by omega), Nat.div_eq_of_lt h1, Nat.add_zero]
  have hbus : decodePixel s (geometryOf s.cfg) pb (x / 2) (y / 2) = .error .bus := by
    rcases decodePixel_cases s pb (x / 2) (y / 2) with ⟨-, ha⟩ | ⟨e, -⟩
    · have := ha (x % 2) (y % 2) (by omega) (by omega)
      rw [show 2 * (x / 2) + x % 2 = x by omega, show 2 * (y / 2) + y % 2 = y by omega] at this
      simp [this.1, this.2] at hf
    · exact e
  cases hd : decodePixels s (geometryOf s.cfg) pb with
  | ok ps =>
    obtain ⟨c, hc⟩ := forEach_fails (f := fun p => decodePixel s (geometryOf s.cfg) pb
      (p % outWidth (geometryOf s.cfg)) (p / outWidth (geometryOf s.cfg))) hp (by simp only [e1, e2]; exact hbus)
    rw [decodePixels, hc] at hd; cases hd
  | error c =>
    obtain ⟨p, -, hp⟩ := forEach_error hd
    rcases decodePixel_cases s pb (p % outWidth (geometryOf s.cfg)) (p / outWidth (geometryOf s.cfg)) with ⟨e, -⟩ | ⟨e, -⟩
    · rw [e] at hp; cases hp
    · rw [e] at hp; cases hp; rfl

/-! ### Grids -/

/-- Storing a grid whose bytes are all admitted puts its bytes at the destination and changes nothing else. -/
theorem storeGrid_cases (s : State) (base : Nat) (ps : List Color) :
    (storeGrid s base ps = .ok (s.putBytes base (ps.flatMap pixelBytes)) ∧
      ∀ k, k < 6 * ps.length → s.params.admits (base + k) = true) ∨
    (storeGrid s base ps = .error .bus ∧ ∃ k, k < 6 * ps.length ∧ s.params.admits (base + k) = false) := by
  have := storeBytes_cases s base (ps.flatMap pixelBytes)
  rwa [flatMap_pixelBytes_length] at this

/-- A stored grid holds each of its pixels (R70). -/
theorem putBytes_holdsPixel (s : State) (base : Nat) (ps : List Color) {p : Nat} (hp : p < ps.length) :
    HoldsPixel (s.putBytes base (ps.flatMap pixelBytes)).mem (base + 6 * p) ps[p] := by
  have key (k : Nat) (hk : k < 6) :
      byteAt (s.putBytes base (ps.flatMap pixelBytes)).mem (base + 6 * p + k) =
        (pixelBytes ps[p])[k]'(by rw [pixelBytes_length]; exact hk) := by
    rw [Nat.add_assoc, State.putBytes_inside _ _ _ (by rw [flatMap_pixelBytes_length]; omega),
      flatMap_pixelBytes_getElem ps hp hk]
  have k0 := key 0 (by omega)
  have k1 := key 1 (by omega)
  have k2 := key 2 (by omega)
  have k3 := key 3 (by omega)
  have k4 := key 4 (by omega)
  have k5 := key 5 (by omega)
  simp only [pixelBytes_eq, List.getElem_cons_zero, List.getElem_cons_succ] at k0 k1 k2 k3 k4 k5
  exact ⟨k0, k1, k2, k3, k4, k5⟩

/-! ### The checks (R155, R157, R158) -/

theorem checkMagic_ok {s : State} {ma : Nat} {ks : List Nat}
    (h : ∀ k ∈ ks, s.params.admits (ma + k) = true ∧ byteAt s.mem (ma + k) = magicByte s.cfg k) :
    checkMagic s ma ks = .ok () := by
  induction ks with
  | nil => rfl
  | cons k ks ih =>
    obtain ⟨h1, h2⟩ := h k (by simp)
    simp only [checkMagic, memRead8_ok h1, h2, if_true]
    exact ih fun j hj => h j (by simp [hj])

/-- The check passes over the marker's first bytes as long as they match. -/
theorem checkMagic_skip {s : State} {ma : Nat} {ks js : List Nat}
    (h : ∀ k ∈ ks, s.params.admits (ma + k) = true ∧ byteAt s.mem (ma + k) = magicByte s.cfg k) :
    checkMagic s ma (ks ++ js) = checkMagic s ma js := by
  induction ks with
  | nil => rfl
  | cons k ks ih =>
    obtain ⟨h1, h2⟩ := h k (by simp)
    simp only [List.cons_append, checkMagic, memRead8_ok h1, h2, if_true]
    exact ih fun j hj => h j (by simp [hj])

/-- The marker check answers nothing but success, ERR_MAGIC or ERR_BUS. -/
theorem checkMagic_error {s : State} {ma : Nat} {ks : List Nat} {c : ErrCode} (h : checkMagic s ma ks = .error c) :
    c = .magic ∨ c = .bus := by
  induction ks with
  | nil => cases h
  | cons k ks ih =>
    simp only [checkMagic, memRead8] at h
    split at h
    · next hc => split at hc <;> cases hc; cases h; exact .inr rfl
    · split at h
      · exact ih h
      · cases h; exact .inl rfl

theorem checkWrapped_short {s : State} (h : ¬ s.wrappedLongEnough) : checkWrapped s = .error .size := by
  simp only [State.wrappedLongEnough, Nat.not_le] at h
  exact if_pos h

theorem checkWrapped_long {s : State} (h : s.wrappedLongEnough) :
    checkWrapped s = match checkMagic s s.magicAddr [0, 1, 2, 3] with
      | .error c => .error c
      | .ok () => .ok s.wrappedPayload := by
  simp only [State.wrappedLongEnough] at h
  exact if_neg (by simpa using h)

/-! ### The whole command (R154) -/

/-- The two outcomes of the data phase: the grid is written, or a byte it needs is not admitted. -/
theorem decodeData_cases {s : State} (hv : geometryValid (geometryOf s.cfg) = true) (pb : Nat) :
    (decodeData s pb = .ok (s.putBytes s.cfg.dstBase.toNat ((s.demosaicedGrid pb).flatMap pixelBytes)) ∧
      PayloadAdmitted s pb ∧ RangeAdmitted s (decodedRange s.cfg)) ∨
    (decodeData s pb = .error .bus ∧ (¬ PayloadAdmitted s pb ∨ ¬ RangeAdmitted s (decodedRange s.cfg))) := by
  simp only [geometryValid, Bool.and_eq_true, beq_iff_eq] at hv
  have hlen : 6 * (outWidth (geometryOf s.cfg) * outHeight (geometryOf s.cfg)) = (decodedRange s.cfg).len := by
    simp only [decodedRange, gridLength, Nat.mul_assoc]
  by_cases hp : PayloadAdmitted s pb
  · simp only [decodeData, decodePixels_ok hp]
    rcases storeGrid_cases s s.cfg.dstBase.toNat (s.demosaicedGrid pb) with ⟨e, ha⟩ | ⟨e, k, hk, ha⟩ <;>
      rw [State.demosaicedGrid_length, hlen] at *
    · refine .inl ⟨e, hp, fun a h => ?_⟩
      rw [range_contains_iff] at h
      have := ha (a - s.cfg.dstBase.toNat) (by simp only [decodedRange] at *; omega)
      rwa [show s.cfg.dstBase.toNat + (a - s.cfg.dstBase.toNat) = a by simp only [decodedRange] at h; omega] at this
    · refine .inr ⟨e, .inr fun h => ?_⟩
      have := h (s.cfg.dstBase.toNat + k) (by rw [range_contains_iff]; simp only [decodedRange] at *; omega)
      simp [this] at ha
  · exact .inr ⟨by simp only [decodeData, decodePixels_error hv.1.1.1.1.2 hv.1.1.1.2.2 hp], .inl hp⟩

/-- The payload base the size and marker checks answer. -/
def payloadBase (wrapped : Bool) (s : State) : Except ErrCode Nat :=
  if wrapped then checkWrapped s else checkBare s.cfg

theorem decodeFrame_checked {s : State} (h : FrameChecksPass s) (wrapped : Bool) :
    decodeFrame wrapped s = match payloadBase wrapped s with
      | .error c => .error c
      | .ok pb => decodeData s pb := by
  obtain ⟨h1, h2, h3, h4⟩ := h
  simp only [decodeFrame, payloadBase, h1, h2, h3, h4]
  rfl

/-- Every way a frame decode can end (R235): a check fails, precisely; a marker byte is not admitted; or the data
phase runs. -/
theorem decodeFrame_cases (wrapped : Bool) (s : State) :
    (∃ c, decodeFrame wrapped s = .error c) ∨
    (FrameChecksPass s ∧ ∃ pb, payloadBase wrapped s = .ok pb ∧
      decodeFrame wrapped s = .ok (s.putBytes s.cfg.dstBase.toNat ((s.demosaicedGrid pb).flatMap pixelBytes)) ∧
      PayloadAdmitted s pb ∧ RangeAdmitted s (decodedRange s.cfg)) := by
  cases h : decodeFrame wrapped s with
  | error c => exact .inl ⟨c, rfl⟩
  | ok t =>
    right
    have hc : FrameChecksPass s := by
      unfold decodeFrame at h
      split at h
      · cases h
      · split at h
        · cases h
        · split at h
          · cases h
          · next h1 h2 h3 => exact ⟨by simpa using h1, by simp_all, by simp_all, by simpa using h3⟩
    refine ⟨hc, ?_⟩
    rw [decodeFrame_checked hc] at h
    split at h
    · cases h
    · next pb hpb =>
      rcases decodeData_cases hc.valid pb with ⟨e, h1, h2⟩ | ⟨e, -⟩
      · exact ⟨pb, hpb, by rw [← h, e], h1, h2⟩
      · rw [e] at h; cases h

/-- The grid's bytes fill the destination range exactly (R144, R152). -/
theorem demosaicedGrid_bytes_length (s : State) (pb : Nat) :
    ((s.demosaicedGrid pb).flatMap pixelBytes).length = (decodedRange s.cfg).len := by
  simp only [flatMap_pixelBytes_length, State.demosaicedGrid_length, decodedRange, gridLength, Nat.mul_assoc]

/-- After the data phase each pixel of the payload stands at its place in the destination (R152). -/
theorem decodedGrid_holdsPixel (s : State) (pb ox oy : Nat) (hx : ox < outWidth (geometryOf s.cfg))
    (hy : oy < outHeight (geometryOf s.cfg)) :
    HoldsPixel (s.putBytes s.cfg.dstBase.toNat ((s.demosaicedGrid pb).flatMap pixelBytes)).mem
      (s.cfg.dstBase.toNat + 6 * (oy * outWidth (geometryOf s.cfg) + ox)) (s.demosaiced pb ox oy) := by
  have hp : oy * outWidth (geometryOf s.cfg) + ox < (s.demosaicedGrid pb).length := by
    rw [State.demosaicedGrid_length, Nat.mul_comm (outWidth _)]
    calc _ < oy * outWidth (geometryOf s.cfg) + outWidth (geometryOf s.cfg) := by omega
     _ = (oy+1) * outWidth (geometryOf s.cfg) := by rw [Nat.add_mul, Nat.one_mul]
     _ ≤ _ := Nat.mul_le_mul_right _ hy
  have := putBytes_holdsPixel s s.cfg.dstBase.toNat _ hp
  have e : (s.demosaicedGrid pb)[oy * outWidth (geometryOf s.cfg) + ox] = s.demosaiced pb ox oy := by
    simp only [State.demosaicedGrid, List.getElem_map, List.getElem_range]
    rw [Nat.mul_comm, Nat.mul_add_mod, Nat.mod_eq_of_lt hx, Nat.mul_add_div (by omega), Nat.div_eq_of_lt hx, Nat.add_zero]
  rwa [e] at this

theorem checkMagic_markerOk {s : State} (h : ∀ k, k < 4 → s.markerByteOk k) : checkMagic s s.magicAddr [0, 1, 2, 3] = .ok () :=
  checkMagic_ok (fun k hk => h k (by simp at hk; omega))

/-! ### Geometry (R10, R141 to R143) -/

/-- Rounding up does not go below the value (R10). -/
theorem alignUp_ge (v g : Nat) (h : 1 ≤ g) : v ≤ alignUp v g := by
  unfold alignUp
  have := Nat.div_add_mod (v + g - 1) g
  have := Nat.mod_lt (v + g - 1) h
  have h3 : (v + g - 1) / g * g = g * ((v + g - 1) / g) := Nat.mul_comm _ _
  omega

/-- Rounding up gives a multiple (R10). -/
theorem alignUp_dvd (v g : Nat) : g ∣ alignUp v g :=
  ⟨(v + g - 1) / g, by unfold alignUp; rw [Nat.mul_comm]⟩

end Sys2Proof.Machine
end

