-- ==== Sys2Proof/Laws/Commands.lean ====
section
/-! SUPPORT. How a command ends (40_host_interface.md R124, R125; 60_exceptions.md R236, R237). -/

namespace Sys2Proof.Machine

theorem State.complete_endsWith (s : State) (code : ErrCode) : EndsWith (s.complete code) code :=
  ⟨rfl, rfl, rfl, rfl⟩

theorem State.raiseError_endsWith (s : State) (dest : AddrRange) (code : ErrCode) :
    EndsWith (s.raiseError dest code) code :=
  ⟨by simp, by simp, by simp, by simp⟩

theorem State.complete_keepsHostSide (s : State) (code : ErrCode) : KeepsHostSide s (s.complete code) :=
  ⟨rfl, rfl, rfl, rfl, rfl, rfl, rfl, rfl, rfl, rfl⟩

theorem State.raiseError_keepsHostSide (s : State) (dest : AddrRange) (code : ErrCode) :
    KeepsHostSide s (s.raiseError dest code) := by
  constructor <;> simp

theorem KeepsHostSide.trans {s t u : State} (h : KeepsHostSide s t) (h' : KeepsHostSide t u) : KeepsHostSide s u := by
  constructor
  · rw [h'.params, h.params]
  · rw [h'.irqEn, h.irqEn]
  · rw [h'.cfg, h.cfg]
  · rw [h'.busyWr, h.busyWr]
  · rw [h'.resets, h.resets]
  · rw [h'.refused, h.refused]
  · rw [h'.raced, h.raced]
  · rw [h'.host, h.host]
  · rw [h'.turns, h.turns]
  · rw [h'.observed, h.observed]

/-- Writing bytes touches nothing but memory. -/
theorem State.putBytes_keepsHostSide (s : State) (a : Nat) (bs : List Byte) : KeepsHostSide s (s.putBytes a bs) := by
  rw [State.putBytes_eq]; exact ⟨rfl, rfl, rfl, rfl, rfl, rfl, rfl, rfl, rfl, rfl⟩

/-- An error leaves every byte outside the destination range alone (R237). -/
theorem State.raiseError_sameOutside (s : State) (dest : AddrRange) (code : ErrCode) :
    SameOutside s (s.raiseError dest code) dest := by
  intro a ha
  unfold State.raiseError
  split
  · have : a ∉ dest.addresses := fun h => by simp [((range_mem_addresses _ _).1 h).1] at ha
    simp [byteAt, State.scrub_outside s _ this]
  · rfl

/-- Writing a range's bytes leaves every byte outside it alone. -/
theorem State.putBytes_sameOutside (s : State) (dest : AddrRange) (bs : List Byte) (h : bs.length = dest.len) :
    SameOutside s (s.putBytes dest.base bs) dest := by
  intro a ha
  have : ¬ (dest.base ≤ a ∧ a < dest.base + dest.len) := fun hc => by
    simp [(range_contains_iff dest a).2 hc] at ha
  simp only [byteAt]
  rw [State.putBytes_outside s _ _ (by omega)]

/-- A command that ends, by success or by an error, has left the host's side alone if its effect did (R124, R125,
R236). -/
theorem State.conclude_ends (s : State) (dest : AddrRange) (r : Except ErrCode State)
    (h : ∀ t, r = .ok t → KeepsHostSide s t ∧ t.guarded = s.guarded ∧ t.outSeen = s.outSeen) :
    ∃ code, EndsWith (s.conclude dest r) code ∧ KeepsHostSide s (s.conclude dest r) ∧
      (s.conclude dest r).guarded = (if s.irqEn then [] else s.guarded) ∧
      (s.conclude dest r).outSeen = (if s.irqEn then (s.conclude dest r).out else s.outSeen) := by
  cases r with
  | error c =>
    exact ⟨c, State.raiseError_endsWith .., State.raiseError_keepsHostSide .., by simp [State.conclude],
      by simp [State.conclude]⟩
  | ok t =>
    obtain ⟨h1, h2, h3⟩ := h t rfl
    exact ⟨.ok, State.complete_endsWith .., h1.trans (State.complete_keepsHostSide ..),
      by simp [State.conclude, h1.irqEn, h2], by simp [State.conclude, h1.irqEn, h3]⟩

/-- A decode that succeeds has written memory only. -/
theorem decodeFrame_keeps {wrapped : Bool} {s t : State} (h : decodeFrame wrapped s = .ok t) :
    KeepsHostSide s t ∧ t.guarded = s.guarded ∧ t.outSeen = s.outSeen := by
  rcases decodeFrame_cases wrapped s with ⟨c, e⟩ | ⟨-, pb, -, e, -⟩
  · rw [e] at h; cases h
  · rw [e] at h; cases h
    exact ⟨State.putBytes_keepsHostSide .., by rw [State.putBytes_eq]; exact ⟨rfl, rfl⟩⟩

theorem exec_decode_eq (s : State) :
    exec .decode s = .next (s.conclude (decodedRange s.cfg) (decodeFrame false s)) := rfl

theorem exec_decodeWrapped_eq (s : State) :
    exec .decodeWrapped s = .next (s.conclude (decodedRange s.cfg) (decodeFrame true s)) := rfl

theorem exec_lutIdentity_eq (s : State) : exec .lutIdentity s = .next (s.conclude .empty (identityLattice s)) := rfl

theorem exec_lutMapColor_eq (s : State) : exec .lutMapColor s = .next (s.conclude .empty (mapInput s)) := rfl

theorem exec_lutMapImage_eq (s : State) : exec .lutMapImage s = .next (mapImage s) := rfl

end Sys2Proof.Machine
end

