-- ==== Sys2Proof/Laws/Decode.lean ====
section
/-! SUPPORT. What the decoder answers on each kind of word (R91, R96). -/

namespace Sys2Proof

theorem decodeWord_reserved {w : Word} (h : w.extractLsb' 8 24 ≠ 0) : decodeWord w = .error .reservedBits :=
  if_pos h

/-- With RSVD = 0 the opcode alone decides. -/
theorem decodeWord_unreserved {w : Word} (h : w.extractLsb' 8 24 = 0) :
    decodeWord w =
      match (w.extractLsb' 0 8).toNat with
      | 0x01 => .ok .decode
      | 0x02 => .ok .decodeWrapped
      | 0x10 => .ok .lutIdentity
      | 0x11 => .ok .lutMapColor
      | 0x12 => .ok .lutMapImage
      | _ => .error .undefinedOpcode :=
  if_neg (not_not_intro h)

/-- With RSVD = 0 the word is its opcode. -/
theorem word_eq_opcode {w : Word} (h : w.extractLsb' 8 24 = 0) : w.toNat = (w.extractLsb' 0 8).toNat := by
  have h' := congrArg BitVec.toNat h
  rw [show (0 : BitVec 24).toNat = 0 from rfl] at h'
  simp only [BitVec.extractLsb'_toNat, Nat.shiftRight_eq_div_pow] at h' ⊢
  have := w.isLt
  omega

end Sys2Proof
end

