-- ==== Sys2Proof/Laws/HostPort.lean ====
section
/-! SUPPORT. What the host's accesses do (40_host_interface.md R110 to R121, R126). -/

namespace Sys2Proof.Machine

/-- An aligned word write inside the register space is a register write (R110). -/
theorem busWrite_word (s : State) {off : Nat} (d : Word) (h : off < 0x100) (h4 : off % 4 = 0) :
    busWrite s off 4 d = .next (s.writeReg (regAt off) d) := by
  simp [busWrite, accessWellFormed, h4, show ¬ 256 ≤ off by omega]

/-- An aligned word read inside the register space is a register read (R111). -/
theorem busRead_word (s : State) {off : Nat} (h : off < 0x100) (h4 : off % 4 = 0) :
    busRead s off 4 = .next (s.hostRead off (regAt off)) := by
  simp [busRead, accessWellFormed, h4, show ¬ 256 ≤ off by omega]

/-- Any other access inside the register space is refused (R112). -/
theorem accessWellFormed_false {off : Nat} {size : AccessSize} (h : size ≠ 4 ∨ off % 4 ≠ 0) :
    accessWellFormed off size = false := by
  rcases h with h | h <;> simp [accessWellFormed, h]

/-- The register map's inverse (R20). -/
@[simp] theorem regAt_offsetOf (r : Reg) : regAt (offsetOf r) = some r := by
  cases r <;> (try (rename_i n; cases n)) <;> rfl

/-- STATUS stands at its offset only (R20). -/
theorem regAt_status {off : Nat} (h : regAt off = some .status) : off = 0x008 := by
  unfold regAt at h; split at h <;> simp_all

/-- Every register's offset is aligned and inside the register space (R20). -/
theorem offsetOf_lt (r : Reg) : offsetOf r < 0x100 ∧ offsetOf r % 4 = 0 := by
  cases r <;> (try (rename_i n; cases n)) <;> decide

/-- A write while idle is not dropped (R110, R113). -/
theorem writeReg_idle {s : State} (r : Option Reg) (d : Word) (h : s.status.busy = false) :
    s.writeReg r d = s.storeReg r d := by
  simp [State.writeReg, h]

/-- A write to CTRL or STATUS is never dropped (R113). -/
theorem writeReg_always {s : State} {r : Option Reg} (d : Word) (h : writableWhileBusy r = true) :
    s.writeReg r d = s.storeReg r d := by
  simp [State.writeReg, h]

/-- A dropped write (R113). -/
theorem writeReg_busy {s : State} (r : Option Reg) (d : Word) (h : s.status.busy = true)
    (hr : writableWhileBusy r = false) :
    s.writeReg r d = { s with status := { s.status with busyWr := true } } := by
  simp [State.writeReg, h, hr]

/-- What a register read does: it is recorded, it may set the mark of R46, and a read of STATUS with BUSY = 0 observes
the completion (R75, R111, R121). -/
theorem hostRead_eq (s : State) (off : Nat) (r : Option Reg) :
    s.hostRead off r = { s with
      faulted  := (s.markUninit (s.readIsWritten r)).faulted
      guarded  := if r == some .status && !s.status.busy then [] else s.guarded
      outSeen  := if r == some .status && !s.status.busy then s.out else s.outSeen
      observed := .reg off (s.readReg r) :: s.observed } := by
  unfold State.hostRead State.markUninit; split <;> split <;> rfl

/-- What a host write to a guarded byte does: a free byte, the mark, and while busy the race record (R267). -/
theorem hazardWrite_eq (s : State) (a : Nat) :
    s.hazardWrite a = { (s.scrub [a]).markFault .hostHazard with
      raced := if s.status.busy then a :: s.raced else s.raced } := by
  unfold State.hazardWrite; cases s.status.busy <;> rfl

/-- An asserted irq is an observation of completion, and else nothing happens (R75). -/
theorem observeIrq_eq (s : State) : s.observeIrq = { s with
    guarded := if s.irq then [] else s.guarded
    outSeen := if s.irq then s.out else s.outSeen } := by
  unfold State.observeIrq State.observeCompletion; split <;> simp [*]

end Sys2Proof.Machine
end

