-- ==== Sys2Proof/Laws/Lut.lean ====
section
/-! SUPPORT. The lattice RAM and the interpolation (10_state.md R38, R40; 42_lut.md R180 to R188). -/

namespace Sys2Proof.Machine

/-! ### Channels of colours -/

@[simp] theorem colorOf_get (f : Channel → Chan) (n : Channel) : (colorOf f).get n = f n := by cases n <;> rfl

@[simp] theorem colorOf_self (c : Color) : colorOf c.get = c := rfl

theorem color_ext {c d : Color} (h : ∀ n, c.get n = d.get n) : c = d := by
  have hr := h .red
  have hg := h .green
  have hb := h .blue
  cases c; cases d
  simp_all [Sys2Proof.Color.get]

/-! ### Lattice channels -/

theorem latticeKey_inj {e e' : Nat} {n n' : Channel} (h : latticeKey e n = latticeKey e' n') : e = e' ∧ n = n' := by
  unfold latticeKey at h
  cases n <;> cases n' <;> simp only [channelIndex] at h <;> first | exact ⟨by omega, rfl⟩ | omega

theorem State.putChannel_find (s : State) (e : Nat) (n : Channel) (v : Chan) (e' : Nat) (n' : Channel) :
    cellsFind (s.putChannel e n v).lattice (latticeKey e' n') =
      if e' = e ∧ n' = n then some v else cellsFind s.lattice (latticeKey e' n') := by
  rw [State.putChannel_lattice, cellsFind_put]
  by_cases h : e' = e ∧ n' = n
  · obtain ⟨rfl, rfl⟩ := h; simp
  · rw [if_neg h, if_neg fun hk => h (latticeKey_inj hk)]

/-- Writing an entry writes each of its channels and no other entry's. -/
theorem State.putEntry_find (s : State) (e : Nat) (c : Color) (e' : Nat) (n : Channel) :
    cellsFind (s.putEntry e c).lattice (latticeKey e' n) =
      if e' = e then some (c.get n) else cellsFind s.lattice (latticeKey e' n) := by
  unfold State.putEntry
  rw [State.putChannel_find, State.putChannel_find, State.putChannel_find]
  by_cases h : e' = e
  · subst h; cases n <;> simp [Sys2Proof.Color.get]
  · simp [h]

/-- Writing lattice entries touches nothing but the lattice. -/
theorem State.putEntries_eq (s : State) (l : List (Nat × Color)) :
    s.putEntries l = { s with lattice := (s.putEntries l).lattice } := by
  induction l generalizing s with
  | nil => rfl
  | cons e l ih => rw [State.putEntries, ih]; rfl

/-- Entries that are not in the list are left alone. -/
theorem State.putEntries_find_other (s : State) (l : List (Nat × Color)) {e : Nat} (n : Channel)
    (h : ∀ c, (e, c) ∉ l) :
    cellsFind (s.putEntries l).lattice (latticeKey e n) = cellsFind s.lattice (latticeKey e n) := by
  induction l generalizing s with
  | nil => rfl
  | cons p l ih =>
    obtain ⟨e', c'⟩ := p
    rw [State.putEntries, ih _ fun c hc => h c (by simp [hc]), State.putEntry_find, if_neg]
    rintro rfl
    exact h c' (by simp)

/-- An entry that the list names once, or always with one colour, gets that colour. -/
theorem State.putEntries_find (s : State) (l : List (Nat × Color)) {e : Nat} {c : Color} (n : Channel)
    (h : (e, c) ∈ l) (hu : ∀ c', (e, c') ∈ l → c' = c) :
    cellsFind (s.putEntries l).lattice (latticeKey e n) = some (c.get n) := by
  induction l generalizing s with
  | nil => simp at h
  | cons p l ih =>
    obtain ⟨e', c'⟩ := p
    rw [State.putEntries]
    by_cases hl : (e, c) ∈ l
    · exact ih _ hl fun d hd => hu d (by simp [hd])
    · have hp : (e, c) = (e', c') := by simpa [hl] using h
      obtain ⟨rfl, rfl⟩ := Prod.mk.inj hp
      rw [State.putEntries_find_other _ _ _ fun d hd => ?_, State.putEntry_find, if_pos rfl]
      exact hl (hu d (by simp [hd]) ▸ hd)

theorem State.latticeAt_of_find {s : State} {e : Nat} {n : Channel} {v : Chan}
    (h : cellsFind s.lattice (latticeKey e n) = some v) : s.latticeAt e n = v ∧ s.written e n = true := by
  simp [State.latticeAt, State.written, h]

theorem State.latticeAt_congr {s t : State} {e : Nat} {n : Channel} (hr : t.resets = s.resets)
    (h : cellsFind t.lattice (latticeKey e n) = cellsFind s.lattice (latticeKey e n)) :
    t.latticeAt e n = s.latticeAt e n ∧ t.written e n = s.written e n := by
  simp [State.latticeAt, State.written, h, hr]

theorem Lattice.wf_put {capacity : Nat} {l : List (Nat × Chan)} {e : Nat} (n : Channel) (v : Chan)
    (h : Lattice.wf capacity l = true) (he : e < capacity) : Lattice.wf capacity (cellsPut l (latticeKey e n) v) = true := by
  simp only [Lattice.wf, Bool.and_eq_true] at *
  refine ⟨rising_put _ v h.1, keysBelow_put v h.2 ?_⟩
  unfold latticeKey
  cases n <;> simp only [channelIndex] <;> omega

theorem State.putEntries_wf {capacity : Nat} (s : State) (l : List (Nat × Color))
    (h : Lattice.wf capacity s.lattice = true) (hl : ∀ p ∈ l, p.1 < capacity) :
    Lattice.wf capacity (s.putEntries l).lattice = true := by
  induction l generalizing s with
  | nil => exact h
  | cons p l ih =>
    obtain ⟨e, c⟩ := p
    have he : e < capacity := hl (e, c) (by simp)
    refine ih _ ?_ fun q hq => hl q (by simp [hq])
    rw [State.putEntry_lattice]
    exact Lattice.wf_put _ _ (Lattice.wf_put _ _ (Lattice.wf_put _ _ h he) he) he

/-! ### Axes (R180, R181) -/

theorem blockSize_pos {p : Nat} (h2 : 2 ≤ p) (h : p ≤ 255) : 0 < blockSize p :=
  Nat.div_pos (by omega) (by omega)

/-- The spacing times the number of intervals does not pass 65535 (R180, R188). -/
theorem blockSize_mul_le (p : Nat) : (p - 1) * blockSize p ≤ 65535 := Nat.mul_div_le _ _

theorem lattice_coord_le {i p : Nat} (h : i < p) : i * blockSize p ≤ 65535 :=
  Nat.le_trans (Nat.mul_le_mul_right _ (by omega)) (blockSize_mul_le p)

theorem rootIndex_add_two_le {v p : Nat} (h : 2 ≤ p) : rootIndex v p + 2 ≤ p := by
  unfold rootIndex; omega

theorem rootIndex_mul_le (v p : Nat) : rootIndex v p * blockSize p ≤ v :=
  Nat.le_trans (Nat.mul_le_mul_right _ (Nat.min_le_right _ _)) (Nat.div_mul_le_self _ _)

/-- A value is its root's lattice value plus the remainder (R181). -/
theorem root_add_rem (v p : Nat) : rootIndex v p * blockSize p + rootRem v p = v := by
  have := rootIndex_mul_le v p
  unfold rootRem; omega

/-- On lattice coordinate `t` the root is `t` with remainder 0, or, on the last one, `t - 1` with remainder BS. -/
theorem root_on_lattice {t p : Nat} (h2 : 2 ≤ p) (h : p ≤ 255) (ht : t < p) :
    (rootIndex (t * blockSize p) p = t ∧ rootRem (t * blockSize p) p = 0) ∨
    (rootIndex (t * blockSize p) p + 1 = t ∧ rootRem (t * blockSize p) p = blockSize p) := by
  have hb := blockSize_pos h2 h
  have hr : rootIndex (t * blockSize p) p = min (p - 2) t := by rw [rootIndex, Nat.mul_div_cancel _ hb]
  have ha := root_add_rem (t * blockSize p) p
  by_cases htp : t ≤ p - 2
  · rw [Nat.min_eq_right htp] at hr
    rw [hr] at ha
    exact .inl ⟨hr, by omega⟩
  · rw [Nat.min_eq_left (by omega)] at hr
    have : t = p - 2 + 1 := by omega
    rw [hr, this, Nat.add_mul, Nat.one_mul] at ha
    right
    rw [hr]
    refine ⟨by omega, ?_⟩
    rw [this, Nat.add_mul, Nat.one_mul]
    omega

/-! ### Steps of interpolation (R182) -/

@[simp] theorem lerp_same (mode : DivMode) (v : Int) (m d : Nat) : lerp mode v v m d = v := by
  cases mode <;> simp [lerp, qdiv]

@[simp] theorem lerp_zero (mode : DivMode) (lo hi : Int) (d : Nat) : lerp mode lo hi 0 d = lo := by
  cases mode <;> simp [lerp, qdiv]

/-- A step of the whole interval gives `hi` exactly. -/
theorem lerp_full (mode : DivMode) (lo hi : Int) {d : Nat} (h : 0 < d) : lerp mode lo hi d d = hi := by
  have hd : (d : Int) ≠ 0 := by omega
  cases mode
  · rw [lerp, qdiv, Int.mul_tdiv_cancel_left _ hd]; omega
  · rw [lerp, qdiv, Int.mul_fdiv_cancel_left _ hd]; omega

/-- Between neighbours of an evenly spaced axis a step adds its multiplier. -/
theorem lerp_even (mode : DivMode) (i m : Nat) {d : Nat} (h : 0 < d) :
    lerp mode ((i * d : Nat) : Int) (((i + 1) * d : Nat) : Int) m d = ((i * d + m : Nat) : Int) := by
  have hd : (d : Int) ≠ 0 := by omega
  have e : (((i + 1) * d : Nat) : Int) - ((i * d : Nat) : Int) = d := by push_cast; ring
  cases mode
  · rw [lerp, qdiv, e, Int.mul_tdiv_cancel _ hd]; push_cast; rfl
  · rw [lerp, qdiv, e, Int.mul_fdiv_cancel _ hd]; push_cast; rfl

/-! ### Crop (R11) -/

theorem crop_range (v : Int) : 0 ≤ crop v ∧ crop v ≤ 65535 := by unfold crop; omega

theorem cropChan_toNat (v : Int) : ((cropChan v).toNat : Int) = min 65535 (max 0 v) := by
  have := crop_range v
  unfold cropChan
  rw [BitVec.toNat_ofNat, Nat.mod_eq_of_lt (by omega)]
  unfold crop at *; omega

@[simp] theorem cropChan_chan (v : Chan) : cropChan (v.toNat : Int) = v := by
  apply BitVec.eq_of_toNat_eq
  have := v.isLt
  have := cropChan_toNat (v.toNat : Int)
  omega

/-! ### The Identity lattice (R188) -/

/-- The linear index determines the lattice point (R38). -/
theorem latticeIndex_inj {sh : LutShape} {i j k i' j' k' : Nat} (hj : j < sh.y) (hk : k < sh.z) (hj' : j' < sh.y)
    (hk' : k' < sh.z) (h : latticeIndex sh i j k = latticeIndex sh i' j' k') : i = i' ∧ j = j' ∧ k = k' := by
  unfold latticeIndex at h
  have hz : 0 < sh.z := by omega
  have hy : 0 < sh.y := by omega
  have e1 := congrArg (· % sh.z) h
  have e2 := congrArg (· / sh.z) h
  simp only [Nat.mul_comm _ sh.z, Nat.mul_add_mod, Nat.mod_eq_of_lt hk, Nat.mod_eq_of_lt hk', Nat.mul_add_div hz,
    Nat.div_eq_of_lt hk, Nat.div_eq_of_lt hk', Nat.add_zero] at e1 e2
  have e3 := congrArg (· % sh.y) e2
  have e4 := congrArg (· / sh.y) e2
  simp only [Nat.mul_comm _ sh.y, Nat.mul_add_mod, Nat.mod_eq_of_lt hj, Nat.mod_eq_of_lt hj', Nat.mul_add_div hy,
    Nat.div_eq_of_lt hj, Nat.div_eq_of_lt hj', Nat.add_zero] at e3 e4
  exact ⟨e4, e3, e1⟩

/-- The index of a lattice point is below the number of points (R38, R189). -/
theorem latticeIndex_lt {sh : LutShape} {i j k : Nat} (hi : i < sh.x) (hj : j < sh.y) (hk : k < sh.z) :
    latticeIndex sh i j k < sh.x * sh.y * sh.z := by
  unfold latticeIndex
  calc (i * sh.y + j) * sh.z + k < (i * sh.y + j) * sh.z + sh.z := by omega
    _ = (i * sh.y + (j + 1)) * sh.z := by ring
    _ ≤ (i * sh.y + sh.y) * sh.z := Nat.mul_le_mul_right _ (by omega)
    _ = (i + 1) * sh.y * sh.z := by ring
    _ ≤ sh.x * sh.y * sh.z := Nat.mul_le_mul_right _ (Nat.mul_le_mul_right _ hi)

/-- The Identity colour of lattice point (i, j, k) (R188). -/
def identityColor (sh : LutShape) (i j k : Nat) : Color :=
  ⟨BitVec.ofNat 16 (i * blockSize sh.x), BitVec.ofNat 16 (j * blockSize sh.y), BitVec.ofNat 16 (k * blockSize sh.z)⟩

/-- The Identity colour of 1-D point i (R188). -/
def greyColor (sh : LutShape) (i : Nat) : Color :=
  ⟨BitVec.ofNat 16 (i * blockSize sh.x), BitVec.ofNat 16 (i * blockSize sh.x), BitVec.ofNat 16 (i * blockSize sh.x)⟩

theorem mem_identityEntries_3d {sh : LutShape} (h : sh.mode = .threeD) (e : Nat) (c : Color) :
    (e, c) ∈ identityEntries sh ↔ ∃ i j k, i < sh.x ∧ j < sh.y ∧ k < sh.z ∧
      e = latticeIndex sh i j k ∧ c = identityColor sh i j k := by
  simp only [identityEntries, h, List.mem_flatMap, List.mem_map, List.mem_range, Prod.mk.injEq]
  constructor
  · rintro ⟨i, hi, j, hj, k, hk, rfl, rfl⟩; exact ⟨i, j, k, hi, hj, hk, rfl, rfl⟩
  · rintro ⟨i, j, k, hi, hj, hk, rfl, rfl⟩; exact ⟨i, hi, j, hj, k, hk, rfl, rfl⟩

theorem mem_identityEntries_1d {sh : LutShape} (h : sh.mode = .oneD) (e : Nat) (c : Color) :
    (e, c) ∈ identityEntries sh ↔ e < sh.x ∧ c = greyColor sh e := by
  simp only [identityEntries, h, List.mem_map, List.mem_range, Prod.mk.injEq]
  constructor
  · rintro ⟨i, hi, rfl, rfl⟩; exact ⟨hi, rfl⟩
  · rintro ⟨hi, rfl⟩; exact ⟨e, hi, rfl, rfl⟩

/-- After the Identity entries of a 3-D configuration have been written, each lattice point holds its colour. -/
theorem identity_find_3d (s : State) {sh : LutShape} (h : sh.mode = .threeD) {i j k : Nat} (hi : i < sh.x)
    (hj : j < sh.y) (hk : k < sh.z) (n : Channel) :
    cellsFind (s.putEntries (identityEntries sh)).lattice (latticeKey (latticeIndex sh i j k) n) =
      some ((identityColor sh i j k).get n) := by
  refine State.putEntries_find s _ n ((mem_identityEntries_3d h _ _).2 ⟨i, j, k, hi, hj, hk, rfl, rfl⟩) ?_
  intro c' hc'
  obtain ⟨i', j', k', -, hj', hk', he, rfl⟩ := (mem_identityEntries_3d h _ _).1 hc'
  obtain ⟨rfl, rfl, rfl⟩ := latticeIndex_inj hj hk hj' hk' he
  rfl

theorem identity_find_1d (s : State) {sh : LutShape} (h : sh.mode = .oneD) {i : Nat} (hi : i < sh.x) (n : Channel) :
    cellsFind (s.putEntries (identityEntries sh)).lattice (latticeKey i n) = some ((greyColor sh i).get n) :=
  State.putEntries_find s _ n ((mem_identityEntries_1d h _ _).2 ⟨hi, rfl⟩)
    fun _ hc => ((mem_identityEntries_1d h _ _).1 hc).2

/-- The Identity entries lie below the number of points (R191: other entries are not touched). -/
theorem identityEntries_lt {sh : LutShape} {capacity : Nat} (h : lutValid capacity sh = true) :
    ∀ p ∈ identityEntries sh, p.1 < capacity := by
  intro ⟨e, c⟩ hp
  cases hm : sh.mode with
  | threeD =>
    obtain ⟨i, j, k, hi, hj, hk, rfl, -⟩ := (mem_identityEntries_3d hm _ _).1 hp
    simp only [lutValid, hm, Bool.and_eq_true, decide_eq_true_eq] at h
    exact Nat.lt_of_lt_of_le (latticeIndex_lt hi hj hk) h.2
  | oneD =>
    obtain ⟨he, -⟩ := (mem_identityEntries_1d hm _ _).1 hp
    simp only [lutValid, hm, Bool.and_eq_true, decide_eq_true_eq] at h
    exact Nat.lt_of_lt_of_le he h.2

/-- The fields of LUT_CFG have 8 bits (R37). -/
theorem lutShape_le (r : ConfigRegs) : (lutShapeOf r).x ≤ 255 ∧ (lutShapeOf r).y ≤ 255 ∧ (lutShapeOf r).z ≤ 255 := by
  have h (lo : Nat) : field r.lutCfg lo 8 ≤ 255 := by
    have := (r.lutCfg.extractLsb' lo 8).isLt
    unfold field; omega
  exact ⟨h 0, h 8, h 16⟩

end Sys2Proof.Machine
end

