-- ==== Sys2Proof/Laws/Image.lean ====
section
/-! SUPPORT. What the pixels of a grid read as (20_memory.md R63, R70), every way LUT_MAP_IMAGE can end (42_lut.md
R193), and what each command leaves unchanged. -/

namespace Sys2Proof.Machine

/-! ### Reading pixels -/

/-- The pixel the six bytes at an address make. -/
def pixelAt (m : List Host.Cell) (a : Nat) : Color :=
  ⟨byteAt m a ++ byteAt m (a + 1), byteAt m (a + 2) ++ byteAt m (a + 3), byteAt m (a + 4) ++ byteAt m (a + 5)⟩

/-- Two bytes read as one channel, the first the more significant (R63). -/
theorem memRead_two_cases (s : State) (a : Nat) :
    (memRead s a 2 = .ok (byteAt s.mem a ++ byteAt s.mem (a + 1)).toNat ∧
      s.params.admits a = true ∧ s.params.admits (a + 1) = true) ∨
    (memRead s a 2 = .error .bus ∧ (s.params.admits a = false ∨ s.params.admits (a + 1) = false)) := by
  have hv (x y : Byte) : beValue [x, y] = (x ++ y).toNat := by
    rw [BitVec.toNat_append, ← Nat.shiftLeft_add_eq_or_of_lt (by omega), Nat.shiftLeft_eq]
    simp [beValue]
  cases h0 : s.params.admits a
  · exact .inr ⟨by simp [memRead, loadBytes, memRead8_error h0], .inl rfl⟩
  · cases h1 : s.params.admits (a + 1)
    · exact .inr ⟨by simp [memRead, loadBytes, memRead8_ok h0, memRead8_error h1], .inr rfl⟩
    · exact .inl ⟨by simp [memRead, loadBytes, memRead8_ok h0, memRead8_ok h1, hv], rfl, rfl⟩

/-- A pixel reads as its six bytes say, or one of them is not admitted (R70, R234). -/
theorem readPixel_cases (s : State) (a : Nat) :
    (readPixel s a = .ok (pixelAt s.mem a) ∧ ∀ k, k < 6 → s.params.admits (a + k) = true) ∨
    (readPixel s a = .error .bus ∧ ∃ k, k < 6 ∧ s.params.admits (a + k) = false) := by
  rcases memRead_two_cases s a with ⟨e1, h0, h1⟩ | ⟨e1, h⟩
  · rcases memRead_two_cases s (a + 2) with ⟨e2, h2, h3⟩ | ⟨e2, h⟩
    · rcases memRead_two_cases s (a + 4) with ⟨e3, h4, h5⟩ | ⟨e3, h⟩
      · refine .inl ⟨by simp [readPixel, e1, e2, e3, pixelAt], fun k hk => ?_⟩
        have : k = 0 ∨ k = 1 ∨ k = 2 ∨ k = 3 ∨ k = 4 ∨ k = 5 := by omega
        rcases this with rfl | rfl | rfl | rfl | rfl | rfl <;> assumption
      · exact .inr ⟨by simp [readPixel, e1, e2, e3], h.elim (fun h => ⟨4, by omega, h⟩) fun h => ⟨5, by omega, h⟩⟩
    · exact .inr ⟨by simp [readPixel, e1, e2], h.elim (fun h => ⟨2, by omega, h⟩) fun h => ⟨3, by omega, h⟩⟩
  · exact .inr ⟨by simp [readPixel, e1], h.elim (fun h => ⟨0, by omega, h⟩) fun h => ⟨1, by omega, h⟩⟩

/-- The pixel whose bytes stand at an address is the one they make. -/
theorem pixelAt_of_holds {m : List Host.Cell} {a : Nat} {c : Color} (h : HoldsPixel m a c) : pixelAt m a = c := by
  have key (v : Chan) : v.extractLsb' 8 8 ++ v.extractLsb' 0 8 = v := by
    apply BitVec.eq_of_toNat_eq
    have := v.isLt
    rw [BitVec.toNat_append, ← Nat.shiftLeft_add_eq_or_of_lt (by omega), Nat.shiftLeft_eq]
    simp only [BitVec.extractLsb'_toNat, Nat.shiftRight_eq_div_pow]
    omega
  simp only [pixelAt, h.redHigh, h.redLow, h.greenHigh, h.greenLow, h.blueHigh, h.blueLow, key]

/-- A readable source pixel is the pixel its bytes make (R193). -/
theorem sourcePixel_iff (s : State) (p : Nat) (c : Color) :
    s.SourcePixel p c ↔ p < imagePixels s.cfg ∧ readPixel s (pixelAddr s.cfg.srcBase.toNat p) = .ok c := by
  have key (v w : Byte) : (v ++ w).extractLsb' 8 8 = v ∧ (v ++ w).extractLsb' 0 8 = w := by
    have e : (v ++ w).toNat = v.toNat * 256 + w.toNat := by
      rw [BitVec.toNat_append, ← Nat.shiftLeft_add_eq_or_of_lt w.isLt, Nat.shiftLeft_eq]
    constructor <;> apply BitVec.eq_of_toNat_eq <;>
      simp only [BitVec.extractLsb'_toNat, Nat.shiftRight_eq_div_pow, e] <;> omega
  have hold (m : List Host.Cell) (a : Nat) : HoldsPixel m a (pixelAt m a) :=
    ⟨(key _ _).1.symm, (key _ _).2.symm, (key _ _).1.symm, (key _ _).2.symm, (key _ _).1.symm, (key _ _).2.symm⟩
  rcases readPixel_cases s (pixelAddr s.cfg.srcBase.toNat p) with ⟨e, ha⟩ | ⟨e, k, hk, ha⟩ <;> rw [e]
  · constructor
    · exact fun h => ⟨h.inGrid, congrArg _ (pixelAt_of_holds h.holds)⟩
    · rintro ⟨h, hc⟩
      cases hc
      exact ⟨h, hold _ _, ha⟩
  · exact ⟨fun h => by have := h.admitted k hk; simp only [pixelAddr] at ha; simp [this] at ha, fun h => by simp at h⟩

/-! ### The mark of R46 -/

/-- A mapping is ready exactly when it reads no unwritten lattice channel (R46, R184, R186). -/
theorem latticeReady_iff (s : State) (c : Color) : s.latticeReady c = true ↔ ¬ s.ReadsUnwritten c := by
  have all (n : Channel) : n ∈ [Channel.red, .green, .blue] := by cases n <;> simp
  have two (d : Nat) : d ∈ [0, 1] ↔ d < 2 := by simp; omega
  cases hm : (lutShapeOf s.cfg).mode <;> simp only [State.latticeReady, State.ReadsUnwritten, channelsRead, hm,
    List.all_eq_true, List.mem_flatMap, List.mem_map, two]
  · constructor
    · rintro h ⟨di, dj, dk, n, h1, h2, h3, hw⟩
      simpa [hw] using h _ ⟨di, h1, dj, h2, dk, h3, n, all n, rfl⟩
    · rintro h x ⟨di, h1, dj, h2, dk, h3, n, -, rfl⟩
      by_contra hw
      exact h ⟨di, dj, dk, n, h1, h2, h3, by simpa using hw⟩
  · constructor
    · rintro h ⟨n, d, hd, hw⟩
      have := h (rootIndex (c.get n).toNat (lutShapeOf s.cfg).x + d, n)
        ⟨n, all n, by obtain rfl | rfl : d = 0 ∨ d = 1 := by omega
                      all_goals simp⟩
      simp [hw] at this
    · rintro h x ⟨n, -, hx⟩
      simp only [List.mem_cons, List.not_mem_nil, or_false] at hx
      by_contra hw
      rcases hx with rfl | rfl
      · exact h ⟨n, 0, by omega, by simpa using hw⟩
      · exact h ⟨n, 1, by omega, by simpa using hw⟩

/-- A whole image is ready exactly when no readable source pixel needs an unwritten channel (log entry 2). -/
theorem imageReady_iff (s : State) : imageReady s = true ↔ ∀ p c, s.SourcePixel p c → ¬ s.ReadsUnwritten c := by
  simp only [imageReady, List.all_eq_true, List.mem_range, sourcePixel_iff, ← latticeReady_iff]
  constructor
  · rintro h p c ⟨hp, hc⟩
    simpa [hc] using h p hp
  · intro h p hp
    split
    · rfl
    · next c hc => exact h p c ⟨hp, hc⟩

/-! ### The data phase of LUT_MAP_IMAGE -/

/-- The mapped pixels of the source grid. -/
def State.mappedGrid (s : State) : List Color :=
  (List.range (imagePixels s.cfg)).map fun p => s.mapColor (pixelAt s.mem (s.cfg.srcBase.toNat + 6 * p))

@[simp] theorem State.mappedGrid_length (s : State) : s.mappedGrid.length = imagePixels s.cfg := by
  simp [State.mappedGrid]

/-- The grid's bytes fill the destination range exactly (R193). -/
theorem mappedGrid_bytes_length (s : State) : (s.mappedGrid.flatMap pixelBytes).length = (imageDest s.cfg).len := by
  rw [flatMap_pixelBytes_length, State.mappedGrid_length]; rfl

/-- Byte `a` of a range of `6 n` bytes belongs to pixel `(a - base) / 6`. -/
theorem pixel_of_byte {base n a : Nat} (h : base ≤ a) (h' : a < base + 6 * n) :
    (a - base) / 6 < n ∧ (a - base) % 6 < 6 ∧ base + 6 * ((a - base) / 6) + (a - base) % 6 = a := by omega

/-- Mapping one pixel: the mapped colour, or a byte of it is not admitted. -/
theorem mapPixel_cases (s : State) (p : Nat) :
    (mapPixel s p = .ok (s.mapColor (pixelAt s.mem (s.cfg.srcBase.toNat + 6 * p))) ∧
      ∀ k, k < 6 → s.params.admits (s.cfg.srcBase.toNat + 6 * p + k) = true) ∨
    (mapPixel s p = .error .bus ∧ ∃ k, k < 6 ∧ s.params.admits (s.cfg.srcBase.toNat + 6 * p + k) = false) := by
  rcases readPixel_cases s (pixelAddr s.cfg.srcBase.toNat p) with ⟨e, h⟩ | ⟨e, h⟩
  · exact .inl ⟨by simp only [mapPixel, e]; rfl, h⟩
  · exact .inr ⟨by simp only [mapPixel, e], h⟩

/-- The two outcomes of the data phase: the grid is written, or a byte of a grid is not admitted (R193, R234). -/
theorem mapImageData_cases (s : State) :
    (mapImageData s = .ok (s.putBytes s.cfg.dstBase.toNat (s.mappedGrid.flatMap pixelBytes)) ∧
      RangeAdmitted s (imageSource s.cfg) ∧ RangeAdmitted s (imageDest s.cfg)) ∨
    (mapImageData s = .error .bus ∧
      (¬ RangeAdmitted s (imageSource s.cfg) ∨ ¬ RangeAdmitted s (imageDest s.cfg))) := by
  by_cases hs : RangeAdmitted s (imageSource s.cfg)
  · have hm : forEach (mapPixel s) (List.range (imagePixels s.cfg)) = .ok s.mappedGrid := by
      refine forEach_eq_map _ fun p hp => ?_
      rcases mapPixel_cases s p with ⟨e, -⟩ | ⟨-, k, hk, hf⟩
      · exact e
      · have := hs (s.cfg.srcBase.toNat + 6 * p + k) (by
          rw [range_contains_iff]; simp only [imageSource]; rw [List.mem_range] at hp; omega)
        simp [this] at hf
    simp only [mapImageData, hm]
    rcases storeGrid_cases s s.cfg.dstBase.toNat s.mappedGrid with ⟨e, ha⟩ | ⟨e, k, hk, ha⟩ <;>
      rw [State.mappedGrid_length] at *
    · refine .inl ⟨e, hs, fun a h => ?_⟩
      rw [range_contains_iff] at h
      simp only [imageDest] at h
      have := ha (a - s.cfg.dstBase.toNat) (by omega)
      rwa [show s.cfg.dstBase.toNat + (a - s.cfg.dstBase.toNat) = a by omega] at this
    · refine .inr ⟨e, .inr fun h => ?_⟩
      have := h (s.cfg.dstBase.toNat + k) (by rw [range_contains_iff]; simp only [imageDest]; omega)
      simp [this] at ha
  · refine .inr ⟨?_, .inl hs⟩
    simp only [RangeAdmitted, Classical.not_forall, Bool.not_eq_true] at hs
    obtain ⟨a, ha, hf⟩ := hs
    rw [range_contains_iff] at ha
    simp only [imageSource] at ha
    obtain ⟨h1, h2, h3⟩ := pixel_of_byte ha.1 ha.2
    have hbus : mapPixel s ((a - s.cfg.srcBase.toNat) / 6) = .error .bus := by
      rcases mapPixel_cases s ((a - s.cfg.srcBase.toNat) / 6) with ⟨-, h⟩ | ⟨e, -⟩
      · have := h _ h2; rw [h3, hf] at this; cases this
      · exact e
    obtain ⟨c, hc⟩ := forEach_fails (List.mem_range.2 h1) hbus
    obtain ⟨p, -, hp⟩ := forEach_error hc
    simp only [mapImageData, hc]
    rcases mapPixel_cases s p with ⟨e, -⟩ | ⟨e, -⟩ <;> rw [e] at hp <;> cases hp
    rfl

/-- The checks of R193 pass exactly when no error comes before any access. -/
theorem mapImageCheck_ok_iff (s : State) : mapImageCheck s = .ok () ↔ ImageChecksPass s := by
  unfold mapImageCheck
  constructor
  · intro h
    split at h
    · cases h
    · split at h
      · cases h
      · split at h
        · cases h
        · next h1 h2 h3 => exact ⟨by simpa using h1, by simp_all, by simp_all, by simpa using h3⟩
  · rintro ⟨h1, h2, h3, h4⟩
    simp [h1, h2, h3, h4]

/-- An error of the checks is precise: none of them is a bus error (R236). -/
theorem mapImageCheck_error {s : State} {c : ErrCode} (h : mapImageCheck s = .error c) : c ≠ .bus ∧ c ≠ .ok := by
  unfold mapImageCheck at h
  split at h
  · cases h; simp
  · split at h
    · cases h; simp
    · split at h
      · cases h; simp
      · cases h

/-- Where the checks pass, the command is its data phase, from the state with the mark of R46. -/
theorem mapImage_checked {s : State} (h : ImageChecksPass s) :
    mapImage s = (s.markUninit (imageReady s)).conclude (imageDest s.cfg)
      (mapImageData (s.markUninit (imageReady s))) := by
  simp only [mapImage, (mapImageCheck_ok_iff s).2 h]

/-- The mark of R46 does not change what a colour is mapped to. -/
@[simp] theorem State.markUninit_mapColor (s : State) (b : Bool) (c : Color) :
    (s.markUninit b).mapColor c = s.mapColor c := by
  cases b <;> rfl

@[simp] theorem State.markUninit_mappedGrid (s : State) (b : Bool) :
    (s.markUninit b).mappedGrid = s.mappedGrid := by
  cases b <;> rfl

/-- Every way LUT_MAP_IMAGE can end. -/
theorem mapImage_cases (s : State) :
    (∃ c, c ≠ .bus ∧ c ≠ .ok ∧ mapImage s = s.complete c) ∨
    (ImageChecksPass s ∧ RangeAdmitted s (imageSource s.cfg) ∧ RangeAdmitted s (imageDest s.cfg) ∧
      mapImage s = ((s.markUninit (imageReady s)).putBytes s.cfg.dstBase.toNat
        (s.mappedGrid.flatMap pixelBytes)).complete .ok) ∨
    (ImageChecksPass s ∧ (¬ RangeAdmitted s (imageSource s.cfg) ∨ ¬ RangeAdmitted s (imageDest s.cfg)) ∧
      mapImage s = (s.markUninit (imageReady s)).raiseError (imageDest s.cfg) .bus) := by
  cases hc : mapImageCheck s with
  | error c =>
    obtain ⟨h1, h2⟩ := mapImageCheck_error hc
    exact .inl ⟨c, h1, h2, by simp only [mapImage, hc, State.raiseError, if_neg h1]⟩
  | ok u =>
    have h := (mapImageCheck_ok_iff s).1 hc
    right
    rcases mapImageData_cases (s.markUninit (imageReady s)) with ⟨e, h1, h2⟩ | ⟨e, h1⟩
    · simp only [State.markUninit_cfg, State.markUninit_mappedGrid, RangeAdmitted, State.markUninit_params] at e h1 h2
      exact .inl ⟨h, h1, h2, by rw [mapImage_checked h, e]; rfl⟩
    · simp only [State.markUninit_cfg, RangeAdmitted, State.markUninit_params] at h1
      exact .inr ⟨h, h1, by rw [mapImage_checked h, e]; rfl⟩

end Sys2Proof.Machine
end

