-- ==== Sys2Proof/Laws/PerInstr.lean ====
section
/-! SUPPORT. What holds of every command as syntax: its word is well formed, has RSVD = 0, and the table decoder reads
it (30_encoding.md R91, R92, R95). -/

namespace Sys2Proof.Laws.Encoding

/-- The command's word is legal, reserved bits 0, and the decoder of the opcode table reads it as the command. -/
def Statement (i : Instr) : Prop :=
  i.wellFormed = true ∧ (encode i).extractLsb' 8 24 = 0 ∧ decodeTableWord 32 (encode i).toNat = some i

theorem decode : Statement .decode := by unfold Statement; decide

theorem decodeWrapped : Statement .decodeWrapped := by unfold Statement; decide

theorem lutIdentity : Statement .lutIdentity := by unfold Statement; decide

theorem lutMapColor : Statement .lutMapColor := by unfold Statement; decide

theorem lutMapImage : Statement .lutMapImage := by unfold Statement; decide

end Sys2Proof.Laws.Encoding
end

