-- ==== Sys2Proof/Laws/Step.lean ====
section
/-! SUPPORT. What one step can do, said once: the moves of the host (40_host_interface.md R110 to R123, R126;
70_reset_and_hazards.md R260) and of the engine (R124). -/

namespace Sys2Proof.Machine

/-- Everything a register write can do (R110). -/
theorem storeReg_cases (s : State) (r : Option Reg) (d : Word) :
    s.storeReg r d = s ∨
    s.storeReg r d = { s with irqEn := d.getLsbD 0 }.observeIrq ∨
    s.storeReg r d = { s with status := acknowledge s.status d } ∨
    (r = some .cmd ∧ s.storeReg r d = s.accept d) ∨
    (∃ n, r = some (.lutWindow n) ∧ s.storeReg r d = s.writeWindow n d) ∨
    ∃ c, s.storeReg r d = { s with cfg := c } := by
  cases r with
  | none => exact .inl rfl
  | some r =>
    cases r
    case ctrl => exact .inr (.inl rfl)
    case status => exact .inr (.inr (.inl rfl))
    case cmd => exact .inr (.inr (.inr (.inl ⟨rfl, rfl⟩)))
    case lutWindow n => exact .inr (.inr (.inr (.inr (.inl ⟨n, rfl, rfl⟩))))
    all_goals exact .inr (.inr (.inr (.inr (.inr ⟨_, rfl⟩))))

/-- A LUT window write changes the lattice at most (R120). -/
theorem writeWindow_cases (s : State) (n : Channel) (d : Word) :
    s.writeWindow n d = s ∨ (s.cfg.lutIdx.toNat < s.params.lutCapacity ∧
      s.writeWindow n d = s.putChannel s.cfg.lutIdx.toNat n (d.setWidth 16)) := by
  unfold State.writeWindow
  split
  · next h => exact .inr ⟨h, rfl⟩
  · exact .inl rfl

/-- Everything a host operation that answers a next state can do; only a read of STATUS or a `POLL` reads STATUS. -/
theorem hostOp_cases {op : HostOp} {s t : State} (h : hostOp op s = .next t) :
    (∃ r d, t = s.writeReg r d) ∨
    (∃ off r, t = s.hostRead off r ∧ (r = some .status → op = .poll ∨ op = .read 0x008 4)) ∨ t = s.markRefused ∨
    (∃ a v, a < memBytes ∧ t = s.putByte a v) ∨
    (∃ a, a < memBytes ∧ t = s.hazardWrite a) ∨
    (∃ a, t = s.hazardRead a) ∨ (∃ o, t = s.recordObs o) ∨ (op = .reset ∧ t = s.resetBlock) := by
  have hw {off size d} (h : busWrite s off size d = .next t) : (∃ r d, t = s.writeReg r d) ∨ t = s.markRefused := by
    unfold busWrite at h
    split at h
    · cases h
    · split at h <;> cases h
      · exact .inl ⟨_, _, rfl⟩
      · exact .inr rfl
  have hr {off size} (h : busRead s off size = .next t) :
      (∃ r, t = s.hostRead off r ∧ (r = some .status → off = 0x008 ∧ size = 4)) ∨ t = s.markRefused := by
    unfold busRead at h
    split at h
    · cases h
    · split at h <;> cases h
      · next hw => exact .inl ⟨_, rfl, fun hr => ⟨regAt_status hr, by simp_all [accessWellFormed]⟩⟩
      · exact .inr rfl
  cases op with
  | write off size d => rcases hw h with h | h <;> simp [h]
  | read off size =>
    rcases hr h with ⟨r, h, hs⟩ | h
    · exact .inr (.inl ⟨off, r, h, fun e => .inr (by rw [(hs e).1, (hs e).2])⟩)
    · simp [h]
  | poll =>
    rcases hr h with ⟨r, h, -⟩ | h
    · exact .inr (.inl ⟨_, r, h, fun _ => .inl rfl⟩)
    · simp [h]
  | memWrite a v =>
    simp only [hostOp, hostMemWrite] at h
    split at h
    · cases h; simp
    · split at h
      · cases h
      · split at h <;> cases h
        · exact .inr (.inr (.inr (.inr (.inl ⟨a, by omega, rfl⟩))))
        · exact .inr (.inr (.inr (.inl ⟨a, v, by omega, rfl⟩)))
  | memRead a =>
    simp only [hostOp, hostMemRead] at h
    split at h
    · cases h; simp
    · split at h
      · cases h
      · split at h <;> cases h
        · exact .inr (.inr (.inr (.inr (.inr (.inl ⟨a, rfl⟩)))))
        · exact .inr (.inr (.inr (.inr (.inr (.inr (.inl ⟨_, rfl⟩))))))
  | reset => cases h; simp

/-- The whole command as its word is performed: an error's abort, or a command (R124). -/
theorem performWord_cases {w : Word} {s t : State} (h : performWord w s = .next t) :
    t = s.raiseError .empty .illegal ∨ ∃ i, exec i s = .next t := by
  unfold performWord at h
  split at h
  · cases h; exact .inl rfl
  · next i _ => exact .inr ⟨i, h⟩

/-- Everything a step can do: nothing, a host operation, or the pending command (R5, R124, R128). -/
theorem step_cases {s t : State} (h : step s = .next t) :
    (s.eng = .idle ∧ s.host = [] ∧ t = s) ∨
    (nextAgent s = some .host ∧ ∃ op rest left, s.host = op :: rest ∧ left = (if op == .poll && s.status.busy then op :: rest else rest) ∧
      hostOp op { s.spendTurn with host := left } = .next t) ∨
    (nextAgent s = some .engine ∧ ∃ w u, s.eng = .pending w ∧ performWord w s.spendTurn.scrubRaced = .next u ∧ t = u.settleRaced) := by
  unfold step at h
  split at h
  · next hn =>
    cases h
    unfold nextAgent at hn
    split at hn <;> simp_all
  · next hn =>
    refine .inr (.inr ⟨hn, ?_⟩)
    unfold enginePerform settle at h
    split at h
    · next he =>
      unfold nextAgent at hn
      rw [State.spendTurn_eng] at he
      split at hn <;> simp_all
    · next w he =>
      split at h <;> cases h
      next u hu => exact ⟨w, u, by simpa using he, hu, rfl⟩
  · next hn =>
    refine .inr (.inl ⟨hn, ?_⟩)
    unfold hostMove at h
    split at h
    · next he =>
      unfold nextAgent at hn
      rw [State.spendTurn_host] at he
      split at hn <;> simp_all
    · next op rest he =>
      refine ⟨op, rest, _, by rwa [State.spendTurn_host] at he, rfl, ?_⟩
      have hst := State.spendTurn_status s
      rw [← hst]
      split at h
      · next hb => rw [if_pos hb, ← he]; exact h
      · next hb => rw [if_neg hb]; exact h

/-- A run goes on from what the first step answers. -/
theorem run_next {s u : State} (h : step s = .next u) (k : Nat) :
    Sys2Proof.core.run (k + 1) s = Sys2Proof.core.run k u := by
  have h' : Sys2Proof.core.step s = .next u := h
  have e := Host.Core.run.eq_2 Sys2Proof.core s k
  rw [h'] at e
  exact e

end Sys2Proof.Machine
end

