-- ==== Sys2Proof/Tests/Slice0.lean ====
section
/-! SUPPORT. Tests. The expected results are those of 95_test_vectors.md, or worked by hand from the rule a test names;
the last part shows, for every statement with hypotheses, a state and operands that meet them. -/

namespace Sys2Proof.Tests

open Sys2Proof.Machine

/-! ### Helpers -/

/-- Does an outcome answer a next state of which `p` holds? -/
def nextIs (o : Host.Outcome State Fault Refusal) (p : State → Bool) : Bool :=
  match o with
  | .next t => p t
  | _ => false

/-- Bytes at an address. -/
def cellsAt (a : Nat) : List Byte → List Host.Cell
  | [] => []
  | b :: bs => (a, b) :: cellsAt (a + 1) bs

/-- `n` bytes of memory. -/
def bytesOf (m : List Host.Cell) (a n : Nat) : List Byte := (List.range n).map fun k => byteAt m (a + k)

/-- The payload of 2.2. -/
def payload : List Byte := [0x12, 0x34, 0x56, 0x78, 0xE4, 0x9A, 0xBC, 0xDE, 0xF0, 0x1B]

/-- The registers of the first row of 2.3. -/
def frameRegs : ConfigRegs :=
  { ConfigRegs.reset with
    srcBase := 0x1000, srcLen := 10, dstBase := 0x2000, geomW := 4, geomH := 2, align := 0x01010101 }

/-- The first row of 2.3: a bare frame, ready to decode. -/
def frame : State := { State.reset with cfg := frameRegs, mem := cellsAt 0x1000 payload }

/-- The row "with prefix" of 2.4: a wrapped frame. -/
def wrapped : State :=
  { State.reset with
    cfg := { frameRegs with srcLen := 20, magic := 0x44434241 }
    mem := cellsAt 0x1000 ([0x00, 0x11, 0x22, 0x33, 0x44, 0x55, 0x41, 0x42, 0x43, 0x44] ++ payload) }

/-- A state with another set of addresses that end in a bus error. -/
def refusing (s : State) (a : Nat) : State := { s with params := { s.params with refusing := [⟨a, 1⟩] } }

/-- A command pending. -/
def pendingIn (s : State) (i : Instr) : State :=
  { s with eng := .pending (encode i), status := ⟨true, false, false, .ok⟩ }

/-- LUT_CFG and IN_R/G/B. -/
def lutState (lutCfg : BitVec 25) (input : Color) : State :=
  { State.reset with cfg := { ConfigRegs.reset with lutCfg := lutCfg, input := input } }

/-- The 1-D table of 2.9, mapping a colour. -/
def curve (input : Color) : State :=
  (lutState 0x1000003 input).putEntries [(0, ⟨0, 0, 0⟩), (1, ⟨40000, 20000, 65535⟩), (2, ⟨65535, 65535, 0⟩)]

/-- The row "1x1 grid" of 2.10. -/
def image : State :=
  { curve blackColor with
    cfg := { (curve blackColor).cfg with srcBase := 0x2000, dstBase := 0x3000, imgDim := 0x00010001 }
    mem := cellsAt 0x2000 [0x40, 0x00, 0x40, 0x00, 0x40, 0x00] }

/-! ### Well-formedness: an ill-formed term for each check -/

theorem test_wellFormed_refuses_reserved_bits : (Cmd32.mk 0x01 1).wellFormed = false := by decide

theorem test_wellFormed_refuses_undefined_opcode : (Cmd32.mk 0x13 0).wellFormed = false := by decide

theorem test_wellFormed_refuses_half_access : accessWellFormed 0 2 = false := by decide

theorem test_wellFormed_refuses_odd_offset : accessWellFormed 0x002 4 = false := by decide

theorem test_wellFormed_refuses_small_capacity : { Params.initial with lutCapacity := 7 }.wellFormed = false := by
  decide

theorem test_wellFormed_refuses_large_capacity :
    { Params.initial with lutCapacity := 255 ^ 3 + 1 }.wellFormed = false := by decide

/-! ### Decoding: the words of R91 and R92, bit by bit from bit 31 -/

theorem test_decode_word_decode : decodeWord 0b00000000000000000000000000000001 = .ok .decode := by decide

theorem test_decode_word_decodeWrapped : decodeWord 0b00000000000000000000000000000010 = .ok .decodeWrapped := by decide

theorem test_decode_word_lutIdentity : decodeWord 0b00000000000000000000000000010000 = .ok .lutIdentity := by decide

theorem test_decode_word_lutMapColor : decodeWord 0b00000000000000000000000000010001 = .ok .lutMapColor := by decide

theorem test_decode_word_lutMapImage : decodeWord 0b00000000000000000000000000010010 = .ok .lutMapImage := by decide

/-- 2.5: the illegal words. -/
theorem test_decode_illegal_words :
    [0x00000000#32, 0x00000003#32, 0x0000000F#32, 0x00000013#32, 0x000000FF#32].map decodeWord =
      List.replicate 5 (.error .undefinedOpcode) ∧
    [0x00000101#32, 0x80000011#32].map decodeWord = List.replicate 2 (.error .reservedBits) := by decide

theorem test_table_word : decodeTableWord 32 0x12 = some .lutMapImage ∧ decodeTableWord 32 0x101 = none ∧
    decodeTableWord 32 (2 ^ 32 + 1) = none := by decide

/-- The first instruction after reset is the one placed (R79, R116; P6: ERR_CONFIG). -/
theorem test_fetch_word_runs_first :
    nextIs (step (State.reset.withFetchWord 32 1)) (fun t => t.status == ⟨false, true, false, .config⟩) = true := by
  decide

/-! ### DECODE -/

/-- 2.2, 2.3 "success": the destination bytes under LSB_FIRST. -/
theorem test_decode_writes_grid :
    nextIs (exec .decode frame) (fun t => t.status.err == .ok && bytesOf t.mem 0x2000 12 ==
      [0xBC, 0x80, 0x67, 0x80, 0x12, 0x00, 0xF0, 0x00, 0xAB, 0x80, 0x56, 0x80]) = true := by decide

/-- 2.2: the same under MSB_FIRST. -/
theorem test_decode_msb_first :
    nextIs (exec .decode { frame with params := { frame.params with lsbOrder := .msbFirst } })
      (fun t => bytesOf t.mem 0x2000 12 ==
        [0xBC, 0x40, 0x67, 0x40, 0x12, 0xC0, 0xF0, 0xC0, 0xAB, 0x40, 0x56, 0x40]) = true := by decide

/-! ### DECODE_WRAPPED -/

/-- 2.4 "with prefix". -/
theorem test_decodeWrapped_with_prefix :
    nextIs (exec .decodeWrapped wrapped) (fun t => t.status.err == .ok && bytesOf t.mem 0x2000 12 ==
      [0xBC, 0x80, 0x67, 0x80, 0x12, 0x00, 0xF0, 0x00, 0xAB, 0x80, 0x56, 0x80]) = true := by decide

/-- 2.4 "wrong last marker byte": ERR_MAGIC, destination unchanged. -/
theorem test_decodeWrapped_wrong_marker :
    nextIs (exec .decodeWrapped (wrapped.putByte 0x1009 0x45))
      (fun t => statusWord t.status == 0x00000072 && t.mem == (wrapped.putByte 0x1009 0x45).mem) = true := by decide

/-! ### LUT_IDENTITY -/

/-- 2.7: 2x2x2. -/
theorem test_lutIdentity_2x2x2 :
    nextIs (exec .lutIdentity (lutState 0x020202 blackColor)) (fun t =>
      (List.range 8).map (fun e => (t.latticeAt e .red, t.latticeAt e .green, t.latticeAt e .blue)) ==
        [(0, 0, 0), (0, 0, 65535), (0, 65535, 0), (0, 65535, 65535), (65535, 0, 0), (65535, 0, 65535),
         (65535, 65535, 0), (65535, 65535, 65535)] && !t.written 8 .red) = true := by decide

/-- 2.7: 1-D, X = 3: the last point is below 65535. -/
theorem test_lutIdentity_1d :
    nextIs (exec .lutIdentity (lutState 0x1000003 blackColor)) (fun t =>
      (List.range 3).map (fun e => (t.latticeAt e .red, t.latticeAt e .green, t.latticeAt e .blue)) ==
        [(0, 0, 0), (32767, 32767, 32767), (65534, 65534, 65534)]) = true := by decide

/-! ### LUT_MAP_COLOR -/

/-- 2.8, the Identity with corner 7 replaced by black: the order of the steps and the rounding show. -/
theorem test_lutMapColor_corner :
    (let s := ((lutState 0x020202 ⟨32768, 32768, 32768⟩).putEntries (identityEntries ⟨2, 2, 2, .threeD⟩)).putEntry 7 ⟨0, 0, 0⟩
     nextIs (exec .lutMapColor s) (fun t => t.out == ⟨24576, 24576, 24575⟩ && t.faulted == none) &&
     nextIs (exec .lutMapColor { s with params := { s.params with divMode := .floor } })
       (fun t => t.out == ⟨24575, 24575, 24575⟩)) = true := by decide

/-- 2.9, row (65535, 65535, 65535): extrapolation, cropped at both ends. -/
theorem test_lutMapColor_1d_crop :
    nextIs (exec .lutMapColor (curve ⟨65535, 65535, 65535⟩)) (fun t => t.out == ⟨65535, 65535, 0⟩) = true := by decide

/-! ### LUT_MAP_IMAGE -/

/-- 2.10 "1x1 grid". -/
theorem test_lutMapImage_1x1 :
    nextIs (exec .lutMapImage image) (fun t => t.status.err == .ok &&
      bytesOf t.mem 0x3000 6 == [0x4E, 0x20, 0x27, 0x10, 0x80, 0x00] && t.out == blackColor) = true := by decide

/-- 2.10 "empty (IMG_W = 0)" and "source wraps". -/
theorem test_lutMapImage_checks :
    (nextIs (exec .lutMapImage { image with cfg := { image.cfg with imgDim := 0x00050000 } })
        (fun t => statusWord t.status == 0x00000002 && t.mem == image.mem) &&
     nextIs (exec .lutMapImage { image with cfg := { image.cfg with srcBase := 0xFFFFFFFB } })
        (fun t => statusWord t.status == 0x00000042)) = true := by decide

/-! ### The host (2.11) and the two runs of P5 -/

theorem test_host_window :
    (let s := { State.reset with host := [opWR .lutIdx 7, opWR (.lutWindow .blue) 0xABCD, opRD (.lutWindow .blue)] }
     match Sys2Proof.core.run 3 s with
     | .next t => decide (t.observed = [.reg 0x050 0x0000ABCD]) && t.unmarked
     | _ => false) = true := by decide

theorem test_host_status_write_keeps_err :
    nextIs (busWrite { State.reset with status := ⟨false, true, true, .size⟩ } 0x008 4 0xFFFFFFFF)
      (fun t => statusWord t.status == 0x00000060) = true := by decide

theorem test_host_unwritten_window_faults :
    nextIs (busRead { State.reset with cfg := { ConfigRegs.reset with lutIdx := 3 } } 0x04C 4)
      (fun t => t.faulted == some .uninitLattice) = true := by decide

/-- P5 (a): the engine moves before the racing write. -/
theorem test_race_engine_first :
    (let s := { pendingIn (lutState 0x020202 blackColor) .lutIdentity with host := [opWR .lutCfg 0x00030303] }
     match Sys2Proof.core.run 2 s with
     | .next t => t.cfg.lutCfg == 0x030303 && statusWord t.status == 0x00000002 && t.written 7 .blue
     | _ => false) = true := by decide

/-- P5 (b): the racing write comes first and is dropped. -/
theorem test_race_host_first :
    (let s := { pendingIn (lutState 0x020202 blackColor) .lutIdentity with
        host := [opWR .lutCfg 0x00030303], turns := [.host] }
     match Sys2Proof.core.run 2 s with
     | .next t => t.cfg.lutCfg == 0x020202 && statusWord t.status == 0x00000006 && t.written 7 .blue
     | _ => false) = true := by decide

/-- 2.1 "padded" and "small": EXP_LEN and OUT_DIM. -/
theorem test_geometry_lengths :
    (expLenValue { ConfigRegs.reset with geomW := 0x00040008, geomH := 0x00020004, align := 0x20040808 } = 192 ∧
     outDimValue { ConfigRegs.reset with geomW := 0x00040008, geomH := 0x00020004, align := 0x20040808 } = 0x00020004) ∧
    expLenValue { ConfigRegs.reset with geomW := 0x00020006, geomH := 0x00000002, align := 0x10040401 } = 48 := by
  decide

/-- R240: irq follows DONE while enabled, and the acknowledge lowers it. -/
theorem test_irq :
    nextIs (exec .decode { frame with irqEn := true }) (fun t => t.irq &&
      nextIs (busWrite t 0x008 4 0x2) (fun u => !u.irq)) = true := by decide

/-! ### The statements' hypotheses can be met -/

/-- The frame's DECODE accepted (R116), its ranges guarded. -/
def accepted : State := frame.accept (encode .decode)

/-- A command pending, with the host polling and one turn of its own. -/
def polling : State := { pendingIn frame .decode with host := [.poll], turns := [.host] }

/-- LUT_CFG 2x2x2, its Identity written, mapping black. -/
def identity2 : State := (lutState 0x020202 blackColor).putEntries (identityEntries ⟨2, 2, 2, .threeD⟩)

theorem test_meets_EncodedCommandsDecode :
    [Instr.decode, .decodeWrapped, .lutIdentity, .lutMapColor, .lutMapImage].all Instr.wellFormed = true := by decide

theorem test_meets_OnlyTheFiveWordsDecode : decodeWord 0x00000012 = .ok .lutMapImage ∧ 0x00000012#32 = encode .lutMapImage := by
  decide

theorem test_meets_CommandDecodingIsTotal :
    (0x00000100#32).extractLsb' 8 24 ≠ 0 ∧
    (0x00000012#32).extractLsb' 8 24 = 0 ∧ (0x00000012#32).extractLsb' 0 8 = 0x12 ∧
    (0x000000FF#32).extractLsb' 8 24 = 0 ∧
    [Instr.decode, .decodeWrapped, .lutIdentity, .lutMapColor, .lutMapImage].all
      (fun i => (0x000000FF#32).extractLsb' 0 8 != i.opcode) = true := by decide

theorem test_meets_RegisterMapHasOneOffsetEach : regAt 0x080 = some .imgDim ∧ 0x080 = offsetOf .imgDim := by decide

theorem test_meets_StepRunsTheDecodedCommand :
    ((pendingIn frame .decode).eng = .pending 1 ∧ decodeWord 1 = .ok .decode ∧
     nextAgent (pendingIn frame .decode) = some .engine ∧ (pendingIn frame .decode).raced = []) ∧
    (State.reset.withFetchWord 32 0x101).eng = .pending 0x101 ∧ decodeWord 0x101 = .error .reservedBits ∧
    nextAgent (State.reset.withFetchWord 32 0x101) = some .engine := by decide

theorem test_meets_IllegalWordHasNoOtherEffect :
    (0x00000000#32).extractLsb' 0 8 ∉ [0x01#8, 0x02#8, 0x10#8, 0x11#8, 0x12#8] ∧
    (0x00000101#32).extractLsb' 8 24 ≠ 0 ∧ State.reset.status.busy = false := by decide

theorem test_meets_CmdWriteWhileIdleIsAccepted : State.reset.status.busy = false := by decide

theorem test_meets_WritesWhileBusyAreDropped :
    (pendingIn frame .decode).status.busy = true ∧ (0x0FC < 0x100 ∧ 0x0FC % 4 = 0 ∧ 0x0FC ≠ 0x004 ∧ 0x0FC ≠ 0x008) ∧
    (0x004 < 0x100 ∧ 0x004 % 4 = 0) ∧ 0x008 < 0x100 ∧ 0x008 % 4 = 0 := by decide

theorem test_meets_EachCommandReportsOnlyItsCodes : ∃ t, exec .decode State.reset = .next t := ⟨_, rfl⟩

theorem test_meets_PlainRegisterWriteThenRead :
    State.reset.status.busy = false ∧
    (0x010, 0xFFFFFFFF#32) ∈ [(0x010, 0xFFFFFFFF#32), (0x040, 0x01FFFFFF#32)] ∧
    0x014 ≠ 0x010 ∧ 0x014 ∉ [0x030, 0x034, 0x048, 0x04C, 0x050] := by decide

theorem test_meets_ReadOnlyWritesHaveNoEffect :
    State.reset.status.busy = false ∧ (0x000 < 0x100 ∧ 0x000 % 4 = 0 ∧ 0x000 ∈ [0x000, 0x030, 0x034, 0x070, 0x074, 0x078]) ∧
    0x0FC < 0x100 ∧ 0x0FC % 4 = 0 ∧ regAt 0x0FC = none := by decide

theorem test_meets_RegisterReadsHaveNoSideEffect :
    (0x0FC < 0x100 ∧ 0x0FC % 4 = 0 ∧ 0x0FC ∉ [0x048, 0x04C, 0x050] ∧ 0x0FC ≠ 0x008) ∧ 0x048 ≠ 0x008 ∧
    0x008 ∉ [0x048, 0x04C, 0x050] ∧ (pendingIn frame .decode).status.busy = true := by decide

theorem test_meets_LatticeWindowWrite :
    (let s := { State.reset with cfg := { ConfigRegs.reset with lutIdx := 63 } }
     s.status.busy = false ∧ s.cfg.lutIdx.toNat < s.params.lutCapacity ∧ (62, Channel.red) ≠ (s.cfg.lutIdx.toNat, .red)) ∧
    (let s := { State.reset with cfg := { ConfigRegs.reset with lutIdx := 64 } }
     s.status.busy = false ∧ s.params.lutCapacity ≤ s.cfg.lutIdx.toNat) := by decide

theorem test_meets_LatticeWindowRead :
    (pendingIn frame .decode).status.busy = true ∧
    (let s := { State.reset with cfg := { ConfigRegs.reset with lutIdx := 64 } }
     s.status.busy = false ∧ s.params.lutCapacity ≤ s.cfg.lutIdx.toNat) ∧
    (let s := { State.reset with cfg := { ConfigRegs.reset with lutIdx := 63 } }.putChannel 63 .red 5
     s.status.busy = false ∧ s.cfg.lutIdx.toNat < s.params.lutCapacity ∧ s.written 63 .red = true ∧
     s.written 63 .green = false) := by decide

theorem test_meets_NarrowAccessesAreRefused :
    (0x0FF < 0x100 ∧ 1 ≠ 4) ∧ (0x000 < 0x100 ∧ 8 ≠ 4) ∧ 0x002 < 0x100 ∧ 0x002 % 4 ≠ 0 := by decide

theorem test_meets_HostAccessesOutsideStop :
    0x100 ≤ 0x100 ∧ (State.reset.params.inRegSpace (2 ^ 32) = false ∧ 2 ^ 32 ≤ 2 ^ 32) ∧
    (State.reset.params.regBase ≤ 0x40000000 ∧ 0x400000FF ≤ State.reset.params.regBase + 0xFF) := by decide

theorem test_meets_ComputedRegistersFollowGeometry :
    geometryValid (geometryOf frame.cfg) = true ∧ geometryValid (geometryOf State.reset.cfg) = false := by decide

theorem test_meets_HostMemoryAccess :
    (State.reset.params.inRegSpace 0 = false ∧ State.reset.isGuarded 0 = false) ∧
    State.reset.params.inRegSpace (2 ^ 32 - 1) = false ∧ 2 ^ 32 - 1 < 2 ^ 32 ∧ State.reset.isGuarded (2 ^ 32 - 1) = false ∧
    (1 : Nat) ≠ 0 := by decide

theorem test_meets_HostHazardIsMarked :
    frame.status.busy = false ∧ decodeWord 1 = .ok .decode ∧
    nextIs (busWrite frame 0x00C 4 1) (fun t => t.isGuarded 0x1000 && t.isGuarded 0x200B &&
      !t.params.inRegSpace 0x1000) = true ∧
    ((commandRanges frame.cfg .decode).1.contains 0x1009 = true ∧ (commandRanges frame.cfg .decode).2.contains 0x200B = true) ∧
    nextIs (busRead frame 0x008 4) (fun _ => true) = true := by decide

/-- A guard to keep: the host reads ID while DECODE is pending, or the engine ends DECODE with irq masked. A guard to end:
irq is enabled while DONE = 1. -/
theorem test_meets_HostHazardIsMarked_lasting :
    (let s := { accepted with host := [opRD .id], turns := [.host] }
     nextIs (step s) (fun t => !t.irq && t.isGuarded 0x200B) = true ∧ s.isGuarded 0x200B = true ∧
     nextAgent s = some .host ∧ ¬ s.hostObservesOrResets) ∧
    (nextIs (step accepted) (fun t => !t.irq && t.isGuarded 0x200B) = true ∧
     accepted.isGuarded 0x200B = true ∧ nextAgent accepted ≠ some .host) ∧
    nextIs (busWrite { frame with status := ⟨false, true, false, .ok⟩, guarded := [⟨0, 1⟩] } 0x004 4 1)
      (fun t => t.irq && t.guarded.isEmpty) = true := by
  refine ⟨⟨by decide, by decide, by decide, ?_⟩, by decide, by decide⟩
  simp [State.hostObservesOrResets, opRD, offsetOf]

theorem test_meets_PollEndsWithinTheSchedule :
    polling.Inv ∧ polling.eng = .pending 1 ∧ polling.host = .poll :: [] := by
  refine ⟨⟨?_, ?_, ?_, ?_, ?_, ?_, ?_, ?_, ?_⟩, rfl, rfl⟩
  · exact ⟨fun _ => rfl, fun _ => ⟨_, rfl⟩⟩
  all_goals decide

/-- R269: with irq masked a new result is not read before STATUS has been; with irq enabled it is read at once. -/
theorem test_out_reads_previous_until_observed :
    (let s := { pendingIn (curve ⟨65535, 65535, 65535⟩) .lutMapColor with
        host := [opRD (.output .red), opRD .status, opRD (.output .red)] }
     (match Sys2Proof.core.run 4 s with
      | .next t => decide (t.observed = [.reg 0x070 65535, .reg 0x008 2, .reg 0x070 0])
      | _ => false) &&
     nextIs (step { s with irqEn := true }) (fun t => t.irq && t.readReg (some (.output .red)) == 65535)) = true := by
  decide

/-- R111: a result whose completion was not observed is read once a further command is pending. -/
theorem test_out_reads_last_result_while_pending :
    (let s := { pendingIn (curve ⟨65535, 65535, 65535⟩) .lutMapColor with
        host := [opRD (.output .red), opISSUE .lutIdentity, opRD (.output .red)], turns := [.engine, .host] }
     match Sys2Proof.core.run 4 s with
     | .next t => decide (t.observed = [.reg 0x070 65535, .reg 0x070 0]) && t.status.busy
     | _ => false) = true := by decide

/-- A busy state, an acceptance, a step that observes and accepts nothing and stores a result, the observing accesses, and
an engine step that raises irq. -/
theorem test_meets_ResultsShowOnceObserved :
    (polling.status.busy = true ∧ nextIs (busWrite State.reset 0x00C 4 0x11) (fun t => t.status.busy) = true) ∧
    (let s := pendingIn (curve ⟨65535, 65535, 65535⟩) .lutMapColor
     nextIs (step s) (fun t => !t.irq && t.out != s.out) = true ∧ s.status.busy = true ∧ nextAgent s = some .engine ∧
     nextIs (step { s with irqEn := true }) (fun t => t.irq) = true) ∧
    State.reset.status.busy = false ∧ nextIs (busRead State.reset 0x008 4) (fun _ => true) = true ∧
    nextIs (busWrite { State.reset with status := ⟨false, true, false, .ok⟩ } 0x004 4 1) (fun t => t.irq) = true ∧
    nextIs (busWrite State.reset 0x004 4 1) (fun t => !t.irq) = true := by decide

theorem test_meets_MarksAreNeverCleared :
    (let s := { State.reset with faulted := some .hostHazard, refused := true, host := [.reset] }
     s.faulted.isSome = true ∧ s.refused = true ∧ nextIs (step s) (fun t => t.refused) = true) := by decide

theorem test_meets_ResetValues :
    0x080 < 0x100 ∧ 0x080 ≠ 0x000 ∧ 0x080 ∉ [0x048, 0x04C, 0x050] ∧
    (wordRanges frame.cfg 1).2.contains 0x200C = false := by decide

theorem test_meets_ResetAbandonsThePendingCommand :
    (pendingIn frame .decode).eng = .pending 1 ∧ frame.eng = .idle ∧ (wordRanges frame.cfg 1).2.contains 0x1FFF = false := by
  decide

theorem test_meets_CommandsAfterResetFail : ∃ t, hostOp .reset frame = .next t := ⟨_, rfl⟩

theorem test_meets_SampleUnpacking :
    (let g := geometryOf frame.cfg
     frame.params.admits (0x1000 + 1 * rowStride g + 5 * (3 / 4) + 3 % 4) = true ∧
     frame.params.admits (0x1000 + 1 * rowStride g + 5 * (3 / 4) + 4) = true ∧ frame.params.lsbOrder = .lsbFirst) ∧
    { frame.params with lsbOrder := LsbOrder.msbFirst }.lsbOrder = .msbFirst := by decide

theorem test_meets_DecodeReadsInsideThePayload :
    geometryValid ⟨2, 0, 2, 0, 4, 1, 1, 1⟩ = true ∧ 1 < (geometryOf frame.cfg).h ∧ 3 < (geometryOf frame.cfg).w := by decide

/-- Both decode rows of 2.3 and 2.4 pass the shared checks. -/
theorem frame_checks : FrameChecksPass frame ∧ FrameChecksPass wrapped :=
  ⟨⟨by decide, by decide, by decide, by decide⟩, by decide, by decide, by decide, by decide⟩

theorem wrapped_marker : ∀ k, k < 4 → wrapped.markerByteOk k := by
  intro k hk
  have h : (k = 0 ∨ k = 1) ∨ k = 2 ∨ k = 3 := by omega
  rcases h with (rfl | rfl) | rfl | rfl <;> exact ⟨by decide, by decide⟩

theorem test_meets_DecodeWritesTheGrid :
    FrameChecksPass frame ∧ frame.cfg.srcLen.toNat = expectedLength (geometryOf frame.cfg) ∧
    PayloadAdmitted frame frame.cfg.srcBase.toNat ∧ RangeAdmitted frame (decodedRange frame.cfg) ∧
    1 < outWidth (geometryOf frame.cfg) ∧ 0 < outHeight (geometryOf frame.cfg) :=
  ⟨frame_checks.1, by decide, fun _ _ _ _ => ⟨rfl, rfl⟩, fun _ _ => rfl, by decide, by decide⟩

theorem test_meets_DecodeWrappedWritesTheGrid :
    FrameChecksPass wrapped ∧ wrapped.wrappedLongEnough ∧ (∀ k, k < 4 → wrapped.markerByteOk k) ∧
    PayloadAdmitted wrapped wrapped.wrappedPayload ∧ RangeAdmitted wrapped (decodedRange wrapped.cfg) :=
  ⟨frame_checks.2, by unfold State.wrappedLongEnough; decide, wrapped_marker, fun _ _ _ _ => ⟨rfl, rfl⟩, fun _ _ => rfl⟩

/-- The rows of 2.3: reset geometry, a source that wraps, a one-byte overlap, one byte too long; 2.4: too short. -/
theorem test_meets_DecodeRejectsInOrder :
    geometryValid (geometryOf State.reset.cfg) = false ∧
    (let r := { frameRegs with srcBase := 0xFFFFFFF8 }
     geometryValid (geometryOf r) = true ∧ (frameRange r).fits = false) ∧
    (let r := { frameRegs with dstBase := 0xFFFFFFF5 }
     geometryValid (geometryOf r) = true ∧ (decodedRange r).fits = false) ∧
    (let r := { frameRegs with dstBase := 0x1009 }
     geometryValid (geometryOf r) = true ∧ (frameRange r).fits = true ∧ (decodedRange r).fits = true ∧
     (frameRange r).overlaps (decodedRange r) = true) ∧
    FrameChecksPass { frame with cfg := { frameRegs with srcLen := 11 } } ∧
    11 ≠ expectedLength (geometryOf frameRegs) ∧
    FrameChecksPass { frame with cfg := { frameRegs with srcLen := 13 } } ∧
    ¬ State.wrappedLongEnough { frame with cfg := { frameRegs with srcLen := 13 } } := by
  refine ⟨by decide, by decide, by decide, by decide, ⟨by decide, by decide, by decide, by decide⟩, by decide,
    ⟨by decide, by decide, by decide, by decide⟩, ?_⟩
  unfold State.wrappedLongEnough; decide

/-- 2.4: "marker byte not admitted" (byte 1), "wrong last marker byte" (byte 3). -/
theorem test_meets_MarkerIsCheckedByteByByte :
    FrameChecksPass wrapped ∧ wrapped.wrappedLongEnough ∧ (∀ j, j < 3 → wrapped.markerByteOk j) ∧
    (refusing wrapped 0x1007).params.admits ((refusing wrapped 0x1007).magicAddr + 1) = false ∧
    (refusing wrapped 0x1007).params.admits ((refusing wrapped 0x1007).magicAddr + 0) = true ∧
    byteAt (wrapped.putByte 0x1009 0x45).mem ((wrapped.putByte 0x1009 0x45).magicAddr + 3) ≠
      (wrapped.putByte 0x1009 0x45).cfg.magic.extractLsb' (8 * 3) 8 :=
  ⟨frame_checks.2, by unfold State.wrappedLongEnough; decide, fun j hj => wrapped_marker j (by omega), by decide,
    by decide, by decide⟩

/-- 2.3 "bus error"; a destination byte not admitted in a wrapped decode. -/
theorem test_meets_DecodeEndsInBusError :
    FrameChecksPass (refusing frame 0x1003) ∧ ¬ PayloadAdmitted (refusing frame 0x1003) 0x1000 ∧
    FrameChecksPass (refusing wrapped 0x200B) ∧ ¬ RangeAdmitted (refusing wrapped 0x200B) (decodedRange wrapped.cfg) := by
  refine ⟨⟨by decide, by decide, by decide, by decide⟩, fun h => ?_, ⟨by decide, by decide, by decide, by decide⟩, fun h => ?_⟩
  · exact absurd (h 3 0 (by decide) (by decide)).1 (by decide)
  · exact absurd (h 0x200B (by decide)) (by decide)

theorem test_meets_DecodeIgnoresPadding :
    (∃ s t, exec .decode frame = .next s ∧ exec .decode (frame.putByte 0x5000 7) = .next t) ∧
    (frame.putByte 0x5000 7).cfg = frame.cfg ∧ (frame.putByte 0x5000 7).params = frame.params ∧
    (List.range 10).all (fun k => byteAt (frame.putByte 0x5000 7).mem (0x1000 + k) == byteAt frame.mem (0x1000 + k)) = true :=
  ⟨⟨_, _, rfl, rfl⟩, by decide, by decide, by decide⟩

theorem test_meets_GridCommandsFrame :
    (nextIs (exec .decode frame) (fun t => t.status.err == .ok) &&
     nextIs (exec .lutMapImage State.reset) (fun t => t.status.err == .lutDim)) = true ∧
    (decodedRange frame.cfg).contains 0x200C = false ∧ (imageDest image.cfg).contains 0x3006 = false := by decide

theorem test_meets_RootIndexAndRemainder : 65535 ≤ 65535 ∧ 2 ≤ 255 ∧ 255 ≤ 255 ∧ rootRem 65535 255 = 261 := by decide

theorem test_meets_InterpolationStep : 0 < blockSize 255 ∧ (100 : Int) ≤ 100 := by decide

theorem test_meets_TrilinearResultIsBounded :
    (let sh := LutShape.mk 2 255 2 .threeD
     2 ≤ sh.x ∧ sh.x ≤ 255 ∧ 2 ≤ sh.y ∧ sh.y ≤ 255 ∧ 2 ≤ sh.z ∧ sh.z ≤ 255) ∧
    (∀ e : Nat, (0 : Int) ≤ (fun _ => 65535) e ∧ ((fun _ => 65535) e : Int) ≤ 65535) :=
  ⟨by decide, fun _ => by simp⟩

/-- 2.7: 5x4x4 > 64 and 4x4x4; 1-D with X = 65 and X = 64. -/
theorem test_meets_LutCommandsNeedAValidLattice :
    (lutState 0x040405 blackColor).cfg.lutCfg.getLsbD 24 = false ∧ (lutState 0x040405 blackColor).lutReady = false ∧
    (lutState 0x040404 blackColor).lutReady = true ∧
    (lutState 0x1000041 blackColor).cfg.lutCfg.getLsbD 24 = true ∧ (lutState 0x1000041 blackColor).lutReady = false ∧
    (lutState 0x1000040 blackColor).lutReady = true := by decide

theorem test_meets_IdentityWritesTheLattice :
    (lutState 0x020203 blackColor).lutReady = true ∧ (lutShapeOf (lutState 0x020203 blackColor).cfg).mode = .threeD ∧
    (2 < (lutShapeOf (lutState 0x020203 blackColor).cfg).x ∧ 1 < (lutShapeOf (lutState 0x020203 blackColor).cfg).y) ∧
    (lutState 0x1000003 blackColor).lutReady = true ∧ (lutShapeOf (lutState 0x1000003 blackColor).cfg).mode = .oneD ∧
    2 < (lutShapeOf (lutState 0x1000003 blackColor).cfg).x := by decide

theorem test_meets_LutRegisterCommandsFrame :
    (nextIs (exec .lutIdentity identity2) (fun t => t.status.err == .ok) &&
     nextIs (exec .lutMapColor State.reset) (fun t => t.status.err == .lutDim)) = true := by decide

theorem test_meets_MapColorIsTrilinear :
    identity2.lutReady = true ∧ (lutShapeOf identity2.cfg).mode = .threeD := by decide

theorem test_meets_MapColorIsLinear :
    (curve ⟨65535, 0, 1⟩).lutReady = true ∧ (lutShapeOf (curve ⟨65535, 0, 1⟩).cfg).mode = .oneD := by decide

/-- Written and unwritten corners in both modes. -/
theorem test_meets_UnwrittenLatticeIsMarked :
    (identity2.lutReady = true ∧ ¬ identity2.ReadsUnwritten identity2.cfg.input) ∧
    ((lutState 0x020202 blackColor).lutReady = true ∧ (lutState 0x020202 blackColor).ReadsUnwritten blackColor) ∧
    ((curve blackColor).lutReady = true ∧ ¬ (curve blackColor).ReadsUnwritten blackColor) ∧
    (lutState 0x1000003 blackColor).lutReady = true ∧ (lutState 0x1000003 blackColor).ReadsUnwritten blackColor :=
  ⟨⟨by decide, (latticeReady_iff _ _).1 (by decide)⟩, ⟨by decide, 0, 0, 0, .red, by decide⟩,
    ⟨by decide, (latticeReady_iff _ _).1 (by decide)⟩, by decide, .red, 0, by decide⟩

theorem test_meets_IdentityMapsEveryColourToItself :
    (lutState 0x030303 ⟨65535, 65535, 65535⟩).lutReady = true ∧ (lutState 0x1000002 ⟨1, 2, 3⟩).lutReady = true := by decide

/-- 1.2, row 3x3x3: the last point of one axis, the first of another; 1-D likewise. -/
theorem test_meets_LatticePointsAreReproduced :
    (let s := lutState 0x030303 ⟨65534, 0, 65534⟩
     s.lutReady = true ∧ (lutShapeOf s.cfg).mode = .threeD ∧ 2 < (lutShapeOf s.cfg).x ∧
     s.cfg.input.r.toNat = 2 * blockSize (lutShapeOf s.cfg).x ∧ s.cfg.input.g.toNat = 0 * blockSize (lutShapeOf s.cfg).y ∧
     s.cfg.input.b.toNat = 2 * blockSize (lutShapeOf s.cfg).z) ∧
    (let s := curve ⟨65534, 0, 32767⟩
     s.lutReady = true ∧ (lutShapeOf s.cfg).mode = .oneD ∧ s.cfg.input.r.toNat = 2 * blockSize 3 ∧
     s.cfg.input.g.toNat = 0 * blockSize 3 ∧ s.cfg.input.b.toNat = 1 * blockSize 3) := by decide

theorem test_meets_PixelsReadBackBigEndian :
    HoldsPixel image.mem 0x2000 ⟨16384, 16384, 16384⟩ ∧ (∀ k, k < 6 → image.params.admits (0x2000 + k) = true) :=
  ⟨⟨by decide, by decide, by decide, by decide, by decide, by decide⟩, fun _ _ => rfl⟩

theorem image_checks : ImageChecksPass image := ⟨by decide, by decide, by decide, by decide⟩

/-- LUT_MAP_IMAGE with its lattice written, with none of it written, and with a failing check. -/
theorem test_meets_UnwrittenLatticeIsMarked_image :
    (ImageChecksPass image ∧ ∀ p c, image.SourcePixel p c → ¬ image.ReadsUnwritten c) ∧
    (ImageChecksPass { image with lattice := [] } ∧
      ∃ p c, State.SourcePixel { image with lattice := [] } p c ∧ State.ReadsUnwritten { image with lattice := [] } c) ∧
    ¬ ImageChecksPass State.reset :=
  ⟨⟨image_checks, (imageReady_iff _).1 (by decide)⟩,
    ⟨⟨by decide, by decide, by decide, by decide⟩, 0, ⟨16384, 16384, 16384⟩,
      ⟨by decide, test_meets_PixelsReadBackBigEndian.1, fun _ _ => rfl⟩, .red, 0, by decide⟩,
    fun h => absurd h.lutReady (by decide)⟩

theorem test_meets_MapImageMapsEveryPixel :
    ImageChecksPass image ∧ RangeAdmitted image (imageSource image.cfg) ∧ RangeAdmitted image (imageDest image.cfg) ∧
    0 < imagePixels image.cfg ∧ HoldsPixel image.mem (image.cfg.srcBase.toNat + 6 * 0) ⟨16384, 16384, 16384⟩ :=
  ⟨image_checks, fun _ _ => rfl, fun _ _ => rfl, by decide, test_meets_PixelsReadBackBigEndian.1⟩

/-- 2.10: "source wraps", "overlap", "empty". -/
theorem test_meets_MapImageRejectsInOrder :
    image.lutReady = true ∧
    (let r := { image.cfg with srcBase := 0xFFFFFFFB }
     (imageSource r).fits = false) ∧
    (let r := { image.cfg with dstBase := 0x2005 }
     (imageSource r).fits = true ∧ (imageDest r).fits = true ∧ (imageSource r).overlaps (imageDest r) = true) ∧
    imagePixels { image.cfg with imgDim := 0x00000005 } = 0 := by decide

theorem test_meets_MapImageEndsInBusError :
    ImageChecksPass (refusing image 0x2005) ∧ ¬ RangeAdmitted (refusing image 0x2005) (imageSource image.cfg) ∧
    ImageChecksPass (refusing image 0x3000) ∧ ¬ RangeAdmitted (refusing image 0x3000) (imageDest image.cfg) := by
  refine ⟨⟨by decide, by decide, by decide, by decide⟩, fun h => ?_, ⟨by decide, by decide, by decide, by decide⟩, fun h => ?_⟩
  · exact absurd (h 0x2005 (by decide)) (by decide)
  · exact absurd (h 0x3000 (by decide)) (by decide)

theorem test_meets_StepKeepsTheMachineWellFormed : polling.Inv ∧ ∃ t, step polling = .next t :=
  ⟨test_meets_PollEndsWithinTheSchedule.1, _, rfl⟩

theorem test_meets_OperandsAreFixedWhilePending :
    polling.Inv ∧ polling.eng = .pending 1 ∧ ∃ t, step polling = .next t ∧ t.eng = .pending 1 :=
  ⟨test_meets_PollEndsWithinTheSchedule.1, rfl, _, rfl, rfl⟩

theorem test_meets_ParametersNeverChange : ∃ t, step polling = .next t := ⟨_, rfl⟩

theorem test_meets_AgentsTakeTurns :
    (nextAgent polling = some .host ∧ polling.host = .poll :: [] ∧ polling.status.busy = true) ∧
    (let s := { State.reset with host := [opRD .id] }
     nextAgent s = some .host ∧ s.host = opRD .id :: []) ∧
    nextAgent (pendingIn frame .decode) = some .engine ∧ nextAgent State.reset = none := by decide

end Sys2Proof.Tests
end

namespace Sys2Proof.Machine

/-! ### What performing a command keeps (R124, R125, R236) -/

/-- `t` comes from `s` by the effect of a command: the host's side is untouched, and memory and lattice keep their
canonical forms. -/
structure EffectKeeps (s t : State) : Prop extends KeepsHostSide s t where
  mem_wf     : Memory.wf s.mem = true → Memory.wf t.mem = true
  lattice_wf : Lattice.wf s.params.lutCapacity s.lattice = true → Lattice.wf s.params.lutCapacity t.lattice = true

theorem EffectKeeps.trans {s t u : State} (h : EffectKeeps s t) (h' : EffectKeeps t u) : EffectKeeps s u where
  toKeepsHostSide := h.toKeepsHostSide.trans h'.toKeepsHostSide
  mem_wf hm := h'.mem_wf (h.mem_wf hm)
  lattice_wf hl := by
    have := h'.lattice_wf
    rw [h.params] at this
    exact this (h.lattice_wf hl)

theorem State.complete_effectKeeps (s : State) (code : ErrCode) : EffectKeeps s (s.complete code) :=
  ⟨s.complete_keepsHostSide code, id, id⟩

theorem State.markUninit_effectKeeps (s : State) (b : Bool) : EffectKeeps s (s.markUninit b) where
  toKeepsHostSide := by constructor <;> simp
  mem_wf := by simp
  lattice_wf := by simp

/-- A byte string written inside the address space keeps memory in canonical form. -/
theorem State.putBytes_effectKeeps (s : State) {a : Nat} {bs : List Byte} (h : a + bs.length ≤ memBytes) :
    EffectKeeps s (s.putBytes a bs) where
  toKeepsHostSide := s.putBytes_keepsHostSide a bs
  mem_wf hm := s.putBytes_wf a bs hm h
  lattice_wf hl := by rwa [State.putBytes_eq]

/-- An abort keeps both canonical forms, also where it scrubs the destination range (R237). -/
theorem State.raiseError_effectKeeps (s : State) (dest : AddrRange) (code : ErrCode) :
    EffectKeeps s (s.raiseError dest code) where
  toKeepsHostSide := s.raiseError_keepsHostSide dest code
  mem_wf hm := by
    unfold State.raiseError
    split
    · exact State.scrub_wf _ _ hm (range_addresses_lt dest)
    · exact hm
  lattice_wf := by simp

/-- A command that ends in `conclude` has ended, and keeps what its effect keeps (R124). -/
theorem State.conclude_effectKeeps (s : State) (dest : AddrRange) (r : Except ErrCode State)
    (h : ∀ t, r = .ok t → EffectKeeps s t) :
    ∃ code, EndsWith (s.conclude dest r) code ∧ EffectKeeps s (s.conclude dest r) := by
  cases r with
  | error c => exact ⟨c, State.raiseError_endsWith .., State.raiseError_effectKeeps ..⟩
  | ok t => exact ⟨.ok, State.complete_endsWith .., (h t rfl).trans (State.complete_effectKeeps ..)⟩

/-- A decode writes its grid into its destination range, which the range check has found inside memory (R154). -/
theorem decodeFrame_effectKeeps {wrapped : Bool} {s t : State} (h : decodeFrame wrapped s = .ok t) :
    EffectKeeps s t := by
  rcases decodeFrame_cases wrapped s with ⟨c, e⟩ | ⟨hc, pb, -, e, -⟩
  · rw [e] at h; cases h
  · rw [e] at h; cases h
    refine s.putBytes_effectKeeps ?_
    rw [demosaicedGrid_bytes_length]
    exact (range_fits_iff _).1 hc.destFits

/-- LUT_IDENTITY writes entries of a valid lattice only, all below the capacity (R189, R191). -/
theorem identityLattice_effectKeeps {s t : State} (h : identityLattice s = .ok t) : EffectKeeps s t := by
  unfold identityLattice at h
  split at h
  · next hv =>
    cases h
    exact { toKeepsHostSide := by constructor <;> simp
            mem_wf := by simp
            lattice_wf := fun hl => s.putEntries_wf _ hl (identityEntries_lt hv) }
  · cases h

/-- LUT_MAP_COLOR stores OUT and may set the mark of R46 (R192). -/
theorem mapInput_effectKeeps {s t : State} (h : mapInput s = .ok t) : EffectKeeps s t := by
  unfold mapInput at h
  split at h
  · cases h
    have hm := s.markUninit_effectKeeps (s.latticeReady s.cfg.input)
    exact { hm with }
  · cases h

/-- LUT_MAP_IMAGE ends in each of its cases, and writes inside its destination range only (R193). -/
theorem mapImage_effectKeeps (s : State) : ∃ code, EndsWith (mapImage s) code ∧ EffectKeeps s (mapImage s) := by
  rcases mapImage_cases s with ⟨c, -, -, e⟩ | ⟨hc, -, -, e⟩ | ⟨-, -, e⟩ <;> rw [e]
  · exact ⟨c, State.complete_endsWith .., State.complete_effectKeeps ..⟩
  · have hfits : s.cfg.dstBase.toNat + (s.mappedGrid.flatMap pixelBytes).length ≤ memBytes := by
      rw [mappedGrid_bytes_length]
      exact (range_fits_iff _).1 hc.destFits
    exact ⟨.ok, State.complete_endsWith .., (s.markUninit_effectKeeps _).trans
      ((State.putBytes_effectKeeps _ hfits).trans (State.complete_effectKeeps ..))⟩
  · exact ⟨.bus, State.raiseError_endsWith .., (s.markUninit_effectKeeps _).trans (State.raiseError_effectKeeps ..)⟩

/-- Every command ends, and keeps the host's side and both canonical forms. -/
theorem exec_effectKeeps {i : Instr} {s t : State} (h : exec i s = .next t) :
    ∃ code, EndsWith t code ∧ EffectKeeps s t := by
  cases i with
  | decode => cases h; exact s.conclude_effectKeeps _ _ fun _ => decodeFrame_effectKeeps
  | decodeWrapped => cases h; exact s.conclude_effectKeeps _ _ fun _ => decodeFrame_effectKeeps
  | lutIdentity => cases h; exact s.conclude_effectKeeps _ _ fun _ => identityLattice_effectKeeps
  | lutMapColor => cases h; exact s.conclude_effectKeeps _ _ fun _ => mapInput_effectKeeps
  | lutMapImage => cases h; exact mapImage_effectKeeps s

/-- So does every command word, an illegal one included (R95). -/
theorem performWord_effectKeeps {w : Word} {s t : State} (h : performWord w s = .next t) :
    ∃ code, EndsWith t code ∧ EffectKeeps s t := by
  rcases performWord_cases h with rfl | ⟨i, hi⟩
  · exact ⟨.illegal, State.raiseError_endsWith .., State.raiseError_effectKeeps ..⟩
  · exact exec_effectKeeps hi

@[simp] theorem State.scrubRaced_params (s : State) : s.scrubRaced.params = s.params := State.scrub_params ..

/-! ### The invariant over the moves of the host -/

theorem State.Inv.markRefused {s : State} (h : s.Inv) : s.markRefused.Inv := { h with }

theorem State.Inv.recordObs {s : State} (h : s.Inv) (o : Observation) : (s.recordObs o).Inv := { h with }

theorem State.Inv.hazardRead {s : State} (h : s.Inv) (a : Nat) : (s.hazardRead a).Inv := { h with }

theorem State.Inv.withHost {s : State} (h : s.Inv) (ops : List HostOp) : { s with host := ops }.Inv := { h with }

theorem State.Inv.spendTurn {s : State} (h : s.Inv) : s.spendTurn.Inv := by
  unfold State.spendTurn
  split
  · exact { h with }
  · exact h

theorem State.Inv.putByte {s : State} (h : s.Inv) {a : Nat} (v : Byte) (ha : a < memBytes) : (s.putByte a v).Inv :=
  { h with mem_wf := Memory.wf_put v h.mem_wf ha }

/-- A hazard is remembered as a race only while a command is pending (R267). -/
theorem State.Inv.hazardWrite {s : State} (h : s.Inv) {a : Nat} (ha : a < memBytes) : (s.hazardWrite a).Inv := by
  rw [hazardWrite_eq]
  exact { h with
    mem_wf := Memory.wf_put _ h.mem_wf ha
    raced_in_memory := by
      intro b hb
      dsimp only at hb
      split at hb
      · rcases List.mem_cons.1 hb with rfl | hb
        · exact ha
        · exact h.raced_in_memory b hb
      · exact h.raced_in_memory b hb
    idle_not_raced := fun hb => by simpa [show s.status.busy = false from hb] using h.idle_not_raced hb }

/-- A read makes OUT_R/G/B show another value only where it reads STATUS with BUSY = 0 (R75). -/
theorem State.Inv.hostRead {s : State} (h : s.Inv) (off : Nat) (r : Option Reg) : (s.hostRead off r).Inv := by
  rw [hostRead_eq]
  exact { h with busy_shows_out := fun hb => by simpa [show s.status.busy = true from hb] using h.busy_shows_out hb }

theorem State.Inv.observeIrq {s : State} (h : s.Inv) : s.observeIrq.Inv := by
  rw [observeIrq_eq]
  refine { h with busy_shows_out := fun hb => ?_ }
  dsimp only
  split
  · rfl
  · exact h.busy_shows_out hb

/-- An acknowledge clears DONE and BUSY_WR at most (R115). -/
theorem State.Inv.acknowledge {s : State} (h : s.Inv) (d : Word) :
    { s with status := acknowledge s.status d }.Inv :=
  { h with busy_not_done := fun hb => by simp [Machine.acknowledge, h.busy_not_done hb] }

/-- An acceptance makes the machine busy with DONE = 0, ERR = 0 and OUT_R/G/B showing the last result (R116, R123). -/
theorem State.Inv.accept {s : State} (h : s.Inv) (w : Word) : (s.accept w).Inv :=
  { h with
    pending_iff_busy := ⟨fun _ => rfl, fun _ => ⟨w, rfl⟩⟩
    busy_not_done := fun _ => rfl
    busy_err_zero := fun _ => rfl
    busy_shows_out := fun _ => rfl
    idle_not_raced := fun hb => Bool.noConfusion hb }

theorem State.Inv.writeWindow {s : State} (h : s.Inv) (n : Channel) (d : Word) : (s.writeWindow n d).Inv := by
  rcases writeWindow_cases s n d with e | ⟨hi, e⟩ <;> rw [e]
  · exact h
  · exact { h with lattice_wf := Lattice.wf_put n _ h.lattice_wf hi }

theorem State.Inv.storeReg {s : State} (h : s.Inv) (r : Option Reg) (d : Word) : (s.storeReg r d).Inv := by
  rcases storeReg_cases s r d with e | e | e | ⟨-, e⟩ | ⟨n, -, e⟩ | ⟨c, e⟩ <;> rw [e]
  · exact h
  · have hc : { s with irqEn := d.getLsbD 0 }.Inv := { h with }
    exact hc.observeIrq
  · exact h.acknowledge d
  · exact h.accept d
  · exact h.writeWindow n d
  · exact { h with }

/-- A register write is dropped, which only sets BUSY_WR, or it is performed (R110, R113). -/
theorem writeReg_cases (s : State) (r : Option Reg) (d : Word) :
    s.writeReg r d = { s with status := { s.status with busyWr := true } } ∨ s.writeReg r d = s.storeReg r d := by
  unfold State.writeReg
  split
  · exact .inl rfl
  · exact .inr rfl

theorem State.Inv.writeReg {s : State} (h : s.Inv) (r : Option Reg) (d : Word) : (s.writeReg r d).Inv := by
  rcases writeReg_cases s r d with e | e <;> rw [e]
  · exact { h with }
  · exact h.storeReg r d

@[simp] theorem State.abandon_params (s : State) : s.abandon.params = s.params := by
  unfold State.abandon
  split
  · rfl
  · exact State.scrub_params ..

/-- Reset scrubs at most the destination range of the command it abandons (R262). -/
theorem State.abandon_mem_wf {s : State} (h : Memory.wf s.mem = true) : Memory.wf s.abandon.mem = true := by
  unfold State.abandon
  split
  · exact h
  · exact State.scrub_wf _ _ h (range_addresses_lt _)

@[simp] theorem State.resetBlock_params (s : State) : s.resetBlock.params = s.params := s.abandon_params

/-- Reset leaves an idle block with nothing in its lattice (R48, R261). -/
theorem State.Inv.resetBlock {s : State} (h : s.Inv) : s.resetBlock.Inv where
  pending_iff_busy := ⟨fun ⟨_, hw⟩ => Engine.noConfusion hw, fun hb => Bool.noConfusion hb⟩
  busy_not_done hb := Bool.noConfusion hb
  busy_err_zero hb := Bool.noConfusion hb
  busy_shows_out hb := Bool.noConfusion hb
  mem_wf := State.abandon_mem_wf h.mem_wf
  lattice_wf := rfl
  raced_in_memory _ ha := absurd ha List.not_mem_nil
  idle_not_raced _ := rfl
  params_wf := by rw [State.resetBlock_params]; exact h.params_wf

theorem State.Inv.hostOp {s t : State} {op : HostOp} (h : s.Inv) (ht : hostOp op s = .next t) : t.Inv := by
  rcases hostOp_cases ht with ⟨r, d, rfl⟩ | ⟨off, r, rfl, -⟩ | rfl | ⟨a, v, ha, rfl⟩ | ⟨a, ha, rfl⟩ | ⟨a, rfl⟩ | ⟨o, rfl⟩ |
    ⟨-, rfl⟩
  · exact h.writeReg r d
  · exact h.hostRead off r
  · exact h.markRefused
  · exact h.putByte v ha
  · exact h.hazardWrite ha
  · exact h.hazardRead a
  · exact h.recordObs o
  · exact h.resetBlock

/-! ### The invariant over the move of the engine -/

/-- Scrubbing changes memory and the counter of free bytes only. -/
theorem State.scrub_eq (s : State) (as : List Nat) :
    s.scrub as = { s with mem := (s.scrub as).mem, draws := (s.scrub as).draws } := by
  induction as generalizing s with
  | nil => rfl
  | cons a as ih => rw [State.scrub, ih]

/-- The bytes the host raced on lie in memory, so giving them free values keeps the invariant. -/
theorem State.Inv.scrubRaced {s : State} (h : s.Inv) : s.scrubRaced.Inv := by
  have hm := State.scrub_wf _ _ h.mem_wf h.raced_in_memory
  rw [State.scrubRaced, State.scrub_eq]
  exact { h with mem_wf := hm }

@[simp] theorem State.settleRaced_params (s : State) : s.settleRaced.params = s.params := s.scrubRaced_params

@[simp] theorem State.settleRaced_lattice (s : State) : s.settleRaced.lattice = s.lattice := State.scrub_lattice ..

theorem State.settleRaced_endsWith {s : State} {code : ErrCode} (h : EndsWith s code) :
    EndsWith s.settleRaced code := by
  obtain ⟨hbusy, hdone, herr, hidle⟩ := h
  constructor <;> simpa [State.settleRaced, State.scrubRaced]

/-- A command word that has been performed leaves an idle machine, with no race remembered (R125, R267). -/
theorem State.Inv.performed {s u : State} {w : Word} (h : s.Inv) (hu : performWord w s = .next u) :
    u.settleRaced.Inv := by
  obtain ⟨code, hends, hkeeps⟩ := performWord_effectKeeps hu
  obtain ⟨hfree, -, -, hidle⟩ := State.settleRaced_endsWith hends
  exact {
    pending_iff_busy := by simp [hidle, hfree]
    busy_not_done := by simp [hfree]
    busy_err_zero := by simp [hfree]
    busy_shows_out := by simp [hfree]
    mem_wf := State.scrub_wf _ _ (hkeeps.mem_wf h.mem_wf) (hkeeps.raced ▸ h.raced_in_memory)
    lattice_wf := by simpa [hkeeps.params] using hkeeps.lattice_wf h.lattice_wf
    raced_in_memory := fun _ ha => absurd ha List.not_mem_nil
    idle_not_raced := fun _ => rfl
    params_wf := by simpa [hkeeps.params] using h.params_wf }

/-- Settles O55, by the cases of a step: nothing moves, the host performs an operation, or the engine performs the
pending word. -/
theorem stepKeepsTheMachineWellFormed : Obligations.StepKeepsTheMachineWellFormed := by
  intro s t h ht
  rcases step_cases ht with ⟨-, -, rfl⟩ | ⟨-, op, -, left, -, -, hop⟩ | ⟨-, w, u, -, hu, rfl⟩
  · exact h
  · exact (h.spendTurn.withHost left).hostOp hop
  · exact h.spendTurn.scrubRaced.performed hu

/-- Settles O56: every field of the invariant is read off State.reset. -/
theorem resetIsWellFormed : Obligations.ResetIsWellFormed where
  pending_iff_busy := ⟨fun ⟨_, hw⟩ => Engine.noConfusion hw, fun hb => Bool.noConfusion hb⟩
  busy_not_done _ := rfl
  busy_err_zero _ := rfl
  busy_shows_out _ := rfl
  mem_wf := rfl
  lattice_wf := rfl
  raced_in_memory _ ha := absurd ha List.not_mem_nil
  idle_not_raced _ := rfl
  params_wf := by decide

/-! ### The parameters (R6) -/

@[simp] theorem State.storeReg_params (s : State) (r : Option Reg) (d : Word) :
    (s.storeReg r d).params = s.params := by
  rcases storeReg_cases s r d with e | e | e | ⟨-, e⟩ | ⟨n, -, e⟩ | ⟨c, e⟩ <;> simp [e]

@[simp] theorem State.writeReg_params (s : State) (r : Option Reg) (d : Word) :
    (s.writeReg r d).params = s.params := by
  rcases writeReg_cases s r d with e | e <;> simp [e]

theorem hostOp_params {op : HostOp} {s t : State} (h : hostOp op s = .next t) : t.params = s.params := by
  rcases hostOp_cases h with ⟨r, d, rfl⟩ | ⟨off, r, rfl, -⟩ | rfl | ⟨a, v, -, rfl⟩ | ⟨a, -, rfl⟩ | ⟨a, rfl⟩ | ⟨o, rfl⟩ |
    ⟨-, rfl⟩
  · exact s.writeReg_params r d
  · rw [hostRead_eq]
  · rfl
  · rfl
  · rw [hazardWrite_eq]; rfl
  · rfl
  · rfl
  · exact s.resetBlock_params

theorem performWord_params {w : Word} {s t : State} (h : performWord w s = .next t) : t.params = s.params := by
  obtain ⟨_, -, hkeeps⟩ := performWord_effectKeeps h
  exact hkeeps.params

/-- Settles O58, by the cases of a step. -/
theorem parametersNeverChange : Obligations.ParametersNeverChange := by
  intro s t h
  rcases step_cases h with ⟨-, -, rfl⟩ | ⟨-, op, -, left, -, -, hop⟩ | ⟨-, w, u, -, hu, rfl⟩
  · rfl
  · rw [hostOp_params hop, State.spendTurn_params]
  · rw [State.settleRaced_params, performWord_params hu, State.scrubRaced_params, State.spendTurn_params]

/-! ### The two roundings of the interpolation quotient (R8) -/

/-- FLOOR: the quotient is the largest integer whose product does not pass the dividend. -/
theorem qdiv_floor_bounds (a : Int) {d : Nat} (hd : 0 < d) :
    qdiv .floor a d * d ≤ a ∧ a < (qdiv .floor a d + 1) * d := by
  have e : qdiv .floor a d = a / d := Int.fdiv_eq_ediv_of_nonneg a (Int.natCast_nonneg d)
  have hpos : (0 : Int) < d := Int.natCast_pos.2 hd
  rw [e]
  exact ⟨Int.ediv_mul_le a hpos.ne', Int.lt_ediv_add_one_mul_self a hpos⟩

/-- TRUNC: the magnitude of the quotient is that of the dividend, divided and rounded down. -/
theorem qdiv_trunc_natAbs (a : Int) (d : Nat) : (qdiv .trunc a d * d).natAbs = a.natAbs / d * d := by
  rw [qdiv, Int.natAbs_mul, Int.natAbs_tdiv, Int.natAbs_natCast]
  rfl

theorem qdiv_trunc_nonneg {a : Int} (h : 0 ≤ a) (d : Nat) : 0 ≤ qdiv .trunc a d :=
  Int.tdiv_nonneg h (Int.natCast_nonneg d)

/-- Negating the dividend negates the quotient, so the quotient has the dividend's sign. -/
theorem qdiv_trunc_nonpos {a : Int} (h : a ≤ 0) (d : Nat) : qdiv .trunc a d ≤ 0 := by
  have hneg : qdiv .trunc (-a) d = -qdiv .trunc a d := Int.neg_tdiv a d
  have := qdiv_trunc_nonneg (Int.neg_nonneg_of_nonpos h) d
  omega

/-- Settles O41: the quotient of each mode by its rounding, the ends of the interval by `lerp_zero` and `lerp_full`. -/
theorem interpolationStep : Obligations.InterpolationStep := by
  intro lo hi m d hd
  refine ⟨⟨_, rfl, qdiv_floor_bounds _ hd⟩, ⟨_, rfl, ?_, ?_, fun hle => ?_, fun hle => ?_⟩,
    fun mode => ⟨lerp_zero .., lerp_full mode lo hi hd⟩⟩
  · rw [qdiv_trunc_natAbs]
    exact Nat.div_mul_le_self _ _
  · rw [qdiv_trunc_natAbs]
    exact Nat.lt_div_mul_add hd
  · exact qdiv_trunc_nonneg (mul_nonneg (Int.natCast_nonneg m) (Int.sub_nonneg_of_le hle)) d
  · exact qdiv_trunc_nonpos (mul_nonpos_of_nonneg_of_nonpos (Int.natCast_nonneg m) (Int.sub_nonpos_of_le hle)) d

end Sys2Proof.Machine

namespace Sys2Proof.Machine

/-! ### The register map (R20, R44) -/

/-- Settles O5: a reserved offset names no register, and each other offset is that of the register it names. -/
theorem registerMapHasOneOffsetEach : Obligations.RegisterMapHasOneOffsetEach := by
  intro off r
  constructor
  · intro h
    unfold regAt at h
    split at h <;> cases h <;> rfl
  · rintro rfl
    exact regAt_offsetOf r

theorem offsetOf_of_regAt {off : Nat} {r : Reg} (h : regAt off = some r) : off = offsetOf r :=
  (registerMapHasOneOffsetEach off r).1 h

/-- The LUT window stands at its three offsets (R20). -/
theorem regAt_ne_lutWindow {off : Nat} (h : off ∉ [0x048, 0x04C, 0x050]) (n : Channel) :
    regAt off ≠ some (.lutWindow n) := by
  intro hr
  refine h ?_
  rw [offsetOf_of_regAt hr]
  cases n <;> decide

theorem regAt_eq_status_iff (off : Nat) : regAt off = some .status ↔ off = 0x008 :=
  registerMapHasOneOffsetEach off .status

/-! ### What the registers read (R24, R25, R111) -/

/-- Settles O14: the word is read for each code of ERR and each value of the three flags. -/
theorem statusReadsItsFields : Obligations.StatusReadsItsFields := by
  refine ⟨fun s => ?_, rfl⟩
  simp only [State.readReg]
  obtain ⟨busy, done, busyWr, err⟩ := s.status
  cases err <;> revert busy done busyWr <;> decide

/-- Only a LUT window read can return an unwritten lattice channel (R121). -/
theorem readIsWritten_of_ne_lutWindow (s : State) {r : Option Reg} (h : ∀ n, r ≠ some (.lutWindow n)) :
    s.readIsWritten r = true := by
  unfold State.readIsWritten
  split
  · next n => exact absurd rfl (h n)
  · rfl

/-- Settles O17: `hostRead_eq` says what a read does, `readReg` what it returns. -/
theorem registerReadsHaveNoSideEffect : Obligations.RegisterReadsHaveNoSideEffect := by
  refine ⟨fun s off hoff halign => ⟨_, busRead_word s hoff halign, ?_, fun hw => ?_⟩, fun s => ?_⟩
  · rw [hostRead_eq]
    simp [regAt_eq_status_iff]
  · rw [hostRead_eq, readIsWritten_of_ne_lutWindow s (regAt_ne_lutWindow hw)]
    rfl
  · have hctrl : s.readReg (some .ctrl) = if s.irqEn then 1 else 0 := by
      change ctrlWord s.irqEn = _
      cases s.irqEn <;> rfl
    exact ⟨rfl, rfl, rfl, hctrl, fun _ => rfl, fun _ => rfl, rfl, rfl, rfl, rfl, rfl, rfl, rfl, rfl, rfl, rfl, rfl⟩

/-! ### Reset (R48, R260 to R262) -/

/-- With every field at its reset value, each register but ID and the LUT window reads 0 (R48). -/
theorem readReg_of_reset {t : State} (hirq : t.irqEn = false) (hstatus : t.status = Status.reset)
    (hcfg : t.cfg = ConfigRegs.reset) (hout : t.outSeen = blackColor) {off : Nat} (hid : off ≠ 0x000)
    (hw : off ∉ [0x048, 0x04C, 0x050]) : t.readReg (regAt off) = 0 := by
  cases hr : regAt off with
  | none => rfl
  | some r =>
    cases r with
    | id => exact absurd (offsetOf_of_regAt hr) hid
    | lutWindow n => exact absurd hr (regAt_ne_lutWindow hw n)
    | ctrl => simp only [State.readReg, hirq]; rfl
    | status => simp only [State.readReg, hstatus]; rfl
    | output n => simp only [State.readReg, hout]; cases n <;> rfl
    | input n => simp only [State.readReg, hcfg]; cases n <;> rfl
    | cmd => rfl
    | _ => simp only [State.readReg, hcfg]; rfl

/-- A byte outside the destination of an abandoned command survives the abandoning (R262). -/
theorem abandon_byteAt {s : State} {a : Nat}
    (h : ∀ w, s.eng = .pending w → (wordRanges s.cfg w).2.contains a = false) :
    byteAt s.abandon.mem a = byteAt s.mem a := by
  unfold State.abandon
  split
  · rfl
  · next w hw =>
    have hout : a ∉ (wordRanges s.cfg w).2.addresses := fun hm => by
      simpa [h w hw] using ((range_mem_addresses _ _).1 hm).1
    rw [byteAt, State.scrub_outside s _ hout, byteAt]

/-- Settles O27: every field of the block is set by `resetBlock`, and memory is that of the abandoned command. -/
theorem resetValues : Obligations.ResetValues :=
  ⟨fun s => ⟨s.resetBlock, rfl, rfl, rfl, rfl, rfl, rfl,
    fun _ _ hid hw => readReg_of_reset rfl rfl rfl rfl hid hw, fun _ _ => rfl, fun _ h => abandon_byteAt h⟩,
   fun _ _ hid hw => readReg_of_reset rfl rfl rfl rfl hid hw, rfl, rfl, rfl, rfl, fun _ _ => rfl⟩

/-! ### The two LUT commands on registers (R191, R192) -/

theorem exec_lutIdentity_valid {s : State} (h : s.lutReady = true) :
    exec .lutIdentity s = .next ((s.putEntries (identityEntries (lutShapeOf s.cfg))).complete .ok) := by
  rw [exec_lutIdentity_eq, identityLattice, if_pos h]; rfl

theorem exec_lutIdentity_invalid {s : State} (h : s.lutReady = false) :
    exec .lutIdentity s = .next (s.complete .lutDim) := by
  rw [exec_lutIdentity_eq, identityLattice, h]; rfl

theorem exec_lutMapColor_valid {s : State} (h : s.lutReady = true) :
    exec .lutMapColor s = .next (State.complete
      { s.markUninit (s.latticeReady s.cfg.input) with out := s.mapColor s.cfg.input } .ok) := by
  rw [exec_lutMapColor_eq, mapInput, if_pos h]; rfl

theorem exec_lutMapColor_invalid {s : State} (h : s.lutReady = false) :
    exec .lutMapColor s = .next (s.complete .lutDim) := by
  rw [exec_lutMapColor_eq, mapInput, h]; rfl

/-- Settles O45: each of the two commands ends with `ERR_LUT_DIM` and no effect, or with its effect on the lattice
or on OUT and the mark. -/
theorem lutRegisterCommandsFrame : Obligations.LutRegisterCommandsFrame := by
  intro s t i hi h
  obtain ⟨_, -, hkeeps⟩ := exec_effectKeeps h
  refine ⟨hkeeps.toKeepsHostSide, ?_⟩
  cases hready : s.lutReady with
  | false =>
    have ht : t = s.complete .lutDim := by
      rcases hi with rfl | rfl
      · rw [exec_lutIdentity_invalid hready] at h; cases h; rfl
      · rw [exec_lutMapColor_invalid hready] at h; cases h; rfl
    subst ht
    exact ⟨fun _ => rfl, rfl, rfl, fun _ => ⟨rfl, rfl⟩, fun _ => rfl, fun _ => ⟨rfl, rfl, rfl⟩⟩
  | true =>
    rcases hi with rfl | rfl
    · rw [exec_lutIdentity_valid hready] at h; cases h
      simp [SameMemory]
    · rw [exec_lutMapColor_valid hready] at h; cases h
      simp [SameMemory]

/-! ### Updates that leave the marks and the results alone -/

@[simp] theorem State.putBytes_irqEn (s : State) (a : Nat) (bs : List Byte) : (s.putBytes a bs).irqEn = s.irqEn := by
  rw [State.putBytes_eq]
@[simp] theorem State.putBytes_out (s : State) (a : Nat) (bs : List Byte) : (s.putBytes a bs).out = s.out := by
  rw [State.putBytes_eq]
@[simp] theorem State.putBytes_outSeen (s : State) (a : Nat) (bs : List Byte) :
    (s.putBytes a bs).outSeen = s.outSeen := by
  rw [State.putBytes_eq]
@[simp] theorem State.putBytes_faulted (s : State) (a : Nat) (bs : List Byte) :
    (s.putBytes a bs).faulted = s.faulted := by
  rw [State.putBytes_eq]

@[simp] theorem State.scrubRaced_irqEn (s : State) : s.scrubRaced.irqEn = s.irqEn := State.scrub_irqEn ..
@[simp] theorem State.scrubRaced_outSeen (s : State) : s.scrubRaced.outSeen = s.outSeen := State.scrub_outSeen ..
@[simp] theorem State.scrubRaced_faulted (s : State) : s.scrubRaced.faulted = s.faulted := State.scrub_faulted ..
@[simp] theorem State.scrubRaced_refused (s : State) : s.scrubRaced.refused = s.refused := State.scrub_refused ..

@[simp] theorem State.settleRaced_irqEn (s : State) : s.settleRaced.irqEn = s.irqEn := s.scrubRaced_irqEn
@[simp] theorem State.settleRaced_status (s : State) : s.settleRaced.status = s.status := State.scrub_status ..
@[simp] theorem State.settleRaced_out (s : State) : s.settleRaced.out = s.out := State.scrub_out ..
@[simp] theorem State.settleRaced_outSeen (s : State) : s.settleRaced.outSeen = s.outSeen := s.scrubRaced_outSeen
@[simp] theorem State.settleRaced_faulted (s : State) : s.settleRaced.faulted = s.faulted := s.scrubRaced_faulted
@[simp] theorem State.settleRaced_refused (s : State) : s.settleRaced.refused = s.refused := s.scrubRaced_refused

@[simp] theorem State.abandon_faulted (s : State) : s.abandon.faulted = s.faulted := by
  unfold State.abandon
  split
  · rfl
  · exact State.scrub_faulted ..

@[simp] theorem State.abandon_refused (s : State) : s.abandon.refused = s.refused := by
  unfold State.abandon
  split
  · rfl
  · exact State.scrub_refused ..

/-- Observing the irq output does not change it. -/
@[simp] theorem State.observeIrq_irq (s : State) : s.observeIrq.irq = s.irq := by
  simp [State.irq]

/-! ### The marks of R46 -/

/-- A mark of R46 that is set stays as it is. -/
structure KeepsMarks (s t : State) : Prop where
  faulted : s.faulted.isSome = true → t.faulted = s.faulted
  refused : s.refused = true → t.refused = true

theorem KeepsMarks.of_eq {s t : State} (hf : t.faulted = s.faulted) (hr : t.refused = s.refused) : KeepsMarks s t :=
  ⟨fun _ => hf, fun h => hr.trans h⟩

/-- Marking keeps the first reason (log entry 7). -/
theorem State.markFault_faulted_of_isSome {s : State} (h : s.faulted.isSome = true) (r : ModelFault) :
    (s.markFault r).faulted = s.faulted := by
  obtain ⟨r', hr⟩ := Option.isSome_iff_exists.1 h
  simp [hr]

theorem State.markUninit_faulted_of_isSome {s : State} (h : s.faulted.isSome = true) (b : Bool) :
    (s.markUninit b).faulted = s.faulted := by
  cases b
  · exact s.markFault_faulted_of_isSome h _
  · rfl

theorem State.storeReg_keepsMarks (s : State) (r : Option Reg) (d : Word) : KeepsMarks s (s.storeReg r d) := by
  rcases storeReg_cases s r d with e | e | e | ⟨-, e⟩ | ⟨n, -, e⟩ | ⟨c, e⟩ <;> exact .of_eq (by simp [e]) (by simp [e])

theorem State.writeReg_keepsMarks (s : State) (r : Option Reg) (d : Word) : KeepsMarks s (s.writeReg r d) := by
  rcases writeReg_cases s r d with e | e <;> rw [e]
  · exact .of_eq rfl rfl
  · exact s.storeReg_keepsMarks r d

theorem hostOp_keepsMarks {op : HostOp} {s t : State} (h : hostOp op s = .next t) : KeepsMarks s t := by
  rcases hostOp_cases h with ⟨r, d, rfl⟩ | ⟨off, r, rfl, -⟩ | rfl | ⟨a, v, -, rfl⟩ | ⟨a, -, rfl⟩ | ⟨a, rfl⟩ | ⟨o, rfl⟩ |
    ⟨-, rfl⟩
  · exact s.writeReg_keepsMarks r d
  · rw [hostRead_eq]
    exact ⟨fun hs => State.markUninit_faulted_of_isSome hs _, id⟩
  · exact ⟨fun _ => rfl, fun _ => rfl⟩
  · exact .of_eq rfl rfl
  · rw [hazardWrite_eq]
    exact ⟨fun hs => State.markFault_faulted_of_isSome (s := s) hs _, id⟩
  · exact ⟨fun hs => State.markFault_faulted_of_isSome (s := s) hs _, id⟩
  · exact .of_eq rfl rfl
  · exact .of_eq s.abandon_faulted s.abandon_refused

/-- Where a command ends, the mark is that of its effect, or with an error that of the state it was raised in. -/
theorem State.conclude_faulted {s : State} {dest : AddrRange} {r : Except ErrCode State} {f : Option ModelFault}
    (hs : s.faulted = f) (h : ∀ t, r = .ok t → t.faulted = f) : (s.conclude dest r).faulted = f := by
  cases r with
  | error c => simp [State.conclude, hs]
  | ok t => simp [State.conclude, h t rfl]

theorem decodeFrame_faulted {wrapped : Bool} {s t : State} (h : decodeFrame wrapped s = .ok t) :
    t.faulted = s.faulted := by
  rcases decodeFrame_cases wrapped s with ⟨c, e⟩ | ⟨-, pb, -, e, -⟩
  · rw [e] at h; cases h
  · rw [e] at h; cases h
    exact State.putBytes_faulted ..

theorem mapImageData_faulted {s t : State} (h : mapImageData s = .ok t) : t.faulted = s.faulted := by
  rcases mapImageData_cases s with ⟨e, -⟩ | ⟨e, -⟩ <;> rw [e] at h <;> cases h
  exact State.putBytes_faulted ..

/-- With its checks passed LUT_MAP_IMAGE marks by what its readable pixels need, also with ERR_BUS (log entry 2). -/
theorem mapImage_faulted_of_checks {s : State} (h : ImageChecksPass s) :
    (mapImage s).faulted = (s.markUninit (imageReady s)).faulted := by
  rw [mapImage_checked h]
  exact State.conclude_faulted rfl fun _ => mapImageData_faulted

/-- A failing check of LUT_MAP_IMAGE leaves the mark (R236). -/
theorem mapImage_faulted_of_failing {s : State} (h : ¬ ImageChecksPass s) : (mapImage s).faulted = s.faulted := by
  cases hc : mapImageCheck s with
  | ok u => exact absurd ((mapImageCheck_ok_iff s).1 hc) h
  | error c => simp [mapImage, hc]

/-- A command sets the mark UNINIT_LATTICE at most. -/
theorem exec_faulted {i : Instr} {s t : State} (h : exec i s = .next t) :
    ∃ b, t.faulted = (s.markUninit b).faulted := by
  cases i with
  | decode => cases h; exact ⟨true, State.conclude_faulted rfl fun _ => decodeFrame_faulted⟩
  | decodeWrapped => cases h; exact ⟨true, State.conclude_faulted rfl fun _ => decodeFrame_faulted⟩
  | lutIdentity =>
    obtain ⟨-, -, -, -, hident, -⟩ := lutRegisterCommandsFrame s t _ (.inl rfl) h
    exact ⟨true, (hident rfl).2⟩
  | lutMapColor =>
    cases hready : s.lutReady with
    | false => rw [exec_lutMapColor_invalid hready] at h; cases h; exact ⟨true, rfl⟩
    | true => rw [exec_lutMapColor_valid hready] at h; cases h; exact ⟨_, rfl⟩
  | lutMapImage =>
    cases h
    by_cases hc : ImageChecksPass s
    · exact ⟨_, mapImage_faulted_of_checks hc⟩
    · exact ⟨true, mapImage_faulted_of_failing hc⟩

theorem performWord_keepsMarks {w : Word} {s t : State} (h : performWord w s = .next t) : KeepsMarks s t := by
  obtain ⟨_, -, hkeeps⟩ := performWord_effectKeeps h
  refine ⟨fun hs => ?_, fun hs => hkeeps.refused.trans hs⟩
  rcases performWord_cases h with rfl | ⟨i, hi⟩
  · exact State.raiseError_faulted ..
  · obtain ⟨b, hb⟩ := exec_faulted hi
    exact hb.trans (State.markUninit_faulted_of_isSome hs b)

/-- Settles O26, by the cases of a step. -/
theorem marksAreNeverCleared : Obligations.MarksAreNeverCleared := by
  intro s t h
  have hkeeps : KeepsMarks s t := by
    rcases step_cases h with ⟨-, -, rfl⟩ | ⟨-, op, -, left, -, -, hop⟩ | ⟨-, w, u, -, hu, rfl⟩
    · exact .of_eq rfl rfl
    · obtain ⟨hf, hr⟩ := hostOp_keepsMarks hop
      exact ⟨by simpa using hf, by simpa using hr⟩
    · obtain ⟨hf, hr⟩ := performWord_keepsMarks hu
      exact ⟨by simpa using hf, by simpa using hr⟩
  exact ⟨hkeeps.faulted, hkeeps.refused⟩

/-- A mark set unless `b` is set exactly where `P` holds, if `b` says that `P` does not. -/
theorem marked_exactly_where {s t : State} {b : Bool} {P : Prop} (ht : t.faulted = (s.markUninit b).faulted)
    (hb : b = true ↔ ¬ P) : (¬ P → t.faulted = s.faulted) ∧ (P → t.faulted.isSome = true) := by
  cases b with
  | true => exact ⟨fun _ => ht, fun hp => absurd hp (hb.1 rfl)⟩
  | false => exact ⟨fun hp => Bool.noConfusion (hb.2 hp), fun _ => by rw [ht]; rfl⟩

/-- Settles O48: the mark by `latticeReady_iff` for a colour and by `imageReady_iff` for an image. -/
theorem unwrittenLatticeIsMarked : Obligations.UnwrittenLatticeIsMarked := by
  refine ⟨fun s t hready h => ?_, fun s t hc h => ?_, fun s t hc h => ?_⟩
  · rw [exec_lutMapColor_valid hready] at h; cases h
    exact marked_exactly_where rfl (latticeReady_iff s s.cfg.input)
  · cases h
    have hb : imageReady s = true ↔ ¬ ∃ p c, s.SourcePixel p c ∧ s.ReadsUnwritten c := by
      rw [imageReady_iff]; push Not; rfl
    simpa using marked_exactly_where (mapImage_faulted_of_checks hc) hb
  · cases h
    exact mapImage_faulted_of_failing hc

/-! ### What OUT_R/G/B read (R111, R123, R269) -/

/-- The end of a command shows its result exactly where the irq rises (R269). -/
theorem exec_outSeen {i : Instr} {s t : State} (h : exec i s = .next t) :
    t.outSeen = if s.irqEn then t.out else s.outSeen := by
  cases i with
  | decode =>
    cases h
    obtain ⟨_, -, -, -, hseen⟩ := s.conclude_ends (decodedRange s.cfg) _ fun _ => decodeFrame_keeps
    exact hseen
  | decodeWrapped =>
    cases h
    obtain ⟨_, -, -, -, hseen⟩ := s.conclude_ends (decodedRange s.cfg) _ fun _ => decodeFrame_keeps
    exact hseen
  | lutIdentity =>
    cases hready : s.lutReady with
    | false => rw [exec_lutIdentity_invalid hready] at h; cases h; rfl
    | true => rw [exec_lutIdentity_valid hready] at h; cases h; simp
  | lutMapColor =>
    cases hready : s.lutReady with
    | false => rw [exec_lutMapColor_invalid hready] at h; cases h; rfl
    | true => rw [exec_lutMapColor_valid hready] at h; cases h; simp
  | lutMapImage =>
    cases h
    rcases mapImage_cases s with ⟨c, -, -, e⟩ | ⟨-, -, -, e⟩ | ⟨-, -, e⟩ <;> simp [e]

theorem performWord_outSeen {w : Word} {s t : State} (h : performWord w s = .next t) :
    t.outSeen = if s.irqEn then t.out else s.outSeen := by
  rcases performWord_cases h with rfl | ⟨i, hi⟩
  · simp
  · exact exec_outSeen hi

/-- The engine's step raises irq where it is enabled, and only then changes what the host reads in OUT_R/G/B. -/
theorem engineStep_shows {s u : State} {w : Word} (h : performWord w s.spendTurn.scrubRaced = .next u) :
    u.settleRaced.irq = s.irqEn ∧
      u.settleRaced.outSeen = if s.irqEn then u.settleRaced.out else s.outSeen := by
  obtain ⟨_, hends, hkeeps⟩ := performWord_effectKeeps h
  exact ⟨by simp [State.irq, hkeeps.irqEn, hends.done], by simpa using performWord_outSeen h⟩

/-- A write changes what the host reads in OUT_R/G/B only where it leaves irq asserted or is accepted. -/
theorem writeReg_outSeen {s : State} {r : Option Reg} {d : Word} (hirq : (s.writeReg r d).irq = false)
    (hidle : s.status.busy = false → (s.writeReg r d).status.busy = false) :
    (s.writeReg r d).outSeen = s.outSeen := by
  rcases writeReg_cases s r d with e | e
  · rw [e]
  · rcases storeReg_cases s r d with e' | e' | e' | ⟨rfl, e'⟩ | ⟨n, -, e'⟩ | ⟨c, e'⟩
    · rw [e, e']
    · rw [e, e', State.observeIrq_irq] at hirq
      rw [e, e', State.observeIrq_outSeen, hirq]
      rfl
    · rw [e, e']
    · cases hb : s.status.busy with
      | true => rw [writeReg_busy _ _ hb rfl]
      | false =>
        have hfree := hidle hb
        rw [e, e'] at hfree
        exact Bool.noConfusion hfree
    · rw [e, e', State.writeWindow_outSeen]
    · rw [e, e']

/-- A host operation that observes no completion, is not accepted and is no reset leaves what OUT_R/G/B read. -/
theorem hostOp_outSeen {op : HostOp} {s t : State} (h : hostOp op s = .next t) (hirq : t.irq = false)
    (hidle : s.status.busy = false → t.status.busy = false) (hreset : op ≠ .reset)
    (hpoll : s.status.busy = false → op ≠ .poll ∧ op ≠ .read 0x008 4) : t.outSeen = s.outSeen := by
  rcases hostOp_cases h with ⟨r, d, rfl⟩ | ⟨off, r, rfl, hr⟩ | rfl | ⟨a, v, -, rfl⟩ | ⟨a, -, rfl⟩ | ⟨a, rfl⟩ |
    ⟨o, rfl⟩ | ⟨e, -⟩
  · exact writeReg_outSeen hirq hidle
  · have hno : ¬ (r = some .status ∧ s.status.busy = false) := fun ⟨hs, hb⟩ =>
      (hr hs).elim (hpoll hb).1 (hpoll hb).2
    rw [hostRead_eq]
    simpa using fun hs hb => absurd ⟨hs, hb⟩ hno
  · rfl
  · rfl
  · rw [hazardWrite_eq]; rfl
  · rfl
  · rfl
  · exact absurd e hreset

/-- A step that leaves irq low, observes no completion, is no acceptance and no reset leaves what OUT_R/G/B read. -/
theorem step_outSeen {s t : State} (h : step s = .next t) (hirq : t.irq = false)
    (hobs : nextAgent s = some .host → ¬ s.hostObservesOrResets)
    (hidle : s.status.busy = false → t.status.busy = false) : t.outSeen = s.outSeen := by
  rcases step_cases h with ⟨-, -, rfl⟩ | ⟨hn, op, rest, left, hhost, -, hop⟩ | ⟨-, w, u, -, hu, rfl⟩
  · rfl
  · have hno := hobs hn
    simp only [State.hostObservesOrResets, hhost, List.head?_cons, Option.some.injEq, not_or, not_and] at hno
    obtain ⟨hreset, hpoll⟩ := hno
    have := hostOp_outSeen hop hirq (by simpa using hidle) hreset (by simpa using hpoll)
    simpa using this
  · obtain ⟨hi, hseen⟩ := engineStep_shows hu
    rw [hseen, ← hi, hirq]
    rfl

/-- OUT_R/G/B read the model's record of what the host has observed, zero-extended (log entry 16). -/
theorem readReg_output {t : State} {c : Color} (h : t.outSeen = c) (n : Channel) :
    t.readReg (some (.output n)) = (c.get n).zeroExtend 32 := by
  rw [← h]
  rfl

/-- Settles O60: OUT_R/G/B read `outSeen`, so each clause says what an access or a step does to it. -/
theorem resultsShowOnceObserved : Obligations.ResultsShowOnceObserved := by
  refine ⟨fun s n hinv hb => readReg_output (hinv.busy_shows_out hb) n, fun s t n w hb h => ?_,
    fun s t n h hirq hobs hidle => readReg_output (step_outSeen h hirq hobs hidle) n, fun s t n hb h => ?_,
    fun s t n d h => ?_, fun s t n hn h hirq => ?_⟩
  · rw [busWrite_word s w (by decide) (by decide), writeReg_idle _ _ hb] at h
    cases h
    exact ⟨rfl, rfl⟩
  · rw [busRead_word s (by decide) (by decide), hostRead_eq] at h
    cases h
    exact ⟨rfl, readReg_output (by simp [regAt, hb]) n⟩
  · rw [busWrite_word s d (by decide) (by decide), writeReg_always d (by decide)] at h
    cases h
    have hseen := { s with irqEn := d.getLsbD 0 }.observeIrq_outSeen
    rw [← State.observeIrq_irq] at hseen
    refine ⟨State.observeIrq_out _, ?_⟩
    split
    · next hi => exact readReg_output (hseen.trans (if_pos hi)) n
    · next hi => exact readReg_output (hseen.trans (if_neg hi)) n
  · rcases step_cases h with ⟨hidle, hnone, -⟩ | ⟨hhost, -⟩ | ⟨-, w, u, -, hu, rfl⟩
    · simp [nextAgent, hidle, hnone] at hn
    · simp [hhost] at hn
    · obtain ⟨hi, hseen⟩ := engineStep_shows hu
      exact readReg_output (by rw [hseen, ← hi, hirq]; rfl) n

end Sys2Proof.Machine

namespace Sys2Proof.Machine

/-! ### The pixels of LUT_MAP_IMAGE (R63, R70, R193) -/

/-- Settles O51: an admitted pixel reads as the one its six bytes make. -/
theorem pixelsReadBackBigEndian : Obligations.PixelsReadBackBigEndian := by
  intro s a c hc hadm
  rcases readPixel_cases s a with ⟨e, -⟩ | ⟨-, k, hk, hrefused⟩
  · rw [e, pixelAt_of_holds hc]
  · simp [hadm k hk] at hrefused

/-- With its checks passed and both grids admitted LUT_MAP_IMAGE writes the mapped grid and completes with OK. -/
theorem mapImage_of_admitted {s : State} (h : ImageChecksPass s) (hs : RangeAdmitted s (imageSource s.cfg))
    (hd : RangeAdmitted s (imageDest s.cfg)) :
    mapImage s = ((s.markUninit (imageReady s)).putBytes s.cfg.dstBase.toNat
      (s.mappedGrid.flatMap pixelBytes)).complete .ok := by
  rcases mapImageData_cases (s.markUninit (imageReady s)) with ⟨e, -, -⟩ | ⟨-, hrefused⟩
  · rw [State.markUninit_cfg, State.markUninit_mappedGrid] at e
    rw [mapImage_checked h, e]
    rfl
  · simp only [State.markUninit_cfg, RangeAdmitted, State.markUninit_params] at hrefused
    exact hrefused.elim (absurd hs) (absurd hd)

/-- Pixel `p` of the mapped grid is what the source pixel's colour is mapped to (R193). -/
theorem State.mappedGrid_getElem {s : State} {p : Nat} {c : Color} (hp : p < s.mappedGrid.length)
    (hc : HoldsPixel s.mem (s.cfg.srcBase.toNat + 6 * p) c) : s.mappedGrid[p] = s.mapColor c := by
  simp [State.mappedGrid, pixelAt_of_holds hc]

/-- LUT_MAP_COLOR of input `c` gives `mapColor c`: neither the check of R189 nor a mapping reads IN_R/G/B. -/
theorem exec_lutMapColor_withInput {s : State} (h : s.lutReady = true) (c : Color) :
    ∃ u, exec .lutMapColor { s with cfg := { s.cfg with input := c } } = .next u ∧ u.out = s.mapColor c :=
  ⟨_, exec_lutMapColor_valid h, rfl⟩

/-- Settles O52: pixel `p` of the grid written and the colour of the single command are both `mapColor c`. -/
theorem mapImageMapsEveryPixel : Obligations.MapImageMapsEveryPixel := by
  intro s hchecks hsource hdest
  refine ⟨mapImage s, exec_lutMapImage_eq s, ?_, fun p c hp hc => ?_⟩
  · rw [mapImage_of_admitted hchecks hsource hdest]
    exact State.complete_endsWith ..
  · obtain ⟨u, hu, hout⟩ := exec_lutMapColor_withInput hchecks.lutReady c
    have hlt : p < s.mappedGrid.length := by rwa [State.mappedGrid_length]
    have hpixel := putBytes_holdsPixel (s.markUninit (imageReady s)) s.cfg.dstBase.toNat s.mappedGrid hlt
    rw [State.mappedGrid_getElem hlt hc, ← hout] at hpixel
    refine ⟨u, hu, ?_⟩
    rw [mapImage_of_admitted hchecks hsource hdest]
    exact hpixel

/-! ### The guard of R267 -/

@[simp] theorem State.putBytes_guarded (s : State) (a : Nat) (bs : List Byte) :
    (s.putBytes a bs).guarded = s.guarded := by
  rw [State.putBytes_eq]
@[simp] theorem State.scrubRaced_guarded (s : State) : s.scrubRaced.guarded = s.guarded := State.scrub_guarded ..
@[simp] theorem State.settleRaced_guarded (s : State) : s.settleRaced.guarded = s.guarded := s.scrubRaced_guarded

/-- A byte stays guarded where no guarded range is dropped. -/
theorem State.isGuarded_mono {s t : State} {a : Nat} (h : s.guarded ⊆ t.guarded) (ha : s.isGuarded a = true) :
    t.isGuarded a = true := by
  obtain ⟨r, hr, hc⟩ := List.any_eq_true.1 ha
  exact List.any_eq_true.2 ⟨r, h hr, hc⟩

/-- An accepted command's source and destination ranges are guarded (R267). -/
theorem State.accept_isGuarded (s : State) {w : Word} {i : Instr} {a : Nat} (hi : decodeWord w = .ok i)
    (ha : (commandRanges s.cfg i).1.contains a = true ∨ (commandRanges s.cfg i).2.contains a = true) :
    (s.accept w).isGuarded a = true := by
  have hw : wordRanges s.cfg w = commandRanges s.cfg i := by simp only [wordRanges, hi]
  rcases ha with ha | ha <;> simp [State.isGuarded, hw, ha]

theorem hostMemWrite_guarded {s : State} {a : Nat} (v : Byte) (hreg : s.params.inRegSpace a = false)
    (hmem : a < memBytes) (hg : s.isGuarded a = true) : hostMemWrite s a v = .next (s.hazardWrite a) := by
  simp [hostMemWrite, hreg, hg, Nat.not_le.2 hmem]

theorem hostMemRead_guarded {s : State} {a : Nat} (hreg : s.params.inRegSpace a = false)
    (hmem : a < memBytes) (hg : s.isGuarded a = true) : hostMemRead s a = .next (s.hazardRead a) := by
  simp [hostMemRead, hreg, hg, Nat.not_le.2 hmem]

/-- A hazard write reaches the one byte it names (R267). -/
theorem State.hazardWrite_byteAt_other (s : State) {a b : Nat} (h : b ≠ a) :
    byteAt (s.hazardWrite a).mem b = byteAt s.mem b := by
  have hb : b ∉ [a] := by simpa using h
  rw [hazardWrite_eq, byteAt, byteAt]
  simp [State.scrub_outside s [a] hb]

/-- The end of a command drops the guard exactly where the irq rises (R75). -/
theorem exec_guarded {i : Instr} {s t : State} (h : exec i s = .next t) :
    t.guarded = if s.irqEn then [] else s.guarded := by
  cases i with
  | decode | decodeWrapped =>
    cases h
    obtain ⟨_, -, -, hguard, -⟩ := s.conclude_ends (decodedRange s.cfg) _ fun _ => decodeFrame_keeps
    exact hguard
  | lutIdentity =>
    cases hready : s.lutReady with
    | false => rw [exec_lutIdentity_invalid hready] at h; cases h; rfl
    | true => rw [exec_lutIdentity_valid hready] at h; cases h; simp
  | lutMapColor =>
    cases hready : s.lutReady with
    | false => rw [exec_lutMapColor_invalid hready] at h; cases h; rfl
    | true => rw [exec_lutMapColor_valid hready] at h; cases h; simp
  | lutMapImage =>
    cases h
    rcases mapImage_cases s with ⟨c, -, -, e⟩ | ⟨-, -, -, e⟩ | ⟨-, -, e⟩ <;> simp [e]

theorem performWord_guarded {w : Word} {s t : State} (h : performWord w s = .next t) :
    t.guarded = if s.irqEn then [] else s.guarded := by
  rcases performWord_cases h with rfl | ⟨i, hi⟩
  · simp
  · exact exec_guarded hi

/-- A register write that leaves irq low drops no guarded range. -/
theorem storeReg_guarded_subset {s : State} {r : Option Reg} {d : Word} (hirq : (s.storeReg r d).irq = false) :
    s.guarded ⊆ (s.storeReg r d).guarded := by
  rcases storeReg_cases s r d with e | e | e | ⟨-, e⟩ | ⟨n, -, e⟩ | ⟨c, e⟩ <;> rw [e] at hirq ⊢
  · exact List.Subset.refl _
  · rw [State.observeIrq_irq] at hirq
    rw [State.observeIrq_guarded, hirq]
    exact List.Subset.refl _
  · exact List.Subset.refl _
  · rw [State.accept_guarded]
    exact fun q hq => List.mem_cons_of_mem _ (List.mem_cons_of_mem _ hq)
  · rw [State.writeWindow_guarded]
    exact List.Subset.refl _
  · exact List.Subset.refl _

theorem writeReg_guarded_subset {s : State} {r : Option Reg} {d : Word} (hirq : (s.writeReg r d).irq = false) :
    s.guarded ⊆ (s.writeReg r d).guarded := by
  rcases writeReg_cases s r d with e | e <;> rw [e] at hirq ⊢
  · exact List.Subset.refl _
  · exact storeReg_guarded_subset hirq

/-- A host operation that observes no completion, leaves irq low and is no reset drops no guarded range (R75). -/
theorem hostOp_guarded_subset {op : HostOp} {s t : State} (h : hostOp op s = .next t) (hirq : t.irq = false)
    (hreset : op ≠ .reset) (hpoll : s.status.busy = false → op ≠ .poll ∧ op ≠ .read 0x008 4) :
    s.guarded ⊆ t.guarded := by
  rcases hostOp_cases h with ⟨r, d, rfl⟩ | ⟨off, r, rfl, hr⟩ | rfl | ⟨a, v, -, rfl⟩ | ⟨a, -, rfl⟩ | ⟨a, rfl⟩ |
    ⟨o, rfl⟩ | ⟨e, -⟩
  · exact writeReg_guarded_subset hirq
  · have hno : ¬ (r = some .status ∧ s.status.busy = false) := fun ⟨hs, hb⟩ =>
      (hr hs).elim (hpoll hb).1 (hpoll hb).2
    rw [hostRead_eq]
    simp [hno]
  · exact List.Subset.refl _
  · exact List.Subset.refl _
  · rw [hazardWrite_eq]; simp
  · exact List.Subset.refl _
  · exact List.Subset.refl _
  · exact absurd e hreset

/-- A step that observes no completion, leaves irq low and is no reset drops no guarded range (R75, R267). -/
theorem step_guarded_subset {s t : State} (h : step s = .next t) (hirq : t.irq = false)
    (hobs : nextAgent s = some .host → ¬ s.hostObservesOrResets) : s.guarded ⊆ t.guarded := by
  rcases step_cases h with ⟨-, -, rfl⟩ | ⟨hn, op, rest, left, hhost, -, hop⟩ | ⟨-, w, u, -, hu, rfl⟩
  · exact List.Subset.refl _
  · have hno := hobs hn
    simp only [State.hostObservesOrResets, hhost, List.head?_cons, Option.some.injEq, not_or, not_and] at hno
    obtain ⟨hreset, hpoll⟩ := hno
    simpa using hostOp_guarded_subset hop hirq hreset (by simpa using hpoll)
  · obtain ⟨hi, -⟩ := engineStep_shows hu
    have hguard := performWord_guarded hu
    rw [State.scrubRaced_irqEn, State.spendTurn_irqEn, ← hi, hirq] at hguard
    simp [hguard]

/-- Settles O24: an acceptance adds to the guard, an observation of completion empties it, and no other step drops
a range of it; the two hazards are `hazardWrite` and `hazardRead`. -/
theorem hostHazardIsMarked : Obligations.HostHazardIsMarked := by
  refine ⟨fun s t w i a hb hi h ha => ?_, fun s a v hreg hmem hg => ⟨?_, ?_⟩, fun s t hb h => ?_,
    fun s t d h hirq => ?_, fun s t a h ha hirq hobs => State.isGuarded_mono (step_guarded_subset h hirq hobs) ha⟩
  · rw [busWrite_word s w (by decide) (by decide), writeReg_idle _ _ hb] at h
    cases h
    exact s.accept_isGuarded hi ha
  · refine ⟨_, hostMemWrite_guarded v hreg hmem hg, ?_⟩
    have hother := fun b hb => s.hazardWrite_byteAt_other (a := a) (b := b) hb
    rw [hazardWrite_eq] at hother ⊢
    simpa using hother
  · exact ⟨_, hostMemRead_guarded hreg hmem hg, rfl, rfl, rfl, rfl, rfl, rfl, rfl, rfl⟩
  · rw [busRead_word s (by decide) (by decide), hostRead_eq] at h
    cases h
    simp [regAt, hb]
  · rw [busWrite_word s d (by decide) (by decide), writeReg_always d (by decide)] at h
    cases h
    have hguard := { s with irqEn := d.getLsbD 0 }.observeIrq_guarded
    rw [← State.observeIrq_irq] at hguard
    exact hguard.trans (if_pos hirq)

end Sys2Proof.Machine

namespace Sys2Proof.Machine

/-! ### The decoder and the encoder (R91, R92, R95) -/

/-- The opcode table, read as fields: a command's word holds its opcode in [7:0]. -/
theorem encode_opcodeField (i : Instr) : (encode i).extractLsb' 0 8 = i.opcode := by
  cases i <;> decide

/-- RSVD is 0 in every word of the opcode table. -/
theorem encode_rsvdField (i : Instr) : (encode i).extractLsb' 8 24 = 0 := by
  cases i <;> decide

@[simp] theorem decodeWord_encode (i : Instr) : decodeWord (encode i) = .ok i := by
  cases i <;> rfl

/-- The two fields of R91 make up the whole word. -/
theorem word_eq_encode {w : Word} {i : Instr} (hrsvd : w.extractLsb' 8 24 = 0)
    (hop : w.extractLsb' 0 8 = i.opcode) : w = encode i := by
  apply BitVec.eq_of_toNat_eq
  rw [word_eq_opcode hrsvd, word_eq_opcode (encode_rsvdField i), hop, encode_opcodeField]

/-- The decoder reads a command only from a word with that command's fields. -/
theorem fields_of_decodeWord {w : Word} {i : Instr} (h : decodeWord w = .ok i) :
    w.extractLsb' 8 24 = 0 ∧ w.extractLsb' 0 8 = i.opcode := by
  by_cases hrsvd : w.extractLsb' 8 24 = 0
  · refine ⟨hrsvd, BitVec.eq_of_toNat_eq ?_⟩
    rw [decodeWord_unreserved hrsvd] at h
    split at h <;> cases h <;> assumption
  · rw [decodeWord_reserved hrsvd] at h
    cases h

theorem decodeWord_eq_ok_iff {w : Word} {i : Instr} :
    decodeWord w = .ok i ↔ w.extractLsb' 8 24 = 0 ∧ w.extractLsb' 0 8 = i.opcode := by
  refine ⟨fields_of_decodeWord, fun ⟨hrsvd, hop⟩ => ?_⟩
  rw [word_eq_encode hrsvd hop, decodeWord_encode]

/-- A word without the fields of any command is illegal (R95). -/
theorem decodeWord_illegal {w : Word} (h : ∀ i : Instr, w.extractLsb' 8 24 = 0 → w.extractLsb' 0 8 ≠ i.opcode) :
    ∃ e, decodeWord w = .error e := by
  cases hd : decodeWord w with
  | error e => exact ⟨e, rfl⟩
  | ok i =>
    obtain ⟨hrsvd, hop⟩ := fields_of_decodeWord hd
    exact absurd hop (h i hrsvd)

/-- Settles O2: a word that decodes to a command has its fields, and the fields are the whole word. -/
theorem onlyTheFiveWordsDecode : Obligations.OnlyTheFiveWordsDecode := by
  intro w i
  constructor
  · intro h
    obtain ⟨hrsvd, hop⟩ := fields_of_decodeWord h
    exact word_eq_encode hrsvd hop
  · rintro rfl
    exact decodeWord_encode i

/-- Settles O3, by the fields from which the decoder reads a command. -/
theorem commandDecodingIsTotal : Obligations.CommandDecodingIsTotal := by
  intro w
  refine ⟨fun h => ⟨_, decodeWord_reserved h⟩, fun hrsvd => ?_⟩
  have hselects (i : Instr) (hop : w.extractLsb' 0 8 = i.opcode) : decodeWord w = .ok i :=
    decodeWord_eq_ok_iff.2 ⟨hrsvd, hop⟩
  exact ⟨hselects .decode, hselects .decodeWrapped, hselects .lutIdentity, hselects .lutMapColor,
    hselects .lutMapImage, fun hop => decodeWord_illegal fun i _ => hop i⟩

/-- Settles O1, by the fields of the words of the opcode table. -/
theorem encodedCommandsDecode : Obligations.EncodedCommandsDecode := by
  intro i _
  refine ⟨decodeWord_encode i, ?_⟩
  rw [fieldsOf, encode_opcodeField, encode_rsvdField]

/-- Settles O4: nine words are decoded. -/
theorem sampleWordsDecodeRight : Obligations.SampleWordsDecodeRight := by
  unfold Obligations.SampleWordsDecodeRight
  decide

/-! ### An illegal word (R95, R116) -/

/-- Every opcode of a command is one of the five of R95. -/
theorem opcode_mem_five (i : Instr) : i.opcode ∈ [0x01#8, 0x02#8, 0x10#8, 0x11#8, 0x12#8] := by
  cases i <;> decide

/-- A CMD write while idle is an acceptance (R110, R116). -/
theorem busWrite_cmd_idle {s : State} (w : Word) (h : s.status.busy = false) :
    busWrite s 0x00C 4 w = .next (s.accept w) := by
  rw [busWrite_word s w (by decide) (by decide), writeReg_idle _ _ h]
  rfl

/-- An illegal word accesses no memory, so its error is precise (R95, R237). -/
theorem performWord_of_error {w : Word} {e : Illegal} (h : decodeWord w = .error e) (s : State) :
    performWord w s = .next (s.complete .illegal) := by
  simp only [performWord, h]
  rw [State.raiseError_precise s _ (by decide)]

/-- Settles O7: the acceptance is that of any word, and the performance is a completion and nothing else. -/
theorem illegalWordHasNoOtherEffect : Obligations.IllegalWordHasNoOtherEffect := by
  intro s w hw
  obtain ⟨e, he⟩ : ∃ e, decodeWord w = .error e := by
    refine decodeWord_illegal fun i hrsvd hop => ?_
    rcases hw with hundefined | hreserved
    · exact hundefined (hop ▸ opcode_mem_five i)
    · exact hreserved hrsvd
  refine ⟨fun hidle => ⟨_, busWrite_cmd_idle w hidle, rfl, rfl⟩, _, performWord_of_error he s, ?_⟩
  exact ⟨s.complete_endsWith _, s.complete_keepsHostSide _, rfl, rfl, rfl, rfl, rfl⟩

/-! ### Which agent moves (R124, R128) -/

/-- With the engine idle only the host can move. -/
theorem nextAgent_of_idle {s : State} (h : s.eng = .idle) :
    nextAgent s = if s.host = [] then none else some .host := by
  unfold nextAgent
  cases hhost : s.host <;> simp [h]

/-- While a command is pending the schedule chooses, where the host has something to do. -/
theorem nextAgent_of_pending {s : State} {w : Word} (h : s.eng = .pending w) :
    nextAgent s = some (if s.host = [] then .engine else s.turns.headD .engine) := by
  unfold nextAgent
  cases hhost : s.host <;> simp [h]

theorem nextAgent_eq_engine_iff (s : State) :
    nextAgent s = some .engine ↔
      (∃ w, s.eng = .pending w) ∧ (s.host = [] ∨ s.turns = [] ∨ s.turns.head? = some .engine) := by
  cases heng : s.eng with
  | idle => simp [nextAgent_of_idle heng]
  | pending w =>
    rw [nextAgent_of_pending heng]
    cases s.turns <;> simp [or_iff_not_imp_left]

theorem nextAgent_eq_host_iff (s : State) :
    nextAgent s = some .host ↔ s.host ≠ [] ∧ (s.eng = .idle ∨ s.turns.head? = some .host) := by
  cases heng : s.eng with
  | idle => simp [nextAgent_of_idle heng]
  | pending w =>
    rw [nextAgent_of_pending heng]
    cases s.turns <;> by_cases hhost : s.host = [] <;> simp [hhost]

theorem nextAgent_eq_none_iff (s : State) : nextAgent s = none ↔ s.eng = .idle ∧ s.host = [] := by
  cases heng : s.eng with
  | idle => simp [nextAgent_of_idle heng]
  | pending w => simp [nextAgent_of_pending heng]

/-- A turn is spent only where both agents can move (R128). -/
theorem spendTurn_eq (s : State) :
    s.spendTurn = { s with turns := if s.eng = .idle ∨ s.host = [] then s.turns else s.turns.tail } := by
  unfold State.spendTurn
  split
  · next heng hhost => simp [heng, hhost]
  · next hnochoice =>
    have hone : s.eng = .idle ∨ s.host = [] := by
      cases heng : s.eng with
      | idle => exact .inl rfl
      | pending w => cases hhost : s.host with
        | nil => exact .inr rfl
        | cons op rest => exact absurd hhost (hnochoice w op rest heng)
    rw [if_pos hone]

theorem step_of_nextAgent_none {s : State} (h : nextAgent s = none) : step s = .next s := by
  simp only [step, h]

theorem step_of_nextAgent_host {s : State} (h : nextAgent s = some .host) : step s = hostMove s.spendTurn := by
  simp only [step, h]

/-- The host's next operation leaves its list, but for a `POLL` that reads BUSY = 1 (R97). -/
theorem hostMove_cons {s : State} {op : HostOp} {rest : List HostOp} (h : s.host = op :: rest) :
    hostMove s = hostOp op { s with host := if op = .poll ∧ s.status.busy = true then s.host else rest } := by
  simp only [hostMove, h]
  by_cases hpoll : op = .poll ∧ s.status.busy = true
  · rw [if_pos hpoll, if_pos (by simpa using hpoll), ← h]
  · rw [if_neg hpoll, if_neg (by simpa using hpoll)]

/-- Settles O59: the scheduler's three answers, the turn spent, and the host's move. -/
theorem agentsTakeTurns : Obligations.AgentsTakeTurns := by
  refine ⟨fun s => ⟨nextAgent_eq_engine_iff s, nextAgent_eq_host_iff s, nextAgent_eq_none_iff s,
    step_of_nextAgent_none, spendTurn_eq s, fun op rest hnext hhost => ?_⟩,
    fun s off size d a v => ⟨rfl, rfl, rfl, rfl, rfl⟩⟩
  rw [step_of_nextAgent_host hnext, hostMove_cons (s.spendTurn_host.trans hhost)]
  simp only [State.spendTurn_status, State.spendTurn_host]

end Sys2Proof.Machine

namespace Sys2Proof.Machine

/-! ### Every command answers a next state (R124) -/

theorem exec_next (i : Instr) (s : State) : ∃ t, exec i s = .next t := by
  cases i <;> exact ⟨_, rfl⟩

theorem performWord_of_ok {w : Word} {i : Instr} (h : decodeWord w = .ok i) (s : State) :
    performWord w s = exec i s := by
  simp only [performWord, h]

theorem performWord_next (w : Word) (s : State) : ∃ t, performWord w s = .next t := by
  cases h : decodeWord w with
  | error e => exact ⟨_, performWord_of_error h s⟩
  | ok i =>
    rw [performWord_of_ok h]
    exact exec_next i s

/-- Settles O12: a command answers a next state, and what it keeps, what it shows and what it leaves guarded are known
of any next state it answers. -/
theorem everyCommandCompletes : Obligations.EveryCommandCompletes := by
  intro i s
  obtain ⟨t, ht⟩ := exec_next i s
  obtain ⟨code, hends, hkeeps⟩ := exec_effectKeeps ht
  have hirq : t.irq = s.irqEn := by simp [State.irq, hkeeps.irqEn, hends.done]
  exact ⟨t, code, ht, hends, hkeeps.toKeepsHostSide, hirq, exec_guarded ht, exec_outSeen ht⟩

/-! ### The engine's step (R124, R267) -/

theorem step_of_nextAgent_engine {s : State} {w : Word} (heng : s.eng = .pending w)
    (h : nextAgent s = some .engine) : step s = settle (performWord w s.spendTurn.scrubRaced) := by
  simp only [step, h, enginePerform, State.spendTurn_eng, heng]

theorem State.scrubRaced_of_no_race {s : State} (h : s.raced = []) : s.scrubRaced = s := by
  rw [State.scrubRaced, h, State.scrub_nil]

theorem State.settleRaced_of_no_race {s : State} (h : s.raced = []) : s.settleRaced = s := by
  rw [State.settleRaced, State.scrubRaced_of_no_race h, ← h]

/-- With no race there is nothing to give free values, before the command or after it (R267). -/
theorem settle_performWord_of_no_race {s : State} (w : Word) (h : s.raced = []) :
    settle (performWord w s.scrubRaced) = performWord w s := by
  obtain ⟨t, ht⟩ := performWord_next w s
  obtain ⟨-, -, hkeeps⟩ := performWord_effectKeeps ht
  rw [State.scrubRaced_of_no_race h, ht, settle, State.settleRaced_of_no_race (hkeeps.raced.trans h)]

/-- Settles O6: the engine's step performs the word, and the performance of a word that decodes is its command's. -/
theorem stepRunsTheDecodedCommand : Obligations.StepRunsTheDecodedCommand := by
  intro s w heng hnext
  have hstep := step_of_nextAgent_engine heng hnext
  have hquiet (hraced : s.raced = []) : step s = performWord w s.spendTurn :=
    hstep.trans (settle_performWord_of_no_race w (s.spendTurn_raced.trans hraced))
  refine ⟨fun i hi => ?_, fun e _ => ⟨hstep, hquiet⟩⟩
  rw [performWord_of_ok hi] at hstep hquiet
  exact ⟨hstep, hquiet⟩

/-! ### Register writes (R112 to R116, R119) -/

theorem busWrite_idle {s : State} {off : Nat} (d : Word) (hoff : off < 0x100) (halign : off % 4 = 0)
    (h : s.status.busy = false) : busWrite s off 4 d = .next (s.storeReg (regAt off) d) := by
  rw [busWrite_word s d hoff halign, writeReg_idle _ _ h]

theorem busWrite_ctrl (s : State) (d : Word) :
    busWrite s 0x004 4 d = .next { s with irqEn := d.getLsbD 0 }.observeIrq := by
  rw [busWrite_word s d (by decide) (by decide), writeReg_always d (by decide)]
  rfl

theorem busWrite_status (s : State) (d : Word) :
    busWrite s 0x008 4 d = .next { s with status := acknowledge s.status d } := by
  rw [busWrite_word s d (by decide) (by decide), writeReg_always d (by decide)]
  rfl

/-- The two offsets the busy-drop rule leaves writable are those of CTRL and STATUS (R113). -/
theorem writableWhileBusy_regAt (off : Nat) :
    writableWhileBusy (regAt off) = true ↔ off = 0x004 ∨ off = 0x008 := by
  have hctrl : regAt off = some .ctrl ↔ off = 0x004 := registerMapHasOneOffsetEach off .ctrl
  simp [writableWhileBusy, hctrl, regAt_eq_status_iff]

/-- Settles O8: the write is an acceptance. -/
theorem cmdWriteWhileIdleIsAccepted : Obligations.CmdWriteWhileIdleIsAccepted :=
  fun s w hidle => ⟨s.accept w, busWrite_cmd_idle w hidle, rfl⟩

/-- Settles O10: IRQ_EN is set, and an irq that rises is an observation, which touches only the model's records. -/
theorem ctrlWriteSetsIrqEnable : Obligations.CtrlWriteSetsIrqEnable := by
  intro s d
  refine ⟨_, busWrite_ctrl s d, ?_, State.observeIrq_irq _⟩
  rw [observeIrq_eq]

/-- Settles O11: a flag is kept where its bit of the data is 0. -/
theorem statusWriteAcknowledges : Obligations.StatusWriteAcknowledges := by
  intro s d
  have hclear (flag bit : Bool) : (flag && !bit) = if bit then false else flag := by cases bit <;> simp
  rw [busWrite_status, acknowledge, hclear, hclear]

/-- Settles O9: an offset but those of CTRL and STATUS is dropped, and a write to these two is as while idle. -/
theorem writesWhileBusyAreDropped : Obligations.WritesWhileBusyAreDropped := by
  intro s off d hbusy hoff halign
  refine ⟨fun hctrl hstatus => ?_, ?_, ?_⟩
  · have hdrop : writableWhileBusy (regAt off) = false := by
      rw [← Bool.not_eq_true, writableWhileBusy_regAt]
      exact not_or.2 ⟨hctrl, hstatus⟩
    rw [busWrite_word s d hoff halign, writeReg_busy _ d hbusy hdrop]
  · rintro rfl
    obtain ⟨t, ht, hframe, -⟩ := ctrlWriteSetsIrqEnable s d
    exact ⟨t, ht, hframe⟩
  · rintro rfl
    exact busWrite_status s d

/-- Settles O16: each of the six registers stores nothing, and a reserved offset names none. -/
theorem readOnlyWritesHaveNoEffect : Obligations.ReadOnlyWritesHaveNoEffect := by
  intro s d off hidle hoff halign hro
  rw [busWrite_idle d hoff halign hidle]
  rcases hro with hlisted | hreserved
  · fin_cases hlisted <;> rfl
  · rw [hreserved]
    rfl

/-- Settles O20: an access that is not well formed marks, whether it writes or reads. -/
theorem narrowAccessesAreRefused : Obligations.NarrowAccessesAreRefused := by
  intro s off size d hoff hbad
  have hin : ¬ 0x100 ≤ off := Nat.not_le.2 hoff
  simp [busWrite, busRead, hin, accessWellFormed_false hbad, State.markRefused]

/-! ### The plain configuration registers (R44, R118) -/

/-- The registers of R118. -/
def plainRegs : List Reg :=
  [.srcBase, .srcLen, .dstBase, .geomW, .geomH, .align, .magic, .hdrSkip, .imgDim, .lutCfg, .lutIdx,
    .input .red, .input .green, .input .blue]

/-- How many bits, from bit 0 on, a plain register implements (R37, R38, R41). -/
def implementedWidth : Reg → Nat
  | .lutCfg => 25
  | .lutIdx => 24
  | .input _ => 16
  | _ => 32

/-- Storing `n` bits of a word and reading them zero-extended masks the word. -/
theorem setWidth_setWidth_eq_and (d : Word) (n : Nat) :
    (d.setWidth n).setWidth 32 = d &&& (BitVec.allOnes n).setWidth 32 := by
  ext i hi
  simp [Bool.and_comm, BitVec.getLsbD_eq_getElem hi]

theorem storeReg_plain {r : Reg} (hr : r ∈ plainRegs) (s : State) (d : Word) :
    s.storeReg (some r) d = { s with cfg := writeConfig s.cfg r d } := by
  fin_cases hr <;> rfl

theorem readReg_writeConfig_same {r : Reg} (hr : r ∈ plainRegs) (s : State) (d : Word) :
    { s with cfg := writeConfig s.cfg r d }.readReg (some r) = (d.setWidth (implementedWidth r)).setWidth 32 := by
  fin_cases hr <;> simp [State.readReg, writeConfig, implementedWidth, Sys2Proof.Color.get]

theorem writeConfig_input_other {r : Reg} {n : Channel} (hne : r ≠ .input n) (c : ConfigRegs) (d : Word) :
    (writeConfig c r d).input.get n = c.input.get n := by
  cases r with
  | input m => cases m <;> cases n <;> simp_all [writeConfig, Sys2Proof.Color.get]
  | _ => rfl

/-- A write to the configuration reaches the register it names and no other that has a value of its own. -/
theorem readReg_writeConfig_other {r r' : Reg} (hne : r' ≠ r) (hlen : r' ≠ .expLen) (hdim : r' ≠ .outDim)
    (hwindow : ∀ n, r' ≠ .lutWindow n) (s : State) (d : Word) :
    { s with cfg := writeConfig s.cfg r d }.readReg (some r') = s.readReg (some r') := by
  cases r' with
  | expLen => exact absurd rfl hlen
  | outDim => exact absurd rfl hdim
  | lutWindow n => exact absurd rfl (hwindow n)
  | input n => simp only [State.readReg, writeConfig_input_other hne.symm]
  | id | ctrl | status | cmd | output => rfl
  | _ =>
    simp only [State.readReg]
    unfold writeConfig
    split <;> simp_all

/-- Settles O15: the listed offsets and masks are those of the plain registers. -/
theorem plainRegisterWriteThenRead : Obligations.PlainRegisterWriteThenRead := by
  intro s d off mask hidle hmem
  have hplain : (off, mask) ∈ plainRegs.map fun r =>
      (offsetOf r, (BitVec.allOnes (implementedWidth r)).setWidth 32) := hmem
  obtain ⟨r, hr, heq⟩ := List.mem_map.1 hplain
  obtain ⟨rfl, rfl⟩ := Prod.mk.inj heq
  obtain ⟨hoff, halign⟩ := offsetOf_lt r
  refine ⟨{ s with cfg := writeConfig s.cfg r d }, ?_, ?_, rfl, fun off' hne hother => ?_, rfl, rfl⟩
  · rw [busWrite_idle d hoff halign hidle, regAt_offsetOf, storeReg_plain hr]
  · rw [regAt_offsetOf, readReg_writeConfig_same hr, setWidth_setWidth_eq_and]
  · cases hr' : regAt off' with
    | none => rfl
    | some r' =>
      obtain rfl := offsetOf_of_regAt hr'
      refine readReg_writeConfig_other ?_ ?_ ?_ (fun n => ?_) s d
      · rintro rfl; exact hne rfl
      · rintro rfl; exact hother (by decide)
      · rintro rfl; exact hother (by decide)
      · rintro rfl; exact hother (by cases n <;> decide)

/-! ### The LUT window (R120, R121) -/

/-- Settles O18: an index in capacity stores one channel, any other stores nothing. -/
theorem latticeWindowWrite : Obligations.LatticeWindowWrite := by
  intro s n d hidle
  obtain ⟨hoff, halign⟩ := offsetOf_lt (.lutWindow n)
  rw [busWrite_idle d hoff halign hidle, regAt_offsetOf]
  refine ⟨fun hin => ?_, fun hout => ?_⟩
  · have hstore : s.storeReg (some (.lutWindow n)) d = s.putChannel s.cfg.lutIdx.toNat n (d.extractLsb' 0 16) := by
      rw [← BitVec.setWidth_eq_extractLsb' (by decide)]
      exact if_pos hin
    have hfind := s.putChannel_find s.cfg.lutIdx.toNat n (d.extractLsb' 0 16)
    obtain ⟨hvalue, hwritten⟩ := State.latticeAt_of_find ((hfind _ n).trans (if_pos ⟨rfl, rfl⟩))
    rw [hstore]
    exact ⟨_, rfl, rfl, hvalue, hwritten, fun e m hne =>
      State.latticeAt_congr rfl ((hfind e m).trans (if_neg fun ⟨he, hm⟩ => hne (by rw [he, hm])))⟩
  · exact congrArg _ (if_neg (Nat.not_lt.2 hout))

/-- Settles O19: the value by whether the window is open, the mark by whether the channel it shows is written. -/
theorem latticeWindowRead : Obligations.LatticeWindowRead := by
  intro s n
  obtain ⟨hoff, halign⟩ := offsetOf_lt (.lutWindow n)
  refine ⟨_, busRead_word s hoff halign, ?_⟩
  rw [regAt_offsetOf, hostRead_eq]
  refine ⟨by simp, fun hbusy => ?_, fun hidle hout => ?_, fun hidle hin hw => ?_, fun hidle hin hw => ?_⟩
  · simp [State.readReg, State.readIsWritten, State.windowOpen, hbusy]
  · simp [State.readReg, State.readIsWritten, State.windowOpen, Nat.not_lt.2 hout]
  · simp [State.readReg, State.readIsWritten, State.windowOpen, hidle, hin, hw]
  · simp [State.readIsWritten, State.windowOpen, hidle, hin, hw]

/-! ### The computed registers (R122, R140 to R145) -/

/-- Ten bits for each sample, in bytes (R141). -/
theorem rowBytes_eq (g : Geometry) : rowBytes g = storedWidth g * 10 / 8 := by
  unfold rowBytes
  omega

theorem geometryValid_iff (g : Geometry) :
    geometryValid g = true ↔ (2 ≤ g.w ∧ g.w % 2 = 0) ∧ (2 ≤ g.h ∧ g.h % 2 = 0) ∧
      (1 ≤ g.ca ∧ 1 ≤ g.ra ∧ 1 ≤ g.ha ∧ 1 ≤ g.fa) ∧ storedWidth g % 4 = 0 ∧ expectedLength g ≤ 2 ^ 32 - 1 := by
  simp [geometryValid, and_assoc]

/-- The fifth condition of R145 makes EXP_LEN fit its register. -/
theorem expLenValue_toNat {r : ConfigRegs} (h : geometryValid (geometryOf r) = true) :
    (expLenValue r).toNat = expectedLength (geometryOf r) := by
  obtain ⟨-, -, -, -, hfits⟩ := (geometryValid_iff _).1 h
  rw [expLenValue, if_pos h, BitVec.toNat_ofNat, Nat.mod_eq_of_lt (by omega)]

/-- The output sizes are halves of 16-bit fields, so they fit the fields of OUT_DIM (R36, R144). -/
theorem outDimValue_toNat {r : ConfigRegs} (h : geometryValid (geometryOf r) = true) :
    (outDimValue r).toNat = outHeight (geometryOf r) * 2 ^ 16 + outWidth (geometryOf r) := by
  have hw : outWidth (geometryOf r) < 2 ^ 16 :=
    Nat.lt_of_le_of_lt (Nat.div_le_self _ 2) (r.geomW.extractLsb' 0 16).isLt
  have hh : outHeight (geometryOf r) < 2 ^ 16 :=
    Nat.lt_of_le_of_lt (Nat.div_le_self _ 2) (r.geomH.extractLsb' 0 16).isLt
  rw [outDimValue, if_pos h, BitVec.toNat_append, ← Nat.shiftLeft_add_eq_or_of_lt (BitVec.isLt _),
    Nat.shiftLeft_eq, BitVec.toNat_ofNat, BitVec.toNat_ofNat, Nat.mod_eq_of_lt hw, Nat.mod_eq_of_lt hh]

/-- Settles O22: the model's geometry is the obligation's but for the bytes of a row, and the two registers read the
computed values where `geom_valid` holds. -/
theorem computedRegistersFollowGeometry : Obligations.ComputedRegistersFollowGeometry := by
  intro s al w pc h pr ca ra ha fa ws stride expLen
  have hstride : rowStride (geometryOf s.cfg) = stride := by
    rw [rowStride, rowBytes_eq]
    rfl
  have hlen : expectedLength (geometryOf s.cfg) = expLen := by
    rw [expectedLength, hstride]
    rfl
  refine ⟨?_, hstride, hlen, rfl, rfl, rfl, fun hvalid => ⟨?_, outDimValue_toNat hvalid⟩, fun hinvalid => ?_⟩
  · rw [geometryValid_iff, hlen]
    exact Iff.rfl
  · exact (expLenValue_toNat hvalid).trans hlen
  · simp [State.readReg, expLenValue, outDimValue, hinvalid]

/-! ### The host's memory accesses (R126) -/

theorem hostMemWrite_unguarded {s : State} {a : Nat} (v : Byte) (hreg : s.params.inRegSpace a = false)
    (hmem : a < memBytes) (hg : s.isGuarded a = false) : hostMemWrite s a v = .next (s.putByte a v) := by
  simp [hostMemWrite, hreg, hg, Nat.not_le.2 hmem]

theorem hostMemRead_unguarded {s : State} {a : Nat} (hreg : s.params.inRegSpace a = false)
    (hmem : a < memBytes) (hg : s.isGuarded a = false) :
    hostMemRead s a = .next (s.recordObs (.mem a (byteAt s.mem a))) := by
  simp [hostMemRead, hreg, hg, Nat.not_le.2 hmem]

/-- Settles O23: an access that is no hazard records the byte or puts it. -/
theorem hostMemoryAccess : Obligations.HostMemoryAccess :=
  fun s a v hreg hmem hg => ⟨hostMemRead_unguarded hreg hmem hg, _, hostMemWrite_unguarded v hreg hmem hg, rfl,
    byteAt_put_same s.mem a v, fun _ hb => byteAt_put_other s.mem v hb⟩

/-! ### What a pending command is performed on (R93, R113, R117) -/

/-- The pending word and its operands, OUT and what the host reads in OUT are the same. -/
structure KeepsOperands (s t : State) : Prop where
  eng     : t.eng = s.eng
  cfg     : t.cfg = s.cfg
  lattice : t.lattice = s.lattice
  out     : t.out = s.out
  outSeen : t.outSeen = s.outSeen

/-- While BUSY = 1 DONE is 0, so no write raises irq (R25, R47). -/
theorem State.Inv.irq_of_busy {s : State} (h : s.Inv) (hbusy : s.status.busy = true) : s.irq = false := by
  simp [State.irq, h.busy_not_done hbusy]

theorem State.observeIrq_of_low {s : State} (h : s.irq = false) : s.observeIrq = s := by
  simp [State.observeIrq, h]

/-- A write while busy moves STATUS or IRQ_EN at most (R113). -/
theorem writeReg_keepsOperands {s : State} (h : s.Inv) (hbusy : s.status.busy = true) (r : Option Reg) (d : Word) :
    KeepsOperands s (s.writeReg r d) := by
  cases hr : writableWhileBusy r with
  | false =>
    rw [writeReg_busy r d hbusy hr]
    exact ⟨rfl, rfl, rfl, rfl, rfl⟩
  | true =>
    rw [writeReg_always d hr]
    simp only [writableWhileBusy, Bool.or_eq_true, beq_iff_eq] at hr
    rcases hr with rfl | rfl
    · have hc : { s with irqEn := d.getLsbD 0 }.Inv := { h with }
      change KeepsOperands s { s with irqEn := d.getLsbD 0 }.observeIrq
      rw [State.observeIrq_of_low (hc.irq_of_busy hbusy)]
      exact ⟨rfl, rfl, rfl, rfl, rfl⟩
    · exact ⟨rfl, rfl, rfl, rfl, rfl⟩

theorem hostOp_keepsOperands {op : HostOp} {s t : State} (h : s.Inv) (hbusy : s.status.busy = true)
    (ht : hostOp op s = .next t) : KeepsOperands s t ∨ t.eng = .idle := by
  rcases hostOp_cases ht with ⟨r, d, rfl⟩ | ⟨off, r, rfl, -⟩ | rfl | ⟨a, v, -, rfl⟩ | ⟨a, -, rfl⟩ | ⟨a, rfl⟩ | ⟨o, rfl⟩ |
    ⟨-, rfl⟩
  · exact .inl (writeReg_keepsOperands h hbusy r d)
  · rw [hostRead_eq]
    exact .inl ⟨rfl, rfl, rfl, rfl, by simp [hbusy]⟩
  · exact .inl ⟨rfl, rfl, rfl, rfl, rfl⟩
  · exact .inl ⟨rfl, rfl, rfl, rfl, rfl⟩
  · rw [hazardWrite_eq]
    exact .inl ⟨rfl, rfl, rfl, rfl, rfl⟩
  · exact .inl ⟨rfl, rfl, rfl, rfl, rfl⟩
  · exact .inl ⟨rfl, rfl, rfl, rfl, rfl⟩
  · exact .inr rfl

/-- Settles O57: a host operation while busy keeps the operands or is the reset, and the engine's step ends the
command. -/
theorem operandsAreFixedWhilePending : Obligations.OperandsAreFixedWhilePending := by
  intro s t w v hinv heng hstep hpending
  have hbusy : s.status.busy = true := hinv.pending_iff_busy.1 ⟨w, heng⟩
  have hparams := parametersNeverChange s t hstep
  rcases step_cases hstep with ⟨hidle, -⟩ | ⟨-, op, -, left, -, -, hop⟩ | ⟨-, w', u, -, hu, rfl⟩
  · simp [heng] at hidle
  · rcases hostOp_keepsOperands (hinv.spendTurn.withHost left) (by simpa using hbusy) hop with hkeeps | hidle
    · obtain ⟨hword, hcfg, hlattice, hout, hseen⟩ := hkeeps
      exact ⟨by simpa [hpending, heng] using hword, by simpa using hcfg, by simpa using hlattice, by simpa using hout,
        by simpa using hseen, hparams⟩
    · simp [hpending] at hidle
  · obtain ⟨_, hends, -⟩ := performWord_effectKeeps hu
    simp [(State.settleRaced_endsWith hends).idle] at hpending

/-! ### POLL under a schedule (R97, R128) -/

theorem run_succ_of_step {s t : State} (h : step s = .next t) (k : Nat) :
    Sys2Proof.core.run (k + 1) s = Sys2Proof.core.run k t := by
  have hcore : Sys2Proof.core.step s = .next t := h
  simp only [Host.Core.run, hcore]

/-- Where the schedule names the engine or nothing, one step ends the pending command and leaves the host's list
(R124, R125, R128). -/
theorem run_one_of_engine_turn {s : State} {w : Word} (heng : s.eng = .pending w)
    (hturns : s.turns.headD .engine = .engine) :
    ∃ t, Sys2Proof.core.run 1 s = .next t ∧ t.eng = .idle ∧ t.host = s.host ∧
      t.status.busy = false ∧ t.status.done = true := by
  have hnext : nextAgent s = some .engine := by rw [nextAgent_of_pending heng, hturns, ite_self]
  obtain ⟨u, hu⟩ := performWord_next w s.spendTurn.scrubRaced
  obtain ⟨_, hends, hkeeps⟩ := performWord_effectKeeps hu
  have hstep : step s = .next u.settleRaced := by rw [step_of_nextAgent_engine heng hnext, hu, settle]
  have hhost : u.settleRaced.host = s.host := by simp [State.settleRaced, State.scrubRaced, hkeeps.host]
  obtain ⟨hbusy, hdone, -, hidle⟩ := State.settleRaced_endsWith hends
  exact ⟨_, run_succ_of_step hstep 0, hidle, hhost, hbusy, hdone⟩

/-- A `POLL` while BUSY = 1 reads STATUS and stays on the host's list (R97). -/
theorem pollStep_waits {s : State} {rest : List HostOp} (hhost : s.host = .poll :: rest)
    (hbusy : s.status.busy = true) (hnext : nextAgent s = some .host) :
    step s = .next (s.spendTurn.hostRead 0x008 (some .status)) := by
  rw [step_of_nextAgent_host hnext, hostMove_cons (s.spendTurn_host.trans hhost),
    if_pos ⟨rfl, s.spendTurn_status ▸ hbusy⟩]
  exact busRead_word s.spendTurn (by decide) (by decide)

/-- Settles O25, by induction on the schedule: a turn of the host is one poll and is used up, any other schedule lets
the engine end the command. -/
theorem pollEndsWithinTheSchedule : Obligations.PollEndsWithinTheSchedule := by
  intro s w rest hinv heng hhost
  induction hturns : s.turns generalizing s with
  | nil =>
    obtain ⟨t, ht⟩ := run_one_of_engine_turn heng (by rw [hturns]; rfl)
    exact ⟨1, t, by simp, hhost ▸ ht⟩
  | cons a turns ih =>
    cases a with
    | engine =>
      obtain ⟨t, ht⟩ := run_one_of_engine_turn heng (by rw [hturns]; rfl)
      exact ⟨1, t, by simp, hhost ▸ ht⟩
    | host =>
      have hnext : nextAgent s = some .host := by simp [nextAgent_of_pending heng, hhost, hturns]
      have hbusy : s.status.busy = true := hinv.pending_iff_busy.1 ⟨w, heng⟩
      have hstep := pollStep_waits hhost hbusy hnext
      have hspent : s.spendTurn.turns = turns := by simp [spendTurn_eq, heng, hhost, hturns]
      obtain ⟨k, t, hk, hrun, hends⟩ := ih (s.spendTurn.hostRead 0x008 (some .status))
        (hinv.spendTurn.hostRead _ _) (by simpa [hostRead_eq] using heng) (by simpa [hostRead_eq] using hhost)
        (by simpa [hostRead_eq] using hspent)
      exact ⟨k + 1, t, by simpa using hk, (run_succ_of_step hstep k).trans hrun, hends⟩

end Sys2Proof.Machine

namespace Sys2Proof.Machine

/-! ### The register checks of the decode commands (R154, R155, R157, R235) -/

theorem decodeFrame_invalidGeometry {s : State} (wrapped : Bool) (h : geometryValid (geometryOf s.cfg) = false) :
    decodeFrame wrapped s = .error .config :=
  if_pos h

theorem decodeFrame_outOfRange {s : State} (wrapped : Bool) (hvalid : geometryValid (geometryOf s.cfg) = true)
    (h : (frameRange s.cfg).fits = false ∨ (decodedRange s.cfg).fits = false) :
    decodeFrame wrapped s = .error .range := by
  have hfits : ((frameRange s.cfg).fits && (decodedRange s.cfg).fits) = false := Bool.and_eq_false_iff.2 h
  simp [decodeFrame, hvalid, hfits]

theorem decodeFrame_overlapping {s : State} (wrapped : Bool) (hvalid : geometryValid (geometryOf s.cfg) = true)
    (hsource : (frameRange s.cfg).fits = true) (hdest : (decodedRange s.cfg).fits = true)
    (h : (frameRange s.cfg).overlaps (decodedRange s.cfg) = true) :
    decodeFrame wrapped s = .error .overlap := by
  simp [decodeFrame, hvalid, hsource, hdest, h]

theorem decodeFrame_payloadError {s : State} (h : FrameChecksPass s) {wrapped : Bool} {c : ErrCode}
    (hbase : payloadBase wrapped s = .error c) : decodeFrame wrapped s = .error c := by
  rw [decodeFrame_checked h, hbase]

theorem payloadBase_bare {s : State} (h : s.cfg.srcLen.toNat = expectedLength (geometryOf s.cfg)) :
    payloadBase false s = .ok s.cfg.srcBase.toNat :=
  if_pos h

theorem payloadBase_bare_error {s : State} (h : s.cfg.srcLen.toNat ≠ expectedLength (geometryOf s.cfg)) :
    payloadBase false s = .error .size :=
  if_neg h

/-- In a buffer that is long enough the marker decides (R157). -/
theorem payloadBase_wrapped {s : State} (h : s.wrappedLongEnough) (hmarker : ∀ k, k < 4 → s.markerByteOk k) :
    payloadBase true s = .ok s.wrappedPayload := by
  rw [payloadBase, if_pos rfl, checkWrapped_long h, checkMagic_markerOk hmarker]

theorem payloadBase_wrapped_error {s : State} (h : s.wrappedLongEnough) {c : ErrCode}
    (hmarker : checkMagic s s.magicAddr [0, 1, 2, 3] = .error c) : payloadBase true s = .error c := by
  rw [payloadBase, if_pos rfl, checkWrapped_long h, hmarker]

/-- The two decode commands are one function of whether the buffer is wrapped (R154, R156). -/
theorem exec_decodeCommand {i : Instr} (hi : i = .decode ∨ i = .decodeWrapped) (s : State) :
    exec i s = .next (s.conclude (decodedRange s.cfg) (decodeFrame (i == .decodeWrapped) s)) := by
  rcases hi with rfl | rfl <;> rfl

/-- A decode command's error is precise unless it is ERR_BUS (R236). -/
theorem exec_decodeCommand_error {i : Instr} (hi : i = .decode ∨ i = .decodeWrapped) {s : State} {c : ErrCode}
    (hc : c ≠ .bus) (h : decodeFrame (i == .decodeWrapped) s = .error c) : exec i s = .next (s.complete c) := by
  rw [exec_decodeCommand hi, h, State.conclude, State.raiseError_precise s _ hc]

/-- Settles O35: each check that fails after those before it have passed gives its error. -/
theorem decodeRejectsInOrder : Obligations.DecodeRejectsInOrder := by
  intro s i hi
  refine ⟨fun hinvalid => ?_, fun hvalid hfits => ?_, fun hvalid hsource hdest hoverlap => ?_,
    fun hchecks hbare hlen => ?_, fun hchecks hwrapped hshort => ?_⟩
  · exact exec_decodeCommand_error hi (by decide) (decodeFrame_invalidGeometry _ hinvalid)
  · exact exec_decodeCommand_error hi (by decide) (decodeFrame_outOfRange _ hvalid hfits)
  · exact exec_decodeCommand_error hi (by decide) (decodeFrame_overlapping _ hvalid hsource hdest hoverlap)
  · subst hbare
    exact exec_decodeCommand_error hi (by decide) (decodeFrame_payloadError hchecks (payloadBase_bare_error hlen))
  · subst hwrapped
    exact exec_decodeCommand_error hi (by decide) (decodeFrame_payloadError hchecks (checkWrapped_short hshort))

/-! ### Commands after reset (R263) -/

theorem exec_lutMapImage_invalid {s : State} (h : s.lutReady = false) :
    exec .lutMapImage s = .next (s.complete .lutDim) := by
  rw [exec_lutMapImage_eq, mapImage, mapImageCheck, if_pos h]
  exact congrArg _ (s.raiseError_precise _ (by decide))

/-- With every register 0 the lattice has fewer than two points on its first axis (R189). -/
theorem lutReady_of_resetConfig {s : State} (h : s.cfg = ConfigRegs.reset) : s.lutReady = false := by
  simp only [State.lutReady, h]
  rfl

/-- Settles O29: the registers are all 0, so no geometry and no lattice configuration is valid. -/
theorem commandsAfterResetFail : Obligations.CommandsAfterResetFail := by
  intro s t h
  cases h
  have hcfg : s.resetBlock.cfg = ConfigRegs.reset := rfl
  have hgeom (wrapped : Bool) : decodeFrame wrapped s.resetBlock = .error .config :=
    decodeFrame_invalidGeometry wrapped (by rw [hcfg]; decide)
  have hlut : s.resetBlock.lutReady = false := lutReady_of_resetConfig hcfg
  exact ⟨rfl, rfl, exec_decodeCommand_error (.inl rfl) (by decide) (hgeom _),
    exec_decodeCommand_error (.inr rfl) (by decide) (hgeom _), exec_lutIdentity_invalid hlut,
    exec_lutMapColor_invalid hlut, exec_lutMapImage_invalid hlut⟩

/-! ### Samples and pixels (R146 to R151, R159) -/

/-- A sample as arithmetic on its two bytes (R147, R148). -/
theorem State.sample_eq (s : State) (pb x y : Nat) :
    s.sample pb x y = ((byteAt s.mem (hiAddr (geometryOf s.cfg) pb x y)).toNat * 4 +
      lowBits s.params.lsbOrder (x % 4) (byteAt s.mem (loAddr (geometryOf s.cfg) pb x y))) * 64 :=
  sampleValue_eq ..

/-- Settles O30: both bytes are read, and the low bits are those of the lane. -/
theorem sampleUnpacking : Obligations.SampleUnpacking := by
  intro s pb x y hiaddr loaddr hhi hlo
  have hlane : x % 4 < 4 := Nat.mod_lt x (by decide)
  refine ⟨s.sample pb x y, readSample_ok hhi hlo, fun horder => ?_, fun horder => ?_⟩
  · rw [State.sample_eq, lowBits_eq _ _ _ hlane, horder]; rfl
  · rw [State.sample_eq, lowBits_eq _ _ _ hlane, horder]; rfl

/-- A sample is one of the 1024 multiples of 64 in a channel (R148). -/
theorem State.sample_eq_mul (s : State) (pb x y : Nat) : ∃ k, k < 1024 ∧ s.sample pb x y = 64 * k := by
  have hle : s.sample pb x y ≤ 65472 := sampleValue_le ..
  have hmod : s.sample pb x y % 64 = 0 := sampleValue_mod ..
  exact ⟨s.sample pb x y / 64, by omega, by omega⟩

/-- Settles O31: with each sample 64 times a number below 1024, their sums and halves fit a channel. -/
theorem decodedChannelsInRange : Obligations.DecodedChannelsInRange := by
  intro s pb ox oy
  obtain ⟨red, hred, ered⟩ := s.sample_eq_mul pb (2 * ox + 1) (2 * oy + 1)
  obtain ⟨right, hright, eright⟩ := s.sample_eq_mul pb (2 * ox + 1) (2 * oy)
  obtain ⟨below, hbelow, ebelow⟩ := s.sample_eq_mul pb (2 * ox) (2 * oy + 1)
  obtain ⟨blue, hblue, eblue⟩ := s.sample_eq_mul pb (2 * ox) (2 * oy)
  simp only [State.demosaiced, BitVec.toNat_ofNat, ered, eright, ebelow, eblue]
  omega

/-! ### The payload of a valid geometry (R141 to R146, R153) -/

/-- Four samples to a group of five bytes (R141, R145). -/
theorem rowBytes_of_groups {g : Geometry} (h : storedWidth g % 4 = 0) : rowBytes g = 5 * (storedWidth g / 4) := by
  unfold rowBytes
  omega

/-- Settles O32: a sample's group lies in its row, its row in the stored rows, and those in the payload. -/
theorem decodeReadsInsideThePayload : Obligations.DecodeReadsInsideThePayload := by
  intro g hvalid
  obtain ⟨⟨hw, -⟩, ⟨hh, -⟩, ⟨hca, hra, hha, hfa⟩, hgroups, -⟩ := (geometryValid_iff g).1 hvalid
  have hwidth : g.w + g.pc ≤ storedWidth g := alignUp_ge _ _ hca
  have hrows : g.h + g.pr ≤ storedRows g := alignUp_ge _ _ hha
  have hrow : 5 * (storedWidth g / 4) ≤ rowStride g := rowBytes_of_groups hgroups ▸ alignUp_ge _ _ hra
  have hlen : rowStride g * storedRows g ≤ expectedLength g := alignUp_ge _ _ hfa
  refine ⟨?_, fun pb x y hx hy => ?_⟩
  · calc 10 = 5 * 2 := rfl
      _ ≤ rowStride g * storedRows g := Nat.mul_le_mul (by omega) (by omega)
      _ ≤ expectedLength g := hlen
  · have hrowEnd : y * rowStride g + rowStride g ≤ expectedLength g := by
      calc y * rowStride g + rowStride g = (y + 1) * rowStride g := (Nat.succ_mul _ _).symm
        _ ≤ storedRows g * rowStride g := Nat.mul_le_mul_right _ (by omega)
        _ ≤ expectedLength g := Nat.mul_comm _ _ ▸ hlen
    simp only [hiAddr, loAddr, groupAddr]
    omega

/-! ### A decode that succeeds (R149 to R158) -/

theorem decodeData_of_admitted {s : State} (hvalid : geometryValid (geometryOf s.cfg) = true) {pb : Nat}
    (hsource : PayloadAdmitted s pb) (hdest : RangeAdmitted s (decodedRange s.cfg)) :
    decodeData s pb = .ok (s.putBytes s.cfg.dstBase.toNat ((s.demosaicedGrid pb).flatMap pixelBytes)) := by
  rcases decodeData_cases hvalid pb with ⟨e, -⟩ | ⟨-, hrefused⟩
  · exact e
  · exact hrefused.elim (absurd hsource) (absurd hdest)

theorem decodeData_of_refused {s : State} (hvalid : geometryValid (geometryOf s.cfg) = true) {pb : Nat}
    (h : ¬ PayloadAdmitted s pb ∨ ¬ RangeAdmitted s (decodedRange s.cfg)) : decodeData s pb = .error .bus := by
  rcases decodeData_cases hvalid pb with ⟨-, hsource, hdest⟩ | ⟨e, -⟩
  · exact h.elim (absurd hsource) (absurd hdest)
  · exact e

/-- Either decode command, with its payload at `pb`, ends with OK and the grid of that payload (R154, R156). -/
theorem exec_decodeCommand_writesTheGrid {i : Instr} (hi : i = .decode ∨ i = .decodeWrapped) {s : State} {pb : Nat}
    (hchecks : FrameChecksPass s) (hbase : payloadBase (i == .decodeWrapped) s = .ok pb)
    (hsource : PayloadAdmitted s pb) (hdest : RangeAdmitted s (decodedRange s.cfg)) :
    ∃ t, exec i s = .next t ∧ EndsWith t .ok ∧
      ∀ ox oy, ox < outWidth (geometryOf s.cfg) → oy < outHeight (geometryOf s.cfg) →
        HoldsPixel t.mem (s.cfg.dstBase.toNat + 6 * (oy * outWidth (geometryOf s.cfg) + ox))
          (s.demosaiced pb ox oy) := by
  refine ⟨_, exec_decodeCommand hi s, ?_⟩
  rw [decodeFrame_checked hchecks, hbase]
  dsimp only
  rw [decodeData_of_admitted hchecks.valid hsource hdest]
  exact ⟨State.complete_endsWith .., decodedGrid_holdsPixel s pb⟩

/-- Settles O33: the payload is the source buffer. -/
theorem decodeWritesTheGrid : Obligations.DecodeWritesTheGrid :=
  fun _ hchecks hlen => exec_decodeCommand_writesTheGrid (.inl rfl) hchecks (payloadBase_bare hlen)

/-- Settles O34: the payload is the end of the source buffer. -/
theorem decodeWrappedWritesTheGrid : Obligations.DecodeWrappedWritesTheGrid :=
  fun _ hchecks hlen hmarker =>
    exec_decodeCommand_writesTheGrid (.inr rfl) hchecks (payloadBase_wrapped hlen hmarker)

/-! ### The marker (R158) -/

/-- With the marker's bytes before byte `k` matching, the check comes to byte `k`. -/
theorem checkMagic_reaches {s : State} {k : Nat} (hk : k < 4) (h : ∀ j, j < k → s.markerByteOk j) :
    ∃ rest, checkMagic s s.magicAddr [0, 1, 2, 3] = checkMagic s s.magicAddr (k :: rest) := by
  refine ⟨List.range' (k + 1) (3 - k), ?_⟩
  have hsplit : [0, 1, 2, 3] = List.range k ++ k :: List.range' (k + 1) (3 - k) := by
    have : k = 0 ∨ k = 1 ∨ k = 2 ∨ k = 3 := by omega
    rcases this with rfl | rfl | rfl | rfl <;> rfl
  rw [hsplit]
  exact checkMagic_skip fun j hj => h j (List.mem_range.1 hj)

theorem checkMagic_refused {s : State} {ma k : Nat} (h : s.params.admits (ma + k) = false) (rest : List Nat) :
    checkMagic s ma (k :: rest) = .error .bus := by
  simp only [checkMagic, memRead8_error h]

theorem checkMagic_differs {s : State} {ma k : Nat} (h : s.params.admits (ma + k) = true)
    (hdiff : byteAt s.mem (ma + k) ≠ magicByte s.cfg k) (rest : List Nat) :
    checkMagic s ma (k :: rest) = .error .magic := by
  simp only [checkMagic, memRead8_ok h, if_neg hdiff]

/-- Settles O36: the check comes to byte `k`, and ends there. -/
theorem markerIsCheckedByteByByte : Obligations.MarkerIsCheckedByteByByte := by
  intro s k hchecks hlen hk hbefore
  obtain ⟨rest, hreach⟩ := checkMagic_reaches hk hbefore
  refine ⟨fun hrefused => ?_, fun hadm hdiff => ?_⟩
  · have hframe : decodeFrame true s = .error .bus := decodeFrame_payloadError hchecks
      (payloadBase_wrapped_error hlen (hreach.trans (checkMagic_refused hrefused rest)))
    refine ⟨_, exec_decodeWrapped_eq s, ?_⟩
    rw [hframe]
    exact ⟨State.raiseError_endsWith .., s.raiseError_sameOutside _ _⟩
  · exact exec_decodeCommand_error (.inr rfl) (by decide) (decodeFrame_payloadError hchecks
      (payloadBase_wrapped_error hlen (hreach.trans (checkMagic_differs hadm hdiff rest))))

/-! ### The bytes DECODE reads (R153) -/

/-- The registers alone decide whether DECODE comes to its data phase (R154, R155). -/
theorem decodeFrame_bare_cases (r : ConfigRegs) :
    (∃ c, c ≠ .ok ∧ ∀ s : State, s.cfg = r → decodeFrame false s = .error c) ∨
    (geometryValid (geometryOf r) = true ∧
      ∀ s : State, s.cfg = r → decodeFrame false s = decodeData s r.srcBase.toNat) := by
  by_cases hvalid : geometryValid (geometryOf r) = true
  · by_cases hfits : (frameRange r).fits = true ∧ (decodedRange r).fits = true
    · obtain ⟨hsource, hdest⟩ := hfits
      cases hover : (frameRange r).overlaps (decodedRange r) with
      | true =>
        refine .inl ⟨.overlap, by decide, ?_⟩
        rintro s rfl
        exact decodeFrame_overlapping _ hvalid hsource hdest hover
      | false =>
        have hchecks (s : State) (hs : s.cfg = r) : FrameChecksPass s := by
          subst hs
          exact ⟨hvalid, hsource, hdest, hover⟩
        by_cases hlen : r.srcLen.toNat = expectedLength (geometryOf r)
        · refine .inr ⟨hvalid, fun s hs => ?_⟩
          rw [decodeFrame_checked (hchecks s hs), payloadBase_bare (by rwa [hs]), hs]
        · exact .inl ⟨.size, by decide, fun s hs =>
            decodeFrame_payloadError (hchecks s hs) (payloadBase_bare_error (by rwa [hs]))⟩
    · rw [not_and_or, Bool.not_eq_true, Bool.not_eq_true] at hfits
      exact .inl ⟨.range, by decide, by rintro s rfl; exact decodeFrame_outOfRange _ hvalid hfits⟩
  · rw [Bool.not_eq_true] at hvalid
    exact .inl ⟨.config, by decide, by rintro s rfl; exact decodeFrame_invalidGeometry _ hvalid⟩

/-- Two states with the same registers and parameters whose memories agree on the bytes of the active samples of a
payload at `pb` (R153). -/
structure AgreeOnSamples (s t : State) (pb : Nat) : Prop where
  cfg    : t.cfg = s.cfg
  params : t.params = s.params
  bytes  : ∀ x y, x < (geometryOf s.cfg).w → y < (geometryOf s.cfg).h →
    byteAt t.mem (hiAddr (geometryOf s.cfg) pb x y) = byteAt s.mem (hiAddr (geometryOf s.cfg) pb x y) ∧
    byteAt t.mem (loAddr (geometryOf s.cfg) pb x y) = byteAt s.mem (loAddr (geometryOf s.cfg) pb x y)

theorem AgreeOnSamples.sample {s t : State} {pb x y : Nat} (h : AgreeOnSamples s t pb) (hx : x < (geometryOf s.cfg).w)
    (hy : y < (geometryOf s.cfg).h) : t.sample pb x y = s.sample pb x y := by
  obtain ⟨hhi, hlo⟩ := h.bytes x y hx hy
  rw [State.sample, State.sample, h.cfg, h.params, hhi, hlo]

/-- Every sample of an output pixel's quad is active (R144, R149). -/
theorem AgreeOnSamples.demosaiced {s t : State} {pb ox oy : Nat} (h : AgreeOnSamples s t pb)
    (hx : ox < outWidth (geometryOf s.cfg)) (hy : oy < outHeight (geometryOf s.cfg)) :
    t.demosaiced pb ox oy = s.demosaiced pb ox oy := by
  unfold outWidth at hx
  unfold outHeight at hy
  simp (disch := omega) only [State.demosaiced, h.sample]

theorem AgreeOnSamples.demosaicedGrid {s t : State} {pb : Nat} (h : AgreeOnSamples s t pb) :
    t.demosaicedGrid pb = s.demosaicedGrid pb := by
  rw [State.demosaicedGrid, State.demosaicedGrid, h.cfg]
  refine List.map_congr_left fun p hp => ?_
  obtain ⟨hx, hy⟩ := pixel_in_grid (List.mem_range.1 hp)
  exact h.demosaiced hx hy

/-- Bytes written at an address read the same whatever memory they were written into. -/
theorem putBytes_byteAt_eq (s t : State) {base a : Nat} {bs : List Byte} (h : base ≤ a ∧ a < base + bs.length) :
    byteAt (t.putBytes base bs).mem a = byteAt (s.putBytes base bs).mem a := by
  simp only [byteAt, State.putBytes_find, dif_pos h]

/-- Settles O38: the registers decide the checks, the parameters what is admitted, and the samples the grid. -/
theorem decodeIgnoresPadding : Obligations.DecodeIgnoresPadding := by
  intro s t s' t' hcfg hparams hbytes hs ht
  have hagree : AgreeOnSamples s t s.cfg.srcBase.toNat := ⟨hcfg, hparams, hbytes⟩
  rw [exec_decode_eq] at hs ht
  cases hs
  cases ht
  rcases decodeFrame_bare_cases s.cfg with ⟨c, hc, herror⟩ | ⟨hvalid, hdata⟩
  · rw [herror s rfl, herror t hcfg]
    simp [State.conclude, hc]
  · rw [hdata s rfl, hdata t hcfg]
    have hvalid' : geometryValid (geometryOf t.cfg) = true := by rwa [hcfg]
    by_cases hadm : PayloadAdmitted s s.cfg.srcBase.toNat ∧ RangeAdmitted s (decodedRange s.cfg)
    · obtain ⟨hsource, hdest⟩ := hadm
      rw [decodeData_of_admitted hvalid hsource hdest, decodeData_of_admitted hvalid'
        (by simpa only [PayloadAdmitted, hcfg, hparams]) (by simpa only [RangeAdmitted, hcfg, hparams]),
        hagree.demosaicedGrid, hcfg]
      refine ⟨rfl, fun _ a ha => putBytes_byteAt_eq s t ?_⟩
      rw [demosaicedGrid_bytes_length]
      exact (range_contains_iff _ _).1 ha
    · rw [not_and_or] at hadm
      rw [decodeData_of_refused hvalid hadm, decodeData_of_refused hvalid'
        (by simpa only [PayloadAdmitted, RangeAdmitted, hcfg, hparams])]
      simp [State.conclude]

/-! ### What the grid commands leave unchanged (R153, R193, R236, R237) -/

@[simp] theorem State.putBytes_lattice (s : State) (a : Nat) (bs : List Byte) :
    (s.putBytes a bs).lattice = s.lattice := by
  rw [State.putBytes_eq]
@[simp] theorem State.putBytes_draws (s : State) (a : Nat) (bs : List Byte) : (s.putBytes a bs).draws = s.draws := by
  rw [State.putBytes_eq]

/-- How a command that writes a grid into `dest` ends, from the state `u` in which its mark is set: precisely with an
error, with its destination written, or with ERR_BUS. -/
inductive GridEnd (u : State) (dest : AddrRange) : State → Prop where
  | precise (c : ErrCode) (hc : c ≠ .bus) : GridEnd u dest (u.complete c)
  | written (bs : List Byte) (hbs : bs.length = dest.len) : GridEnd u dest ((u.putBytes dest.base bs).complete .ok)
  | bus : GridEnd u dest (u.raiseError dest .bus)

theorem decodeFrame_gridEnd (wrapped : Bool) (s : State) :
    GridEnd s (decodedRange s.cfg) (s.conclude (decodedRange s.cfg) (decodeFrame wrapped s)) := by
  rcases decodeFrame_cases wrapped s with ⟨c, e⟩ | ⟨-, pb, -, e, -⟩ <;> rw [e]
  · by_cases hc : c = .bus
    · subst hc
      exact .bus
    · rw [State.conclude, State.raiseError_precise s _ hc]
      exact .precise c hc
  · exact .written _ (demosaicedGrid_bytes_length s pb)

theorem mapImage_gridEnd (s : State) : ∃ b, GridEnd (s.markUninit b) (imageDest s.cfg) (mapImage s) := by
  rcases mapImage_cases s with ⟨c, hc, -, e⟩ | ⟨-, -, -, e⟩ | ⟨-, -, e⟩ <;> rw [e]
  · exact ⟨true, .precise c hc⟩
  · exact ⟨_, .written _ (mappedGrid_bytes_length s)⟩
  · exact ⟨_, .bus⟩

/-- Only LUT_MAP_IMAGE can set the mark of R46 before it writes its grid. -/
theorem exec_gridEnd {s t : State} {i : Instr} (hi : i = .decode ∨ i = .decodeWrapped ∨ i = .lutMapImage)
    (h : exec i s = .next t) : ∃ b, (i ≠ .lutMapImage → b = true) ∧
      GridEnd (s.markUninit b) (if i = .lutMapImage then imageDest s.cfg else decodedRange s.cfg) t := by
  rcases hi with rfl | rfl | rfl <;> cases h
  · exact ⟨true, fun _ => rfl, decodeFrame_gridEnd false s⟩
  · exact ⟨true, fun _ => rfl, decodeFrame_gridEnd true s⟩
  · obtain ⟨b, hend⟩ := mapImage_gridEnd s
    exact ⟨b, fun hne => absurd rfl hne, hend⟩

/-- However it ends, OUT, the lattice, the mark and the bytes outside the destination stay. -/
theorem GridEnd.frame {u t : State} {dest : AddrRange} (h : GridEnd u dest t) :
    t.out = u.out ∧ t.lattice = u.lattice ∧ t.faulted = u.faulted ∧ SameOutside u t dest := by
  cases h with
  | precise c hc => exact ⟨rfl, rfl, rfl, fun _ _ => rfl⟩
  | written bs hbs => exact ⟨by simp, by simp, by simp, u.putBytes_sameOutside dest bs hbs⟩
  | bus => exact ⟨by simp, by simp, by simp, u.raiseError_sameOutside dest .bus⟩

/-- An error but ERR_BUS leaves all of memory, and success draws no free byte (R236, R237). -/
theorem GridEnd.memory {u t : State} {dest : AddrRange} (h : GridEnd u dest t) :
    (t.status.err ≠ .ok → t.status.err ≠ .bus → t.mem = u.mem ∧ t.draws = u.draws) ∧
    (t.status.err = .ok → t.draws = u.draws) := by
  cases h with
  | precise c hc => exact ⟨fun _ _ => ⟨rfl, rfl⟩, fun _ => rfl⟩
  | written bs hbs => exact ⟨fun hok => absurd rfl hok, fun _ => by simp⟩
  | bus => exact ⟨fun _ hbus => absurd (by simp) hbus, fun hok => by simp at hok⟩

/-- Settles O39: the host's side by the effect of any command, the rest by the ends of a command that writes a grid. -/
theorem gridCommandsFrame : Obligations.GridCommandsFrame := by
  intro s t i hi h
  obtain ⟨_, -, hkeeps⟩ := exec_effectKeeps h
  obtain ⟨b, hb, hend⟩ := exec_gridEnd hi h
  obtain ⟨hout, hlattice, hmark, houtside⟩ := hend.frame
  obtain ⟨hprecise, hok⟩ := hend.memory
  simp only [State.markUninit_out, State.markUninit_lattice, State.markUninit_mem, State.markUninit_draws, SameOutside]
    at hout hlattice houtside hprecise hok
  exact ⟨hkeeps.toKeepsHostSide, hout, hlattice, houtside, hprecise, hok, fun hne => by rw [hmark, hb hne]; rfl⟩

end Sys2Proof.Machine

namespace Sys2Proof.Machine

/-! ### One axis of the lattice (R180 to R182) -/

/-- An axis of a valid configuration, as LUT_CFG's 8-bit field holds it (R37, R189). -/
structure ValidAxis (p : Nat) : Prop where
  two_le : 2 ≤ p
  le_255 : p ≤ 255

theorem ValidAxis.blockSize_pos {p : Nat} (h : ValidAxis p) : 0 < blockSize p := Machine.blockSize_pos h.two_le h.le_255

/-- Both points that a value is interpolated between lie on the axis (R181). -/
theorem ValidAxis.root_add_lt {p d : Nat} (h : ValidAxis p) (v : Nat) (hd : d < 2) : rootIndex v p + d < p := by
  have := rootIndex_add_two_le (v := v) h.two_le
  omega

/-- The last lattice coordinate is one spacing beyond the root of the last interval (R180). -/
theorem lastCoord_eq {p : Nat} (h : 2 ≤ p) : (p - 1) * blockSize p = (p - 2) * blockSize p + blockSize p := by
  rw [← Nat.succ_mul, show (p - 2).succ = p - 1 by omega]

/-- The root is that of the last interval, or the value lies within one spacing above its root (R181). -/
theorem rootIndex_cases (v : Nat) {p : Nat} (h : ValidAxis p) :
    rootIndex v p = p - 2 ∨ (rootIndex v p < p - 2 ∧ rootRem v p < blockSize p) := by
  by_cases hlast : p - 2 ≤ v / blockSize p
  · exact .inl (Nat.min_eq_left hlast)
  · have hroot : rootIndex v p = v / blockSize p := Nat.min_eq_right (by omega)
    have hmod := Nat.div_add_mod' v (blockSize p)
    have hlt := Nat.mod_lt v h.blockSize_pos
    have hsum := root_add_rem v p
    rw [hroot] at hsum ⊢
    exact .inr ⟨by omega, by omega⟩

/-- Settles O40: in the last interval the remainder is what is left of the value, in any other less than BS. -/
theorem rootIndexAndRemainder : Obligations.RootIndexAndRemainder := by
  intro v p hv h2 h255
  have hsum := root_add_rem v p
  have hcoord := blockSize_mul_le p
  have hlast := lastCoord_eq h2
  refine ⟨rfl, rootIndex_add_two_le h2, hsum, ?_⟩
  rcases rootIndex_cases v ⟨h2, h255⟩ with hroot | ⟨hroot, hrem⟩
  · rw [hroot] at hsum
    omega
  · have hbelow : rootIndex v p * blockSize p + blockSize p ≤ (p - 2) * blockSize p := by
      rw [← Nat.succ_mul]
      exact Nat.mul_le_mul_right _ hroot
    omega

/-- The remainder is below twice the spacing: 65535 mod (P - 1) is below BS (R190). -/
theorem rootRem_le_two_blockSize {v p : Nat} (hv : v ≤ 65535) (h : ValidAxis p) :
    rootRem v p ≤ 2 * blockSize p := by
  obtain ⟨-, -, -, hrem, -⟩ := rootIndexAndRemainder v p hv h.two_le h.le_255
  have hlast := lastCoord_eq h.two_le
  have hdiv : (p - 1) * blockSize p + 65535 % (p - 1) = 65535 := Nat.div_add_mod 65535 (p - 1)
  have hmod : 65535 % (p - 1) < p - 1 := Nat.mod_lt _ (by have := h.two_le; omega)
  have hspacing : 254 ≤ blockSize p :=
    (Nat.le_div_iff_mul_le (by have := h.two_le; omega)).2 (by have := h.le_255; omega)
  have := h.le_255
  omega

/-- One interpolation along an axis of `p` points for input value `v`,
between the points `g` gives (R182, R184, R186). -/
def axisLerp (mode : DivMode) (p v : Nat) (g : Nat → Int) : Int :=
  lerp mode (g (rootIndex v p)) (g (rootIndex v p + 1)) (rootRem v p) (blockSize p)

/-- A trilinear interpolation is one along each axis: X, then Y, then Z (R184). -/
theorem map3Raw_eq_axisLerp (mode : DivMode) (sh : LutShape) (lat : Nat → Int) (c : Color) :
    map3Raw mode sh lat c =
      axisLerp mode sh.z c.b.toNat fun k => axisLerp mode sh.y c.g.toNat fun j =>
        axisLerp mode sh.x c.r.toNat fun i => lat (latticeIndex sh i j k) := rfl

theorem map1Raw_eq_axisLerp (mode : DivMode) (sh : LutShape) (lat : Nat → Int) (v : Nat) :
    map1Raw mode sh lat v = axisLerp mode sh.x v lat := rfl

/-- An interpolation reads lattice points of its axis only. -/
theorem axisLerp_congr (mode : DivMode) (v : Nat) {p : Nat} {g g' : Nat → Int} (h : ValidAxis p)
    (hg : ∀ t, t < p → g t = g' t) : axisLerp mode p v g = axisLerp mode p v g' := by
  have hlo : g (rootIndex v p) = g' (rootIndex v p) := hg _ (h.root_add_lt v (d := 0) (by decide))
  have hhi : g (rootIndex v p + 1) = g' (rootIndex v p + 1) := hg _ (h.root_add_lt v (by decide))
  rw [axisLerp, axisLerp, hlo, hhi]

@[simp] theorem axisLerp_const (mode : DivMode) (p v : Nat) (a : Int) : axisLerp mode p v (fun _ => a) = a :=
  lerp_same ..

/-- Between the axis's own coordinates an interpolation gives its input (R194 item 1). -/
theorem axisLerp_coordinates (mode : DivMode) (v : Nat) {p : Nat} (h : ValidAxis p) :
    axisLerp mode p v (fun t => ((t * blockSize p : Nat) : Int)) = v := by
  rw [axisLerp, lerp_even mode _ _ h.blockSize_pos, root_add_rem]

/-- On a lattice coordinate an interpolation gives the lattice point (R194 item 3). -/
theorem axisLerp_on_lattice (mode : DivMode) {p t v : Nat} (g : Nat → Int) (h : ValidAxis p) (ht : t < p)
    (hv : v = t * blockSize p) : axisLerp mode p v g = g t := by
  subst hv
  rcases root_on_lattice h.two_le h.le_255 ht with ⟨hroot, hrem⟩ | ⟨hroot, hrem⟩
  · rw [axisLerp, hroot, hrem, lerp_zero]
  · rw [axisLerp, hroot, hrem, lerp_full mode _ _ h.blockSize_pos]

/-! ### How far an interpolation extrapolates (R190) -/

theorem qdiv_mono (mode : DivMode) {a b : Int} {d : Nat} (hd : 0 < d) (h : a ≤ b) :
    qdiv mode a d ≤ qdiv mode b d := by
  have hpos : (0 : Int) < d := Int.natCast_pos.2 hd
  cases mode with
  | trunc => exact Int.tdiv_le_tdiv hpos h
  | floor =>
    simp only [qdiv, Int.fdiv_eq_ediv_of_nonneg _ hpos.le]
    exact Int.ediv_le_ediv hpos h

theorem qdiv_mul_self (mode : DivMode) (a : Int) {d : Nat} (hd : 0 < d) : qdiv mode (a * d) d = a := by
  have hne : (d : Int) ≠ 0 := (Int.natCast_pos.2 hd).ne'
  cases mode with
  | trunc => exact Int.mul_tdiv_cancel a hne
  | floor => exact Int.mul_fdiv_cancel a hne

/-- With a remainder of at most two spacings, a step passes the values it interpolates by no more than their spread:
its quotient lies between 0 and twice their difference, in either rounding. -/
theorem lerp_mem_Icc (mode : DivMode) {lo hi low high : Int} {m d : Nat} (hd : 0 < d) (hm : m ≤ 2 * d)
    (hlo : lo ∈ Set.Icc low high) (hhi : hi ∈ Set.Icc low high) :
    lerp mode lo hi m d ∈ Set.Icc (low - (high - low)) (high + (high - low)) := by
  obtain ⟨hlow, hlowHigh⟩ := hlo
  obtain ⟨hhighLow, hhigh⟩ := hhi
  have hmul : (m : Int) ≤ 2 * d := by exact_mod_cast hm
  have hzero : qdiv mode 0 d = 0 := by simpa using qdiv_mul_self mode 0 hd
  have htwice := qdiv_mul_self mode (2 * (hi - lo)) hd
  rw [lerp, Set.mem_Icc]
  rcases le_total lo hi with hle | hle
  · have hmin : qdiv mode 0 d ≤ qdiv mode (m * (hi - lo)) d :=
      qdiv_mono mode hd (mul_nonneg (Int.natCast_nonneg m) (by omega))
    have hmax : qdiv mode (m * (hi - lo)) d ≤ qdiv mode (2 * (hi - lo) * d) d :=
      qdiv_mono mode hd (by rw [mul_right_comm]; exact mul_le_mul_of_nonneg_right hmul (by omega))
    omega
  · have hmax : qdiv mode (m * (hi - lo)) d ≤ qdiv mode 0 d :=
      qdiv_mono mode hd (mul_nonpos_of_nonneg_of_nonpos (Int.natCast_nonneg m) (by omega))
    have hmin : qdiv mode (2 * (hi - lo) * d) d ≤ qdiv mode (m * (hi - lo)) d :=
      qdiv_mono mode hd (by rw [mul_right_comm]; exact mul_le_mul_of_nonpos_right hmul (by omega))
    omega

/-- An interpolation along an axis at most triples the spread of the points it reads (R190). -/
theorem axisLerp_mem_Icc (mode : DivMode) {p : Nat} (v : Chan) {g : Nat → Int} {low high : Int} (h : ValidAxis p)
    (hg : ∀ t, g t ∈ Set.Icc low high) :
    axisLerp mode p v.toNat g ∈ Set.Icc (low - (high - low)) (high + (high - low)) :=
  lerp_mem_Icc mode h.blockSize_pos (rootRem_le_two_blockSize (Nat.le_of_lt_succ v.isLt) h) (hg _) (hg _)

/-- Settles O42: three interpolations widen the range of a channel to 27 times 65535. -/
theorem trilinearResultIsBounded : Obligations.TrilinearResultIsBounded := by
  intro mode sh lat c hx hx' hy hy' hz hz' hlat
  have hraw := axisLerp_mem_Icc mode c.b ⟨hz, hz'⟩ fun k => axisLerp_mem_Icc mode c.g ⟨hy, hy'⟩ fun j =>
    axisLerp_mem_Icc mode c.r ⟨hx, hx'⟩ fun i => Set.mem_Icc.2 (hlat (latticeIndex sh i j k))
  rw [← map3Raw_eq_axisLerp] at hraw
  obtain ⟨hmin, hmax⟩ := hraw
  constructor <;> omega

/-! ### A valid lattice configuration (R189) -/

theorem lutValid_threeD_iff {sh : LutShape} (h : sh.mode = .threeD) (capacity : Nat) :
    lutValid capacity sh = true ↔ 2 ≤ sh.x ∧ 2 ≤ sh.y ∧ 2 ≤ sh.z ∧ sh.x * sh.y * sh.z ≤ capacity := by
  simp [lutValid, h, and_assoc]

theorem lutValid_oneD_iff {sh : LutShape} (h : sh.mode = .oneD) (capacity : Nat) :
    lutValid capacity sh = true ↔ 2 ≤ sh.x ∧ sh.x ≤ capacity := by
  simp [lutValid, h]

theorem lutReady_axes_3d {s : State} (h : s.lutReady = true) (hm : (lutShapeOf s.cfg).mode = .threeD) :
    ValidAxis (lutShapeOf s.cfg).x ∧ ValidAxis (lutShapeOf s.cfg).y ∧ ValidAxis (lutShapeOf s.cfg).z := by
  obtain ⟨hx, hy, hz, -⟩ := (lutValid_threeD_iff hm _).1 h
  obtain ⟨hx', hy', hz'⟩ := lutShape_le s.cfg
  exact ⟨⟨hx, hx'⟩, ⟨hy, hy'⟩, ⟨hz, hz'⟩⟩

theorem lutReady_axis_1d {s : State} (h : s.lutReady = true) (hm : (lutShapeOf s.cfg).mode = .oneD) :
    ValidAxis (lutShapeOf s.cfg).x :=
  ⟨((lutValid_oneD_iff hm _).1 h).1, (lutShape_le s.cfg).1⟩

/-- Settles O43: the mode is bit 24 of LUT_CFG, and each LUT command checks `lut_valid` first. -/
theorem lutCommandsNeedAValidLattice : Obligations.LutCommandsNeedAValidLattice := by
  intro s
  refine ⟨fun hbit => ?_, fun hbit => ?_, fun hinvalid => ?_⟩
  · exact lutValid_threeD_iff (if_neg (Bool.eq_false_iff.1 hbit)) _
  · exact lutValid_oneD_iff (if_pos hbit) _
  · exact ⟨exec_lutIdentity_invalid hinvalid, exec_lutMapColor_invalid hinvalid, exec_lutMapImage_invalid hinvalid⟩

/-! ### The Identity lattice (R188, R191) -/

/-- Every lattice coordinate fits a channel (R188). -/
theorem coordinate_toNat {i p : Nat} (h : i < p) : (BitVec.ofNat 16 (i * blockSize p)).toNat = i * blockSize p := by
  have := lattice_coord_le h
  rw [BitVec.toNat_ofNat, Nat.mod_eq_of_lt (by omega)]

/-- The coordinate that channel `n` of lattice point (i, j, k) holds (R188). -/
def identityCoord (sh : LutShape) (i j k : Nat) : Channel → Nat
  | .red => i * blockSize sh.x
  | .green => j * blockSize sh.y
  | .blue => k * blockSize sh.z

theorem identityColor_get_toNat {sh : LutShape} {i j k : Nat} (hi : i < sh.x) (hj : j < sh.y) (hk : k < sh.z)
    (n : Channel) : ((identityColor sh i j k).get n).toNat = identityCoord sh i j k n := by
  cases n with
  | red => exact coordinate_toNat hi
  | green => exact coordinate_toNat hj
  | blue => exact coordinate_toNat hk

theorem greyColor_get (sh : LutShape) (i : Nat) (n : Channel) :
    (greyColor sh i).get n = BitVec.ofNat 16 (i * blockSize sh.x) := by
  cases n <;> rfl

theorem identity_latticeAt_3d (s : State) {sh : LutShape} (h : sh.mode = .threeD) {i j k : Nat} (hi : i < sh.x)
    (hj : j < sh.y) (hk : k < sh.z) (n : Channel) :
    (s.putEntries (identityEntries sh)).latticeAt (latticeIndex sh i j k) n = (identityColor sh i j k).get n ∧
      (s.putEntries (identityEntries sh)).written (latticeIndex sh i j k) n = true :=
  State.latticeAt_of_find (identity_find_3d s h hi hj hk n)

theorem identity_latticeAt_1d (s : State) {sh : LutShape} (h : sh.mode = .oneD) {i : Nat} (hi : i < sh.x)
    (n : Channel) :
    (s.putEntries (identityEntries sh)).latticeAt i n = BitVec.ofNat 16 (i * blockSize sh.x) ∧
      (s.putEntries (identityEntries sh)).written i n = true := by
  rw [← greyColor_get sh i n]
  exact State.latticeAt_of_find (identity_find_1d s h hi n)

/-- An entry beyond the points of the configuration keeps its content and its mark (R191). -/
theorem identity_latticeAt_beyond (s : State) {sh : LutShape} {points e : Nat} (h : lutValid points sh = true)
    (he : points ≤ e) (n : Channel) :
    (s.putEntries (identityEntries sh)).latticeAt e n = s.latticeAt e n ∧
      (s.putEntries (identityEntries sh)).written e n = s.written e n :=
  State.latticeAt_congr (State.putEntries_resets ..)
    (s.putEntries_find_other _ n fun _ hc => Nat.not_lt.2 he (identityEntries_lt h _ hc))

/-- Settles O44: each point of the configuration is written with its coordinates, and no entry beyond them. -/
theorem identityWritesTheLattice : Obligations.IdentityWritesTheLattice := by
  intro s hready
  refine ⟨_, exec_lutIdentity_valid hready, State.complete_endsWith .., fun hm => ⟨fun i j k hi hj hk => ?_, ?_⟩,
    fun hm => ⟨fun i n hi => ?_, ?_⟩⟩
  · have hpoint := identity_latticeAt_3d s hm hi hj hk
    have hcoord (n : Channel) := (congrArg BitVec.toNat (hpoint n).1).trans (identityColor_get_toNat hi hj hk n)
    exact ⟨fun n => (hpoint n).2, hcoord .red, hcoord .green, hcoord .blue⟩
  · obtain ⟨hx, hy, hz, -⟩ := (lutValid_threeD_iff hm _).1 hready
    exact fun e n he => identity_latticeAt_beyond s ((lutValid_threeD_iff hm _).2 ⟨hx, hy, hz, le_rfl⟩) he n
  · obtain ⟨hvalue, hwritten⟩ := identity_latticeAt_1d s hm hi n
    exact ⟨hwritten, (congrArg _ hvalue).trans (coordinate_toNat hi)⟩
  · obtain ⟨hx, -⟩ := (lutValid_oneD_iff hm _).1 hready
    exact fun e n he => identity_latticeAt_beyond s ((lutValid_oneD_iff hm _).2 ⟨hx, le_rfl⟩) he n

/-! ### What a colour is mapped to (R184 to R187, R192) -/

theorem State.mapColor_get_3d {s : State} (h : (lutShapeOf s.cfg).mode = .threeD) (c : Color) (n : Channel) :
    (s.mapColor c).get n = cropChan (map3Raw s.params.divMode (lutShapeOf s.cfg) (s.latticeInt n) c) := by
  simp [State.mapColor, h]

theorem State.mapColor_get_1d {s : State} (h : (lutShapeOf s.cfg).mode = .oneD) (c : Color) (n : Channel) :
    (s.mapColor c).get n =
      cropChan (map1Raw s.params.divMode (lutShapeOf s.cfg) (s.latticeInt n) (c.get n).toNat) := by
  simp [State.mapColor, h]

/-- Settles O46: OUT is the mapped colour, whose channels are cropped trilinear interpolations. -/
theorem mapColorIsTrilinear : Obligations.MapColorIsTrilinear := by
  intro s hready hm
  refine ⟨_, exec_lutMapColor_valid hready, State.complete_endsWith .., fun n => ?_⟩
  have hout := congrArg (fun v => (v.toNat : Int)) (State.mapColor_get_3d hm s.cfg.input n)
  exact hout.trans (cropChan_toNat _)

/-- Settles O47: OUT is the mapped colour, whose channels are cropped linear interpolations. -/
theorem mapColorIsLinear : Obligations.MapColorIsLinear := by
  intro s hready hm
  refine ⟨_, exec_lutMapColor_valid hready, State.complete_endsWith .., fun n => ?_⟩
  have hout := congrArg (fun v => (v.toNat : Int)) (State.mapColor_get_1d hm s.cfg.input n)
  exact hout.trans (cropChan_toNat _)

/-- A colour on the coordinates of a lattice point is mapped to that point (R194 item 3). -/
theorem State.mapColor_on_lattice_3d {s : State} (hready : s.lutReady = true)
    (hm : (lutShapeOf s.cfg).mode = .threeD) {c : Color} {i j k : Nat} (hi : i < (lutShapeOf s.cfg).x)
    (hj : j < (lutShapeOf s.cfg).y) (hk : k < (lutShapeOf s.cfg).z)
    (hr : c.r.toNat = i * blockSize (lutShapeOf s.cfg).x) (hg : c.g.toNat = j * blockSize (lutShapeOf s.cfg).y)
    (hb : c.b.toNat = k * blockSize (lutShapeOf s.cfg).z) (n : Channel) :
    (s.mapColor c).get n = s.latticeAt (latticeIndex (lutShapeOf s.cfg) i j k) n := by
  obtain ⟨hx, hy, hz⟩ := lutReady_axes_3d hready hm
  rw [State.mapColor_get_3d hm, map3Raw_eq_axisLerp, axisLerp_on_lattice _ _ hz hk hb,
    axisLerp_on_lattice _ _ hy hj hg, axisLerp_on_lattice _ _ hx hi hr]
  exact cropChan_chan _

theorem State.mapColor_on_lattice_1d {s : State} (hready : s.lutReady = true)
    (hm : (lutShapeOf s.cfg).mode = .oneD) {c : Color} {i : Nat} {n : Channel} (hi : i < (lutShapeOf s.cfg).x)
    (hv : (c.get n).toNat = i * blockSize (lutShapeOf s.cfg).x) : (s.mapColor c).get n = s.latticeAt i n := by
  rw [State.mapColor_get_1d hm, map1Raw_eq_axisLerp, axisLerp_on_lattice _ _ (lutReady_axis_1d hready hm) hi hv]
  exact cropChan_chan _

/-- Settles O50: an interpolation along an axis gives the lattice point its input is on. -/
theorem latticePointsAreReproduced : Obligations.LatticePointsAreReproduced := by
  intro s hready
  refine ⟨fun hm i j k hi hj hk hr hg hb => ⟨_, exec_lutMapColor_valid hready, ?_⟩,
    fun hm i hon => ⟨_, exec_lutMapColor_valid hready, fun n => ?_⟩⟩
  · exact State.mapColor_on_lattice_3d hready hm hi hj hk hr hg hb
  · obtain ⟨hi, hv⟩ := hon n
    exact State.mapColor_on_lattice_1d hready hm hi hv

/-! ### The Identity map (R194 item 1) -/

/-- A trilinear interpolation reads lattice points of the configuration only. -/
theorem map3Raw_congr (mode : DivMode) {sh : LutShape} {lat : Nat → Int} {f : Nat → Nat → Nat → Int} (c : Color)
    (hx : ValidAxis sh.x) (hy : ValidAxis sh.y) (hz : ValidAxis sh.z)
    (hf : ∀ i j k, i < sh.x → j < sh.y → k < sh.z → lat (latticeIndex sh i j k) = f i j k) :
    map3Raw mode sh lat c = axisLerp mode sh.z c.b.toNat fun k => axisLerp mode sh.y c.g.toNat fun j =>
      axisLerp mode sh.x c.r.toNat fun i => f i j k := by
  rw [map3Raw_eq_axisLerp]
  exact axisLerp_congr mode _ hz fun k hk => axisLerp_congr mode _ hy fun j hj => axisLerp_congr mode _ hx fun i hi =>
    hf i j k hi hj hk

/-- Along the axis of its own channel the Identity lattice is the axis's coordinates, along the others it is
constant. -/
theorem map3Raw_identity (mode : DivMode) {sh : LutShape} {lat : Nat → Int} (c : Color) (n : Channel)
    (hx : ValidAxis sh.x) (hy : ValidAxis sh.y) (hz : ValidAxis sh.z)
    (hlat : ∀ i j k, i < sh.x → j < sh.y → k < sh.z →
      lat (latticeIndex sh i j k) = ((identityColor sh i j k).get n).toNat) :
    map3Raw mode sh lat c = (c.get n).toNat := by
  rw [map3Raw_congr mode c hx hy hz (f := fun i j k => (identityCoord sh i j k n : Int)) fun i j k hi hj hk =>
    (hlat i j k hi hj hk).trans (congrArg _ (identityColor_get_toNat hi hj hk n))]
  cases n <;> simp only [identityCoord, axisLerp_const, axisLerp_coordinates mode _ hx, axisLerp_coordinates mode _ hy,
    axisLerp_coordinates mode _ hz, Sys2Proof.Color.get]

/-- The state LUT_IDENTITY's effect leaves (R191). -/
def State.withIdentity (s : State) : State := s.putEntries (identityEntries (lutShapeOf s.cfg))

@[simp] theorem State.withIdentity_cfg (s : State) : s.withIdentity.cfg = s.cfg := s.putEntries_cfg _
@[simp] theorem State.withIdentity_params (s : State) : s.withIdentity.params = s.params := s.putEntries_params _
@[simp] theorem State.withIdentity_faulted (s : State) : s.withIdentity.faulted = s.faulted := s.putEntries_faulted _

theorem exec_lutIdentity_withIdentity {s : State} (h : s.lutReady = true) :
    exec .lutIdentity s = .next (s.withIdentity.complete .ok) :=
  exec_lutIdentity_valid h

theorem State.withIdentity_lutReady (s : State) : s.withIdentity.lutReady = s.lutReady := by
  simp [State.lutReady]

theorem State.withIdentity_mapColor {s : State} (hready : s.lutReady = true) (c : Color) :
    s.withIdentity.mapColor c = c := by
  refine color_ext fun n => ?_
  cases hm : (lutShapeOf s.cfg).mode with
  | threeD =>
    obtain ⟨hx, hy, hz⟩ := lutReady_axes_3d hready hm
    rw [State.mapColor_get_3d (by simpa using hm), State.withIdentity_cfg, map3Raw_identity _ c n hx hy hz,
      cropChan_chan]
    exact fun i j k hi hj hk => congrArg (fun v => (v.toNat : Int)) (identity_latticeAt_3d s hm hi hj hk n).1
  | oneD =>
    have hx := lutReady_axis_1d hready hm
    rw [State.mapColor_get_1d (by simpa using hm), State.withIdentity_cfg, map1Raw_eq_axisLerp,
      axisLerp_congr _ _ hx (g' := fun i => ((i * blockSize (lutShapeOf s.cfg).x : Nat) : Int)),
      axisLerp_coordinates _ _ hx, cropChan_chan]
    intro i hi
    rw [State.latticeInt, State.withIdentity, (identity_latticeAt_1d s hm hi n).1, coordinate_toNat hi]

/-- Every channel a mapping reads belongs to a point of the configuration, which LUT_IDENTITY has written. -/
theorem State.withIdentity_latticeReady {s : State} (hready : s.lutReady = true) (c : Color) :
    s.withIdentity.latticeReady c = true := by
  rw [latticeReady_iff, State.ReadsUnwritten, State.withIdentity_cfg]
  cases hm : (lutShapeOf s.cfg).mode with
  | threeD =>
    obtain ⟨hx, hy, hz⟩ := lutReady_axes_3d hready hm
    rintro ⟨di, dj, dk, n, hdi, hdj, hdk, hunwritten⟩
    have hpoint := identity_latticeAt_3d s hm (hx.root_add_lt c.r.toNat hdi) (hy.root_add_lt c.g.toNat hdj)
      (hz.root_add_lt c.b.toNat hdk) n
    exact Bool.noConfusion (hpoint.2.symm.trans hunwritten)
  | oneD =>
    rintro ⟨n, d, hd, hunwritten⟩
    have hpoint := identity_latticeAt_1d s hm ((lutReady_axis_1d hready hm).root_add_lt (c.get n).toNat hd) n
    exact Bool.noConfusion (hpoint.2.symm.trans hunwritten)

/-- Settles O49: on the Identity lattice a colour is mapped to itself, and every channel read has been written. -/
theorem identityMapsEveryColourToItself : Obligations.IdentityMapsEveryColourToItself := by
  intro s hready
  have hready' : (s.withIdentity.complete .ok).lutReady = true := s.withIdentity_lutReady.trans hready
  have hwritten : (s.withIdentity.complete .ok).latticeReady (s.withIdentity.complete .ok).cfg.input = true :=
    State.withIdentity_latticeReady hready _
  refine ⟨_, _, exec_lutIdentity_withIdentity hready, exec_lutMapColor_valid hready',
    State.complete_endsWith .., ?_, ?_⟩
  · exact (State.withIdentity_mapColor hready _).trans (congrArg _ s.withIdentity_cfg)
  · rw [hwritten]
    exact s.withIdentity_faulted

/-! ### How LUT_MAP_IMAGE ends (R193, R235 to R237) -/

/-- A failing check ends LUT_MAP_IMAGE precisely (R236). -/
theorem exec_lutMapImage_of_check_error {s : State} {c : ErrCode} (h : mapImageCheck s = .error c) :
    exec .lutMapImage s = .next (s.complete c) := by
  rw [exec_lutMapImage_eq, mapImage, h]
  exact congrArg _ (s.raiseError_precise _ (mapImageCheck_error h).1)

theorem mapImageCheck_outOfRange {s : State} (hready : s.lutReady = true)
    (h : (imageSource s.cfg).fits = false ∨ (imageDest s.cfg).fits = false) : mapImageCheck s = .error .range := by
  simp [mapImageCheck, hready, Bool.and_eq_false_iff.2 h]

theorem mapImageCheck_overlapping {s : State} (hready : s.lutReady = true) (hsource : (imageSource s.cfg).fits = true)
    (hdest : (imageDest s.cfg).fits = true) (h : (imageSource s.cfg).overlaps (imageDest s.cfg) = true) :
    mapImageCheck s = .error .overlap := by
  simp [mapImageCheck, hready, hsource, hdest, h]

/-- An empty range fits at any 32-bit address (R71). -/
theorem emptyRange_fits (a : Word) : AddrRange.fits ⟨a.toNat, 0⟩ = true := (range_fits_iff _).2 a.isLt.le

theorem emptyRange_admitted (s : State) (base : Nat) : RangeAdmitted s ⟨base, 0⟩ := fun a ha => by
  obtain ⟨hmin, hmax⟩ := (range_contains_iff _ _).1 ha
  exact absurd hmax (Nat.not_lt.2 hmin)

/-- An image of no pixels passes the checks, accesses nothing and writes nothing (R193). -/
theorem exec_lutMapImage_empty {s : State} (hready : s.lutReady = true) (h : imagePixels s.cfg = 0) :
    exec .lutMapImage s = .next (s.complete .ok) := by
  have hsource : imageSource s.cfg = ⟨s.cfg.srcBase.toNat, 0⟩ := by rw [imageSource, h]
  have hdest : imageDest s.cfg = ⟨s.cfg.dstBase.toNat, 0⟩ := by rw [imageDest, h]
  have hchecks : ImageChecksPass s :=
    ⟨hready, hsource ▸ emptyRange_fits _, hdest ▸ emptyRange_fits _, by rw [hsource]; rfl⟩
  have hgrid : s.mappedGrid = [] := List.length_eq_zero_iff.1 (s.mappedGrid_length.trans h)
  have hmark : imageReady s = true := by rw [imageReady, h]; rfl
  rw [exec_lutMapImage_eq, mapImage_of_admitted hchecks (hsource ▸ emptyRange_admitted s _)
    (hdest ▸ emptyRange_admitted s _), hgrid, hmark]
  rfl

/-- Settles O53: the two checks after the lattice's, and the empty image. -/
theorem mapImageRejectsInOrder : Obligations.MapImageRejectsInOrder := fun _ hready =>
  ⟨fun hfits => exec_lutMapImage_of_check_error (mapImageCheck_outOfRange hready hfits),
    fun hsource hdest hoverlap =>
      exec_lutMapImage_of_check_error (mapImageCheck_overlapping hready hsource hdest hoverlap),
    exec_lutMapImage_empty hready⟩

/-- With its checks passed and a byte of a grid refused LUT_MAP_IMAGE ends with ERR_BUS (R234). -/
theorem mapImage_of_refused {s : State} (h : ImageChecksPass s)
    (hrefused : ¬ RangeAdmitted s (imageSource s.cfg) ∨ ¬ RangeAdmitted s (imageDest s.cfg)) :
    mapImage s = (s.markUninit (imageReady s)).raiseError (imageDest s.cfg) .bus := by
  rcases mapImageData_cases (s.markUninit (imageReady s)) with ⟨-, hsource, hdest⟩ | ⟨e, -⟩
  · simp only [State.markUninit_cfg, RangeAdmitted, State.markUninit_params] at hsource hdest
    exact hrefused.elim (absurd hsource) (absurd hdest)
  · rw [mapImage_checked h, e]
    rfl

/-- Settles O54: the error is that of the data phase, and an error leaves the bytes outside the destination alone. -/
theorem mapImageEndsInBusError : Obligations.MapImageEndsInBusError := by
  intro s hchecks hrefused
  refine ⟨_, exec_lutMapImage_eq s, ?_⟩
  rw [mapImage_of_refused hchecks hrefused]
  refine ⟨State.raiseError_endsWith .., fun a ha => ?_⟩
  rw [State.raiseError_sameOutside _ _ _ a ha, State.markUninit_mem]

end Sys2Proof.Machine

namespace Sys2Proof.Machine

/-! ### The codes a command can report (R230, R235) -/

/-- A command reports OK or the error its meaning raised (R124, R125). -/
theorem State.conclude_err_mem (s : State) (dest : AddrRange) {r : Except ErrCode State} {codes : List ErrCode}
    (hok : .ok ∈ codes) (herror : ∀ c, r = .error c → c ∈ codes) : (s.conclude dest r).status.err ∈ codes := by
  cases r with
  | ok t => exact hok
  | error c =>
    rw [State.conclude, (s.raiseError_endsWith dest c).err]
    exact herror c rfl

/-- The shared checks pass, or one of them gives either decode command its code (R154). -/
theorem frameChecks_pass_or_error (s : State) :
    FrameChecksPass s ∨ ∃ c ∈ [ErrCode.config, .range, .overlap], ∀ wrapped, decodeFrame wrapped s = .error c := by
  cases hvalid : geometryValid (geometryOf s.cfg) with
  | false => exact .inr ⟨.config, by decide, fun wrapped => decodeFrame_invalidGeometry wrapped hvalid⟩
  | true =>
    by_cases hfits : (frameRange s.cfg).fits = true ∧ (decodedRange s.cfg).fits = true
    · obtain ⟨hsource, hdest⟩ := hfits
      cases hoverlap : (frameRange s.cfg).overlaps (decodedRange s.cfg) with
      | false => exact .inl ⟨hvalid, hsource, hdest, hoverlap⟩
      | true =>
        exact .inr ⟨.overlap, by decide, fun wrapped => decodeFrame_overlapping wrapped hvalid hsource hdest hoverlap⟩
    · rw [not_and_or, Bool.not_eq_true, Bool.not_eq_true] at hfits
      exact .inr ⟨.range, by decide, fun wrapped => decodeFrame_outOfRange wrapped hvalid hfits⟩

/-- A decode's error is that of a shared check, of the size and marker checks, or of the data phase (R235). -/
theorem decodeFrame_error_cases {wrapped : Bool} {s : State} {c : ErrCode} (h : decodeFrame wrapped s = .error c) :
    c ∈ [ErrCode.config, .range, .overlap] ∨ payloadBase wrapped s = .error c ∨ c = .bus := by
  rcases frameChecks_pass_or_error s with hchecks | ⟨c', hmem, herror⟩
  · cases hbase : payloadBase wrapped s with
    | error c' =>
      rw [decodeFrame_payloadError hchecks hbase] at h
      exact .inr (.inl (congrArg _ (Except.error.inj h)))
    | ok pb =>
      rw [decodeFrame_checked hchecks, hbase] at h
      dsimp only at h
      rcases decodeData_cases hchecks.valid pb with ⟨e, -⟩ | ⟨e, -⟩ <;> rw [e] at h <;> cases h
      exact .inr (.inr rfl)
  · rw [herror wrapped] at h
    cases h
    exact .inl hmem

/-- CheckBare fails on the size alone (R155). -/
theorem payloadBase_bare_error_eq {s : State} {c : ErrCode} (h : payloadBase false s = .error c) : c = .size := by
  by_cases hlen : s.cfg.srcLen.toNat = expectedLength (geometryOf s.cfg)
  · rw [payloadBase_bare hlen] at h
    cases h
  · rw [payloadBase_bare_error hlen] at h
    cases h
    rfl

/-- CheckWrapped fails on the size, or in the marker check (R157, R158). -/
theorem payloadBase_wrapped_error_cases {s : State} {c : ErrCode} (h : payloadBase true s = .error c) :
    c = .size ∨ c = .magic ∨ c = .bus := by
  rw [payloadBase, if_pos rfl] at h
  by_cases hlen : s.wrappedLongEnough
  · rw [checkWrapped_long hlen] at h
    split at h
    · next hmarker =>
      cases h
      exact .inr (checkMagic_error hmarker)
    · cases h
  · rw [checkWrapped_short hlen] at h
    cases h
    exact .inl rfl

theorem decodeFrame_bare_reportable {s : State} {c : ErrCode} (h : decodeFrame false s = .error c) :
    c ∈ reportable .decode := by
  rcases decodeFrame_error_cases h with hcheck | hbase | rfl
  · exact List.subset_def.1 (by decide) hcheck
  · rw [payloadBase_bare_error_eq hbase]
    decide
  · decide

theorem decodeFrame_wrapped_reportable {s : State} {c : ErrCode} (h : decodeFrame true s = .error c) :
    c ∈ reportable .decodeWrapped := by
  rcases decodeFrame_error_cases h with hcheck | hbase | rfl
  · exact List.subset_def.1 (by decide) hcheck
  · rcases payloadBase_wrapped_error_cases hbase with rfl | rfl | rfl <;> decide
  · decide

/-- LUT_IDENTITY fails in the lattice check alone (R191). -/
theorem identityLattice_error {s : State} {c : ErrCode} (h : identityLattice s = .error c) : c = .lutDim := by
  unfold identityLattice at h
  split at h <;> cases h
  rfl

/-- LUT_MAP_COLOR fails in the lattice check alone (R192). -/
theorem mapInput_error {s : State} {c : ErrCode} (h : mapInput s = .error c) : c = .lutDim := by
  unfold mapInput at h
  split at h <;> cases h
  rfl

/-- The checks of LUT_MAP_IMAGE give one of three codes (R193). -/
theorem mapImageCheck_error_mem {s : State} {c : ErrCode} (h : mapImageCheck s = .error c) :
    c ∈ [ErrCode.lutDim, .range, .overlap] := by
  unfold mapImageCheck at h
  split at h
  · cases h; decide
  · split at h
    · cases h; decide
    · split at h <;> cases h
      decide

theorem mapImage_err_reportable (s : State) : (mapImage s).status.err ∈ reportable .lutMapImage := by
  cases hcheck : mapImageCheck s with
  | error c =>
    rw [mapImage, hcheck]
    dsimp only
    rw [(s.raiseError_endsWith _ c).err]
    exact List.subset_def.1 (by decide) (mapImageCheck_error_mem hcheck)
  | ok =>
    rw [mapImage_checked ((mapImageCheck_ok_iff s).1 hcheck)]
    refine State.conclude_err_mem _ _ (by decide) fun c h => ?_
    rcases mapImageData_cases (s.markUninit (imageReady s)) with ⟨e, -⟩ | ⟨e, -⟩ <;> rw [e] at h <;> cases h
    decide

/-- Settles O13: a command reports OK, or an error that one of its checks or its data phase raises. -/
theorem eachCommandReportsOnlyItsCodes : Obligations.EachCommandReportsOnlyItsCodes := by
  intro i s t h
  cases i with
  | decode =>
    cases h
    exact s.conclude_err_mem _ (by decide) fun _ => decodeFrame_bare_reportable
  | decodeWrapped =>
    cases h
    exact s.conclude_err_mem _ (by decide) fun _ => decodeFrame_wrapped_reportable
  | lutIdentity =>
    cases h
    exact s.conclude_err_mem _ (by decide) fun c hc => by rw [identityLattice_error hc]; decide
  | lutMapColor =>
    cases h
    exact s.conclude_err_mem _ (by decide) fun c hc => by rw [mapInput_error hc]; decide
  | lutMapImage =>
    cases h
    exact mapImage_err_reportable s

/-! ### A data phase that meets a refused byte (R234, R237) -/

/-- Either decode command, with its payload at `pb` and a byte of its data phase refused, ends with ERR_BUS and leaves
the bytes outside its destination alone. -/
theorem exec_decodeCommand_of_refused {i : Instr} (hi : i = .decode ∨ i = .decodeWrapped) {s : State} {pb : Nat}
    (hchecks : FrameChecksPass s) (hbase : payloadBase (i == .decodeWrapped) s = .ok pb)
    (hrefused : ¬ PayloadAdmitted s pb ∨ ¬ RangeAdmitted s (decodedRange s.cfg)) :
    ∃ t, exec i s = .next t ∧ EndsWith t .bus ∧ SameOutside s t (decodedRange s.cfg) := by
  refine ⟨_, exec_decodeCommand hi s, ?_⟩
  rw [decodeFrame_checked hchecks, hbase]
  dsimp only
  rw [decodeData_of_refused hchecks.valid hrefused]
  exact ⟨State.raiseError_endsWith .., s.raiseError_sameOutside _ _⟩

/-- Settles O37: the size and marker checks place the payload, and the data phase meets the refused byte. -/
theorem decodeEndsInBusError : Obligations.DecodeEndsInBusError :=
  ⟨fun _ hchecks hlen => exec_decodeCommand_of_refused (.inl rfl) hchecks (payloadBase_bare hlen),
    fun _ hchecks hlen hmarker =>
      exec_decodeCommand_of_refused (.inr rfl) hchecks (payloadBase_wrapped hlen hmarker)⟩

end Sys2Proof.Machine

namespace Sys2Proof.Machine

/-! ### What reset does to a pending command and to an idle block (R262) -/

theorem State.resetBlock_mem (s : State) : s.resetBlock.mem = s.abandon.mem := rfl

@[simp] theorem State.resetBlock_faulted (s : State) : s.resetBlock.faulted = s.faulted := s.abandon_faulted
@[simp] theorem State.resetBlock_refused (s : State) : s.resetBlock.refused = s.refused := s.abandon_refused

theorem State.abandon_of_idle {s : State} (h : s.eng = .idle) : s.abandon = s := by
  simp only [State.abandon, h]

/-- Reset with a command pending touches no byte outside that command's destination range (R262). -/
theorem State.resetBlock_sameOutside {s : State} {w : Word} (h : s.eng = .pending w) :
    SameOutside s s.resetBlock (wordRanges s.cfg w).2 := by
  intro a ha
  rw [State.resetBlock_mem]
  refine abandon_byteAt fun v hv => ?_
  cases h.symm.trans hv
  exact ha

/-- Reset of an idle block leaves memory as it is, in its stored form too. -/
theorem State.resetBlock_mem_of_idle {s : State} (h : s.eng = .idle) : s.resetBlock.mem = s.mem := by
  rw [State.resetBlock_mem, State.abandon_of_idle h]

/-- Settles O28: only the destination range of the abandoned command is scrubbed, and scrubbing keeps the marks. -/
theorem resetAbandonsThePendingCommand : Obligations.ResetAbandonsThePendingCommand :=
  ⟨fun s _ hpending => ⟨s.resetBlock, rfl, rfl, rfl, State.resetBlock_sameOutside hpending, s.resetBlock_faulted,
      s.resetBlock_refused⟩,
    fun s hidle => ⟨s.resetBlock, rfl, State.resetBlock_mem_of_idle hidle, s.resetBlock_faulted,
      s.resetBlock_refused⟩⟩

end Sys2Proof.Machine

namespace Sys2Proof.Machine

/-! ### Host accesses to nothing of the block or of buffer memory (R44, R60, R61) -/

/-- The register space is the 256 bytes from its base (R44). -/
theorem inRegSpace_iff (p : Params) (a : Nat) :
    p.inRegSpace a = true ↔ p.regBase ≤ a ∧ a ≤ p.regBase + 0xFF := by
  simp [Params.inRegSpace]

theorem busWrite_outside (s : State) {off : Nat} (size : AccessSize) (d : Word) (h : 0x100 ≤ off) :
    busWrite s off size d = .fault .outsideRegisterFile := if_pos h

theorem busRead_outside (s : State) {off : Nat} (size : AccessSize) (h : 0x100 ≤ off) :
    busRead s off size = .fault .outsideRegisterFile := if_pos h

theorem hostMemWrite_outside {s : State} {a : Nat} (v : Byte) (hreg : s.params.inRegSpace a = false)
    (hmem : memBytes ≤ a) : hostMemWrite s a v = .fault .outsideBufferMemory := by
  simp [hostMemWrite, hreg, hmem]

theorem hostMemRead_outside {s : State} {a : Nat} (hreg : s.params.inRegSpace a = false)
    (hmem : memBytes ≤ a) : hostMemRead s a = .fault .outsideBufferMemory := by
  simp [hostMemRead, hreg, hmem]

/-- A byte access that hits the register space is refused, as every access of a byte there is (R61, R112). -/
theorem hostMemWrite_inRegSpace {s : State} {a : Nat} (v : Byte) (h : s.params.inRegSpace a = true) :
    hostMemWrite s a v = .next s.markRefused := if_pos h

theorem hostMemRead_inRegSpace {s : State} {a : Nat} (h : s.params.inRegSpace a = true) :
    hostMemRead s a = .next s.markRefused := if_pos h

/-- Settles O21: the register file ends at 0x100, and a byte access asks for the register space before it asks for
buffer memory. -/
theorem hostAccessesOutsideStop : Obligations.HostAccessesOutsideStop := by
  refine ⟨fun s off size d hoff => ?_, fun s a v hreg hmem => ?_, fun s a v hbase hlast => ?_⟩
  · exact ⟨busWrite_outside s size d hoff, busRead_outside s size hoff⟩
  · exact ⟨hostMemWrite_outside v hreg hmem, hostMemRead_outside hreg hmem⟩
  · have hreg : s.params.inRegSpace a = true := (inRegSpace_iff s.params a).2 ⟨hbase, hlast⟩
    exact ⟨hostMemWrite_inRegSpace v hreg, hostMemRead_inRegSpace hreg⟩

end Sys2Proof.Machine
